-- ==== Sys2Proof/Word.lean ====
section
/-! DEFINITION. The word types: OPRAM bytes and 32-bit CSR and descriptor words. -/

namespace Sys2Proof

/-- One OPRAM byte (spec 00_scope.md R15). -/
abbrev Byte := BitVec 8

/-- One control register or descriptor word (10_state.md R42, 30_encoding.md R120). -/
abbrev Word := BitVec 32

end Sys2Proof
end

