-- ==== Sys2Proof/Machine/Bytes.lean ====
section
/-! DEFINITION. Byte-order conversions and bit slices (00_scope.md R15, R16). -/

namespace Sys2Proof.Machine

/-- `le_int`: the first byte is the least significant (R16). -/
def leInt : List Byte → Nat
  | [] => 0
  | b :: bs => b.toNat + 256 * leInt bs

/-- `be_int`: the first byte is the most significant (R16). -/
def beInt (bs : List Byte) : Nat := leInt bs.reverse

/-- `le_bytes_k(v)` (R16). -/
def leBytes : Nat → Nat → List Byte
  | 0, _ => []
  | k + 1, v => BitVec.ofNat 8 v :: leBytes k (v / 256)

/-- `be_bytes_k(v)` (R16). -/
def beBytes (k v : Nat) : List Byte := (leBytes k v).reverse

/-- `v[hi:lo]`: the unsigned integer formed by bits hi down to lo (R15). -/
def bitSlice (v hi lo : Nat) : Nat := v / 2 ^ lo % 2 ^ (hi + 1 - lo)

/-- k zero bytes. -/
def zeroBytes (k : Nat) : List Byte := List.replicate k 0

/-- The n bytes of `bs` from position `off` on. -/
def byteSlice (bs : List Byte) (off n : Nat) : List Byte := (bs.drop off).take n

end Sys2Proof.Machine
end

