-- ==== Sys2Proof/Syntax.lean ====
section
/-! DEFINITION. The seven commands of spec/opcode_table.json (00_scope.md R5, 30_encoding.md R125). -/

namespace Sys2Proof

/-- One command of the engine, with its operands in the assembler's order, destination first (30_encoding.md R130).
Operands are the unsigned integers of the descriptor's fields (R124): OPRAM byte offsets `d` (output), `a` and `b`
(inputs), counts `n` and `m`, window override `win`. -/
inductive Instr where
  /-- HALT (40_sequencer.md R144) -/
  | halt
  /-- NOP (40_sequencer.md R145) -/
  | nop
  /-- DECOMPRESS D, A (41_codec.md R160) -/
  | decompress (d a : Nat)
  /-- COMPRESS D, A (41_codec.md R166) -/
  | compress (d a : Nat)
  /-- SCALAR_MUL D, A, B (42_scalar_mul.md R180) -/
  | scalarMul (d a b : Nat)
  /-- BATCH_NORMALIZE D, A, N (43_batch_normalize.md R190) -/
  | batchNormalize (d a n : Nat)
  /-- MSM D, A, B, N, M, WIN (44_msm.md R200) -/
  | msm (d a b n m win : Nat)
deriving DecidableEq, Repr

/-- The pseudo-instructions of 30_encoding.md R131. -/
inductive Pseudo where
  | decode (d a : Nat)
  | encode (d a : Nat)
  | normalize (d a n : Nat)
  | msmz (d a b n : Nat)
  | msmw (d a b n w : Nat)
deriving DecidableEq, Repr

end Sys2Proof
end

