-- ==== Sys2Proof/WellFormed.lean ====
section
/-! DEFINITION. Which commands have an encoding: every operand fits its field (30_encoding.md R132). -/

namespace Sys2Proof

/-- The value fits a 32-bit field: A, B, D, N, M (30_encoding.md R122, R132). -/
abbrev FitsWord (v : Nat) : Prop := v < 2 ^ 32

/-- The value fits the 4-bit field WIN (30_encoding.md R121, R132). -/
abbrev FitsWin (v : Nat) : Prop := v < 2 ^ 4

/-- What the assembler accepts: it 'refuses a value that does not fit its field (A, B, D, N, M above 2^32 - 1, WIN
above 15)' (30_encoding.md R132). -/
abbrev Instr.WellFormed : Instr → Prop
  | .halt => True
  | .nop => True
  | .decompress d a => FitsWord d ∧ FitsWord a
  | .compress d a => FitsWord d ∧ FitsWord a
  | .scalarMul d a b => FitsWord d ∧ FitsWord a ∧ FitsWord b
  | .batchNormalize d a n => FitsWord d ∧ FitsWord a ∧ FitsWord n
  | .msm d a b n m win => FitsWord d ∧ FitsWord a ∧ FitsWord b ∧ FitsWord n ∧ FitsWord m ∧ FitsWin win

end Sys2Proof
end

