-- ==== Sys2Proof/Decode.lean ====
section
/-! DEFINITION. Descriptors: the format DESC32, the decoder (total, rejecting by name), the encoder, the assembler's
pseudo-instructions (30_encoding.md R120 to R132). -/

namespace Sys2Proof

/-- A descriptor: eight 32-bit words, in the order of 30_encoding.md R121 and R122. -/
structure Descriptor where
  /-- word 0: OPCODE [7:0], WIN [11:8], RSV0 [31:12] -/
  w0 : Word
  /-- word 1: A -/
  w1 : Word
  /-- word 2: B -/
  w2 : Word
  /-- word 3: D -/
  w3 : Word
  /-- word 4: N -/
  w4 : Word
  /-- word 5: M -/
  w5 : Word
  /-- word 6: RSV6 -/
  w6 : Word
  /-- word 7: RSV7 -/
  w7 : Word
deriving DecidableEq, Repr

/-- Why the decoder rejects a descriptor (30_encoding.md R126, R127). -/
inductive DecodeError where
  /-- ILLEGAL_OPCODE: the OPCODE is not in the opcode map (R126). -/
  | illegalOpcode (op : Nat)
  /-- RESERVED_NONZERO: word k holds a nonzero field that the opcode does not use (R127). -/
  | reservedNonzero (k : Nat)
deriving DecidableEq, Repr

/-- The opcodes of 30_encoding.md R125. -/
inductive Opcode where
  | halt | nop | decompress | compress | scalarMul | batchNormalize | msm
deriving DecidableEq, Repr

/-- The OPCODE values of 30_encoding.md R125. -/
def Opcode.code : Opcode → Nat
  | .halt => 0x01
  | .nop => 0x02
  | .decompress => 0x10
  | .compress => 0x11
  | .scalarMul => 0x20
  | .batchNormalize => 0x30
  | .msm => 0x40

/-- The opcode of an OPCODE value, none for the illegal ones (R125, R126). -/
def Opcode.ofCode (v : Nat) : Option Opcode :=
  [.halt, .nop, .decompress, .compress, .scalarMul, .batchNormalize, .msm].find? (fun o => o.code == v)

/-- The operand fields of a descriptor (R121, R122). -/
inductive Field where
  | win | a | b | d | n | m
deriving DecidableEq, Repr

/-- Which fields an opcode uses (the table of R123). -/
def Opcode.uses : Opcode → Field → Bool
  | .halt, _ => false
  | .nop, _ => false
  | .decompress, f => f == .a || f == .d
  | .compress, f => f == .a || f == .d
  | .scalarMul, f => f == .a || f == .b || f == .d
  | .batchNormalize, f => f == .a || f == .d || f == .n
  | .msm, _ => true

/-- OPCODE, word 0 bits [7:0] (R121). -/
def Descriptor.opcode (x : Descriptor) : Nat := Machine.bitSlice x.w0.toNat 7 0

/-- WIN, word 0 bits [11:8] (R121). -/
def Descriptor.win (x : Descriptor) : Nat := Machine.bitSlice x.w0.toNat 11 8

/-- RSV0, word 0 bits [31:12] (R121). -/
def Descriptor.rsv0 (x : Descriptor) : Nat := Machine.bitSlice x.w0.toNat 31 12

/-- The words of a descriptor that hold a field R123 marks 0 for the opcode, each with whether that field is nonzero,
in the order of R127: word 0 (RSV0, and WIN for an opcode other than MSM), then words 1 to 7. -/
def Descriptor.reservedWords (x : Descriptor) (o : Opcode) : List (Bool × Nat) :=
  [(x.rsv0 != 0 || (!o.uses .win && x.win != 0), 0),
   (!o.uses .a && x.w1 != 0, 1),
   (!o.uses .b && x.w2 != 0, 2),
   (!o.uses .d && x.w3 != 0, 3),
   (!o.uses .n && x.w4 != 0, 4),
   (!o.uses .m && x.w5 != 0, 5),
   (x.w6 != 0, 6),
   (x.w7 != 0, 7)]

/-- The index of the first word that holds a nonzero reserved field (R127). -/
def Descriptor.firstReserved (x : Descriptor) (o : Opcode) : Option Nat :=
  ((x.reservedWords o).find? (·.1)).map (·.2)

/-- The command of an opcode with the descriptor's fields as operands (R124). -/
def Descriptor.instr (x : Descriptor) : Opcode → Instr
  | .halt => .halt
  | .nop => .nop
  | .decompress => .decompress x.w3.toNat x.w1.toNat
  | .compress => .compress x.w3.toNat x.w1.toNat
  | .scalarMul => .scalarMul x.w3.toNat x.w1.toNat x.w2.toNat
  | .batchNormalize => .batchNormalize x.w3.toNat x.w1.toNat x.w4.toNat
  | .msm => .msm x.w3.toNat x.w1.toNat x.w2.toNat x.w4.toNat x.w5.toNat x.win

/-- The decoder: steps 1 and 2 of DecodeCheck (40_sequencer.md R142). It decodes every descriptor the same way in
every state (30_encoding.md R129). -/
def decode (x : Descriptor) : Except DecodeError Instr :=
  match Opcode.ofCode x.opcode with
  | none => .error (.illegalOpcode x.opcode)
  | some o =>
    match x.firstReserved o with
    | some k => .error (.reservedNonzero k)
    | none => .ok (x.instr o)

/-- Word k of 32 descriptor bytes: `le_int(MemRead(pc + 4k, 4))` (30_encoding.md R120, 20_memory.md R84). -/
def descriptorWord (bs : List Byte) (k : Nat) : Word :=
  BitVec.ofNat 32 (Machine.leInt (Machine.byteSlice bs (4 * k) 4))

/-- The descriptor held in 32 bytes (R120). -/
def Descriptor.ofBytes (bs : List Byte) : Descriptor where
  w0 := descriptorWord bs 0
  w1 := descriptorWord bs 1
  w2 := descriptorWord bs 2
  w3 := descriptorWord bs 3
  w4 := descriptorWord bs 4
  w5 := descriptorWord bs 5
  w6 := descriptorWord bs 6
  w7 := descriptorWord bs 7

/-- The 32 bytes of a descriptor, each word little-endian (R120, R132). -/
def Descriptor.toBytes (x : Descriptor) : List Byte :=
  Machine.leBytes 4 x.w0.toNat ++ Machine.leBytes 4 x.w1.toNat ++ Machine.leBytes 4 x.w2.toNat ++
  Machine.leBytes 4 x.w3.toNat ++ Machine.leBytes 4 x.w4.toNat ++ Machine.leBytes 4 x.w5.toNat ++
  Machine.leBytes 4 x.w6.toNat ++ Machine.leBytes 4 x.w7.toNat

/-- The descriptor with the given field values, reserved words 0 (R132). -/
def assembleFields (o : Opcode) (win a b d n m : Nat) : Descriptor where
  w0 := BitVec.ofNat 32 (o.code + 256 * win)
  w1 := BitVec.ofNat 32 a
  w2 := BitVec.ofNat 32 b
  w3 := BitVec.ofNat 32 d
  w4 := BitVec.ofNat 32 n
  w5 := BitVec.ofNat 32 m
  w6 := 0
  w7 := 0

/-- The opcode of a command (R125). -/
def Instr.opcode : Instr → Opcode
  | .halt => .halt
  | .nop => .nop
  | .decompress .. => .decompress
  | .compress .. => .compress
  | .scalarMul .. => .scalarMul
  | .batchNormalize .. => .batchNormalize
  | .msm .. => .msm

/-- The encoder: the words of a command, every field R123 marks 0 set to 0 (R132). -/
def encode : Instr → Descriptor
  | .halt => assembleFields .halt 0 0 0 0 0 0
  | .nop => assembleFields .nop 0 0 0 0 0 0
  | .decompress d a => assembleFields .decompress 0 a 0 d 0 0
  | .compress d a => assembleFields .compress 0 a 0 d 0 0
  | .scalarMul d a b => assembleFields .scalarMul 0 a b d 0 0
  | .batchNormalize d a n => assembleFields .batchNormalize 0 a 0 d n 0
  | .msm d a b n m win => assembleFields .msm win a b d n m

/-- The expansion of a pseudo-instruction (R131). -/
def Pseudo.expand : Pseudo → Instr
  | .decode d a => .decompress d a
  | .encode d a => .compress d a
  | .normalize d a n => .batchNormalize d a n
  | .msmz d a b n => .msm d a b n n 0
  | .msmw d a b n w => .msm d a b n n w

/-- The 32 OPRAM bytes of an instruction whose bits are `w`, numbered as spec/opcode_table.json numbers them (bit 0 the
least significant bit of word 0, later words counting on), the bits from `nbits` on being 0. -/
def tableBytes (nbits w : Nat) : List Byte := Machine.leBytes 32 (w % 2 ^ nbits)

/-- The command this decoder reads from a table word (`tableBytes`), none where it rejects it. -/
def decodeTableWord (nbits w : Nat) : Option Instr :=
  match decode (Descriptor.ofBytes (tableBytes nbits w)) with
  | .ok i => some i
  | .error _ => none

end Sys2Proof
end

