-- ==== Sys2Proof/Config.lean ====
section
/-! DEFINITION. What a build of the block fixes (OPRAM_BYTES, WMAX, SMUL_W, CURVE, the port bases) and the free
values, which the spec leaves open. -/

namespace Sys2Proof

/-- A point of the curve in affine form: the point at infinity O, or a pair of canonical field elements
(00_scope.md R23). -/
inductive Point where
  | inf
  | fin (x y : Nat)
deriving DecidableEq, Repr, Inhabited

/-- The configuration record CURVE (00_scope.md R3, R14): y^2 = x^3 + b over F_p, group order r, cofactor h,
generator (gx, gy). Only p and b are read by a command. -/
structure Curve where
  p : Nat
  r : Nat
  b : Nat
  h : Nat
  gx : Nat
  gy : Nat
deriving DecidableEq, Repr

/-- The default CURVE, BLS12-381 G1 (R14). -/
def Curve.bls12381 : Curve where
  p := 0x1a0111ea397fe69a4b1ba7b6434bacd764774b84f38512bf6730d2a0f6b0f6241eabfffeb153ffffb9feffffffffaaab
  r := 0x73eda753299d7d483339d80809a1d80553bda402fffe5bfeffffffff00000001
  b := 4
  h := 0x396c8c005555e1568c00aaab0000aaab
  gx := 0x17f1d3a73197d7942695638c4fa9ac0fc3688c4f9774b905a14e3a3f171bac586c55e83ff97a1aeffb3af00adb22c6bb
  gy := 0x08b3f481e3aaa0f1a09e30ed741d8ae4fcf5e095d5d00af600db18cb2c04b3edd03cc744a2888ae40caa232946c5e7e1

/-- The parameters of a build (00_scope.md R9, R10, R14). They are held in the machine's state and never written,
so that a statement about every state is a statement about every build (log 1). -/
structure Config where
  /-- log2(OPRAM_BYTES) (R9). -/
  opramLog2 : Nat
  /-- WMAX, the largest MSM window width (R10). -/
  wmax : Nat
  curve : Curve
deriving DecidableEq, Repr

/-- The default build: 1 MiB of OPRAM, WMAX = 12, BLS12-381 G1 (R9, R10, R14). -/
def Config.standard : Config where
  opramLog2 := 20
  wmax := 12
  curve := Curve.bls12381

/-- OPRAM_BYTES (R9). -/
def Config.opramBytes (c : Config) : Nat := 2 ^ c.opramLog2

/-- SMUL_W, fixed at 4 in this hardware (R11). -/
def Config.smulW : Nat := 4

/-- The ranges of the parameters (R9, R10) and what every CURVE must offer for the records and the square root of
the spec to make sense: a 381-bit modulus that is 3 mod 4 (R3, R14, R21) and a canonical b. Primality of p is a
separate hypothesis where a statement needs it (log 1, log 15). -/
abbrev Config.Valid (c : Config) : Prop :=
  12 ≤ c.opramLog2 ∧ c.opramLog2 ≤ 31 ∧ 1 ≤ c.wmax ∧ c.wmax ≤ 15 ∧
    3 < c.curve.p ∧ c.curve.p < 2 ^ 381 ∧ c.curve.p % 4 = 3 ∧ c.curve.b < c.curve.p

/-- CURVE is an elliptic curve over a prime field: p a prime above 3 and b not 0, so that E(F_p) 'is an abelian group
under PointAdd with identity O' (00_scope.md R19, R23). The default CURVE is one by R14's checks; the model proves no
primality of its p (log 15). -/
structure Curve.Elliptic (cv : Curve) : Prop where
  prime : cv.p.Prime
  above_three : 3 < cv.p
  b_pos : 0 < cv.b
  b_lt : cv.b < cv.p

/-- The hidden per-command scratch of 10_state.md R63: the bucket accumulators and working points of MSM, the table
of the scalar multiplier, the running products of the batch converter. -/
structure Scratch where
  /-- hs.BUCKET[1 .. 2^WMAX - 1] -/
  bucket : List Point
  /-- hs.RUN -/
  run : Point
  /-- hs.WSUM -/
  wsum : Point
  /-- hs.ACC -/
  acc : Point
  /-- hs.T[0 .. 2^SMUL_W - 1] -/
  table : List Point
  /-- hs.C[0 .. N-1] -/
  products : List Nat
deriving DecidableEq, Repr, Inhabited

/-- FREE VALUE. `freeByte k a` is the byte that draw number k yields at OPRAM offset a, wherever the spec says 'any
value' or 'a draw': an unwritten byte (20_memory.md R86), a host read of an in-flight output region (R104), a byte of
an aborted output region (70_reset_and_hazards.md R253). Nothing is known of it (log 8). -/
opaque Config.freeByte : Nat → Nat → Byte

/-- FREE VALUE. The scratch that draw number k leaves behind: its value after a command, and after a reset, is
unspecified (10_state.md R63, 70_reset_and_hazards.md R250, R253). Nothing is known of it (log 9). -/
opaque Config.freeScratch : Nat → Scratch

/-- OPEN platform parameter CSR_BASE: the host's physical address of CSR offset 0 (00_scope.md R13). -/
opaque Config.csrBase : Nat

/-- OPEN platform parameter OPRAM_BASE: the host's physical address of OPRAM byte 0 (00_scope.md R13). -/
opaque Config.opramBase : Nat

end Sys2Proof
end

