-- ==== Sys2Proof/Machine/State.lean ====
section
/-! DEFINITION. The state of the block as plain data, its reasons to stop, and the state after power-on reset
(10_state.md). -/

namespace Sys2Proof.Machine

/-- The error codes of 60_exceptions.md R221; codes 0x0B to 0xFF are never produced. -/
inductive ErrCode where
  | none
  | illegalOpcode
  | reservedNonzero
  | badWindow
  | lengthMismatch
  | misaligned
  | outOfRange
  | overlap
  | notCanonical
  | notOnCurve
  | decodeError
deriving DecidableEq, Repr

/-- `Error(code, info)` of 00_scope.md R18: what a failing check reports. -/
structure Error where
  code : ErrCode
  info : Nat
deriving DecidableEq, Repr

/-- OPRAM: the written bytes, addresses strictly rising; an unlisted byte is unwritten and holds no value
(10_state.md R60, 20_memory.md R86). -/
abbrev Memory := List Host.Cell

/-- One output region of an in-flight command with the bytes it will write there: [base, base + bytes.length)
(10_state.md R62). -/
structure Output where
  base : Nat
  bytes : List Byte
deriving DecidableEq, Repr

/-- The in-flight record hs.INFLIGHT (10_state.md R62). -/
structure Inflight where
  pc : Word
  outputs : List Output
deriving DecidableEq, Repr

/-- The engine phase hs.PHASE (10_state.md R61). STATUS.BUSY is 1 iff the phase is not IDLE, and the in-flight record
exists only in phase INFLIGHT (R62), so both are stored here once (log 14). -/
inductive Phase where
  | idle
  | ready
  | inflight (r : Inflight)
deriving DecidableEq, Repr

/-- The model-fault mark hs.MFAULT, a set of the two reasons (10_state.md R64). -/
structure MFault where
  /-- UNWRITTEN_READ (20_memory.md R86) -/
  unwrittenRead : Bool
  /-- HOST_WRITE_WHILE_BUSY (70_reset_and_hazards.md R260) -/
  hostWriteWhileBusy : Bool
deriving DecidableEq, Repr

/-- The widths of a host access: 1, 2, 4 or 8 bytes (20_memory.md R97). -/
inductive Width where
  | b1 | b2 | b4 | b8
deriving DecidableEq, Repr

/-- A host access to one of the two ports, at an offset within the port (20_memory.md R80, R97, R99). -/
inductive HostAccess where
  | csrRead (width : Width) (off : Nat)
  | csrWrite (width : Width) (off : Nat) (v : Word)
  | opramRead (width : Width) (addr : Nat)
  | opramWrite (width : Width) (addr : Nat) (v : BitVec 64)
deriving DecidableEq, Repr

/-- Whose move comes next: the engine's, the host's, or the reset input's (10_state.md R41,
70_reset_and_hazards.md R251). -/
inductive Turn where
  | engine
  | host (h : HostAccess)
  | powerOn
deriving DecidableEq, Repr

/-- What a host read returned: a register, or the bytes of an OPRAM read on their lanes (20_memory.md R85). -/
inductive Reply where
  | csr (v : Word)
  | opram (v : BitVec 64)
deriving DecidableEq, Repr

/-- Why the machine stops. -/
inductive Fault where
  /-- Raised by every step of a state marked UNWRITTEN_READ: the engine has read an OPRAM byte that nothing has written,
  and the spec predicts nothing of the run from there on (20_memory.md R86, 93_implementation_defined.md U3, U23).
  Safe: the model stops where the hardware goes on with an unspecified value (log 6). -/
  | unwrittenRead
  /-- Raised by every step of a state marked HOST_WRITE_WHILE_BUSY: the host has written OPRAM during a run, whose
  outcome is unpredictable (70_reset_and_hazards.md R260, U6, U23). Safe (log 6, log 11). -/
  | hostWriteWhileBusy
deriving DecidableEq, Repr

/-- Why a step has no meaning. -/
inductive Refusal where
  /-- An instruction without a meaning; no arm of `exec` answers it. Safe. -/
  | notModelled (mnemonic : String)
  /-- Raised by a host access to the CSR port that is not 32-bit and 4-byte aligned at an offset below 0x1000: 'a model
  gives such an access no step' (20_memory.md R99, 93_implementation_defined.md U7). Unsafe if a host makes one: the
  spec assumes it never does (log 12). -/
  | csrAccessShape
deriving DecidableEq, Repr

/-- The state of the block. -/
structure State where
  /-- the build parameters; never written (00_scope.md R9, R10, R14) -/
  cfg : Config
  /-- CTRL.IRQ_EN (10_state.md R47) -/
  irqEn : Bool
  /-- STATUS.DONE (R50) -/
  done : Bool
  /-- STATUS.ERROR (R50) -/
  error : Bool
  /-- CMD_PTR, the pc (R52) -/
  cmdPtr : Word
  /-- CMD_COUNT (R53) -/
  cmdCount : Word
  /-- ERR_CODE bits [7:0] (R54) -/
  errCode : ErrCode
  /-- ERR_PTR (R54) -/
  errPtr : Word
  /-- ERR_INFO (R54) -/
  errInfo : Word
  /-- MSM_WINDOW_CFG.WINDOW (R56) -/
  window : BitVec 4
  /-- MSM_LAST_W bits [3:0] (R55) -/
  lastW : BitVec 4
  /-- OPRAM (R60) -/
  opram : Memory
  /-- hs.PHASE with hs.INFLIGHT (R61, R62) -/
  phase : Phase
  /-- hs.BUCKET, hs.RUN, hs.WSUM, hs.ACC, hs.T, hs.C (R63) -/
  scratch : Scratch
  /-- hs.MFAULT (R64) -/
  mfault : MFault
  /-- the model's own: how many free values have been drawn (log 8) -/
  draws : Nat
  /-- the model's own: the turns still to come; when it is empty every turn is the engine's (log 2) -/
  agenda : List Turn
  /-- the model's own: what the host's reads returned, newest first (log 13) -/
  replies : List Reply
deriving DecidableEq, Repr

/-- The empty mark: 'empty at power-on' (10_state.md R64). -/
def MFault.none : MFault where
  unwrittenRead := false
  hostWriteWhileBusy := false

/-- The scratch at reset, whose value the spec leaves unspecified (R63; DESIGN CHOICE, log 9). -/
def Scratch.blank : Scratch where
  bucket := []
  run := .inf
  wsum := .inf
  acc := .inf
  table := []
  products := []

/-- Power-on reset (10_state.md R66, 70_reset_and_hazards.md R250), with the default build parameters. -/
def State.reset : State where
  cfg := Config.standard
  irqEn := false
  done := false
  error := false
  cmdPtr := 0
  cmdCount := 0
  errCode := .none
  errPtr := 0
  errInfo := 0
  window := 0
  lastW := 0
  opram := []
  phase := .idle
  scratch := Scratch.blank
  mfault := MFault.none
  draws := 0
  agenda := []
  replies := []

end Sys2Proof.Machine
end

