-- ==== Sys2Proof/Machine/Flags.lean ====
section
/-! DEFINITION. The status flags and the interrupt line (10_state.md R50, R51, R58, R65). No command sets a condition
code and no command reads a flag (R58). -/

namespace Sys2Proof.Machine

/-- BUSY as the phase gives it: 'IDLE iff STATUS.BUSY = 0' (10_state.md R61). -/
def Phase.busy : Phase → Bool
  | .idle => false
  | .ready => true
  | .inflight _ => true

/-- STATUS.BUSY (R50). -/
def State.busy (s : State) : Bool := s.phase.busy

/-- The STATUS word: bit 0 BUSY, bit 1 DONE, bit 2 ERROR, bits [31:3] zero (R50). -/
def State.statusWord (s : State) : Word :=
  BitVec.ofNat 32 (s.busy.toNat + 2 * s.done.toNat + 4 * s.error.toNat)

/-- The CTRL word as read: START and SOFT_RESET read 0, bit 2 is IRQ_EN (R47). -/
def State.ctrlWord (s : State) : Word := BitVec.ofNat 32 (4 * s.irqEn.toNat)

/-- The interrupt output, level-sensitive, active high (R65, 60_exceptions.md R230). -/
def State.irq (s : State) : Bool := s.irqEn && (s.done || s.error)

/-- A host write to STATUS: clears DONE if bit 1 is written 1, ERROR if bit 2 is; the error registers stay (R51). -/
def State.clearStatus (s : State) (v : Word) : State :=
  { s with done := s.done && !v.getLsbD 1, error := s.error && !v.getLsbD 2 }

end Sys2Proof.Machine
end

