-- ==== Sys2Proof/Machine/Field.lean ====
section
/-! DEFINITION. The external collaborator's contract: F_p, the curve and its points (00_scope.md R19 to R27). Only the
values are the spec's; how they are computed is not observable (R6, log 15). -/

namespace Sys2Proof.Machine

/-- FpAdd (R19). -/
def fpAdd (p a b : Nat) : Nat := (a + b) % p

/-- FpSub (R19). -/
def fpSub (p a b : Nat) : Nat := (a + (p - b % p)) % p

/-- FpNeg (R19). -/
def fpNeg (p a : Nat) : Nat := (p - a % p) % p

/-- FpMul (R19). -/
def fpMul (p a b : Nat) : Nat := a * b % p

/-- FpSqr (R19). -/
def fpSqr (p a : Nat) : Nat := fpMul p a a

/-- b^e mod p by squaring, for an exponent e < 2^fuel. -/
def powModFuel (p b : Nat) : Nat → Nat → Nat
  | 0, _ => 1 % p
  | fuel + 1, e =>
    if e = 0 then 1 % p
    else
      let h := powModFuel p b fuel (e / 2)
      if e % 2 = 1 then fpMul p (fpSqr p h) b else fpSqr p h

/-- b^e mod p. -/
def powMod (p b e : Nat) : Nat := powModFuel p b (Nat.log2 e + 1) e

/-- FpInv, equal to a^(p-2) mod p (R20). -/
def fpInv (p a : Nat) : Nat := powMod p a (p - 2)

/-- a^((p+1)/4) mod p: a square root of a where a has one, since p mod 4 = 3 (R21). -/
def fpRoot (p a : Nat) : Nat := powMod p a ((p + 1) / 4)

/-- FpIsSquare (R21). -/
def fpIsSquare (p a : Nat) : Bool := fpSqr p (fpRoot p a) == a

/-- The sign of a field element: 1 iff y > (p - 1)/2 (R22). -/
def sgn (p y : Nat) : Nat := if (p - 1) / 2 < y then 1 else 0

/-- x^3 + B (R23). -/
def curveRhs (cv : Curve) (x : Nat) : Nat := fpAdd cv.p (fpMul cv.p (fpSqr cv.p x) x) cv.b

/-- OnCurve(x, y) (R23). -/
def onCurve (cv : Curve) (x y : Nat) : Bool := fpSqr cv.p y == curveRhs cv x

/-- Membership in E(F_p): O, or a pair of canonical field elements on the curve (R23). -/
abbrev pointOnCurve (cv : Curve) : Point → Prop
  | .inf => True
  | .fin x y => x < cv.p ∧ y < cv.p ∧ onCurve cv x y = true

/-- PointNeg (R24). -/
def pointNeg (cv : Curve) : Point → Point
  | .inf => .inf
  | .fin x y => .fin x (fpNeg cv.p y)

/-- The slope l of R25: the tangent where the two points have the same x, else the chord. -/
def slope (cv : Curve) (x1 y1 x2 y2 : Nat) : Nat :=
  if x1 = x2 then fpMul cv.p (fpMul cv.p 3 (fpSqr cv.p x1)) (fpInv cv.p (fpMul cv.p 2 y1))
  else fpMul cv.p (fpSub cv.p y2 y1) (fpInv cv.p (fpSub cv.p x2 x1))

/-- The third point of R25 from the slope. -/
def chordPoint (cv : Curve) (l x1 y1 x2 : Nat) : Point :=
  let x3 := fpSub cv.p (fpSub cv.p (fpSqr cv.p l) x1) x2
  .fin x3 (fpSub cv.p (fpMul cv.p l (fpSub cv.p x1 x3)) y1)

/-- PointAdd (R25). -/
def pointAdd (cv : Curve) : Point → Point → Point
  | .inf, q => q
  | .fin x1 y1, .inf => .fin x1 y1
  | .fin x1 y1, .fin x2 y2 =>
    if x1 = x2 ∧ fpAdd cv.p y1 y2 = 0 then .inf
    else chordPoint cv (slope cv x1 y1 x2 y2) x1 y1 x2

/-- PointDbl (R25). -/
def pointDbl (cv : Curve) (q : Point) : Point := pointAdd cv q q

/-- n doublings. -/
def pointDblTimes (cv : Curve) : Nat → Point → Point
  | 0, q => q
  | n + 1, q => pointDblTimes cv n (pointDbl cv q)

/-- k * P by repeated addition: the mathematical value (R26). -/
def pointMul (cv : Curve) : Nat → Point → Point
  | 0, _ => .inf
  | k + 1, q => pointAdd cv (pointMul cv k q) q

/-- ToAffine (R27). -/
def toAffine (cv : Curve) (x y z : Nat) : Point :=
  if z = 0 then .inf
  else .fin (fpMul cv.p x (fpInv cv.p (fpSqr cv.p z)))
    (fpMul cv.p y (fpInv cv.p (fpMul cv.p (fpSqr cv.p z) z)))

end Sys2Proof.Machine
end

