-- ==== Sys2Proof/Machine/Memory.lean ====
section
/-! DEFINITION. The named operations over OPRAM (00_scope.md R18, 20_memory.md R80, R86). -/

namespace Sys2Proof.Machine

/-- One byte of OPRAM: its value, or none where it is unwritten (20_memory.md R86). -/
def Memory.read : Memory → Nat → Option Byte
  | [], _ => none
  | (k, b) :: rest, a => if k = a then some b else Memory.read rest a

/-- Write one byte, keeping the addresses strictly rising. -/
def Memory.write : Memory → Nat → Byte → Memory
  | [], a, b => [(a, b)]
  | (k, c) :: rest, a, b =>
    if a < k then (a, b) :: (k, c) :: rest
    else if a = k then (a, b) :: rest
    else (k, c) :: Memory.write rest a b

/-- `MemWrite(addr, n, bytes)`: the bytes at ascending offsets from addr (R18). -/
def Memory.writeBytes : Memory → Nat → List Byte → Memory
  | m, _, [] => m
  | m, a, b :: bs => Memory.writeBytes (Memory.write m a b) (a + 1) bs

/-- The canonical form: addresses strictly rising, so that equal memories are equal lists. No entry can equal what an
unlisted address reads as, which is no value at all. -/
def Memory.wf : Memory → Bool
  | [] => true
  | [_] => true
  | (a, _) :: (b, y) :: rest => decide (a < b) && Memory.wf ((b, y) :: rest)

/-- Every listed address lies below the bound. -/
def Memory.below (m : Memory) (bound : Nat) : Bool := m.all (fun c => decide (c.1 < bound))

/-- Every byte of [a, a + n) is written. -/
def Memory.written (m : Memory) (a n : Nat) : Bool := (List.range n).all (fun i => (m.read (a + i)).isSome)

end Sys2Proof.Machine
end

