-- ==== Sys2Proof/Machine/Operands.lean ====
section
/-! DEFINITION. Operand forms: the regions of each command with their alignment, range and overlap checks
(20_memory.md R87 to R90), and the record formats read from and written to them (R91 to R95). -/

namespace Sys2Proof.Machine

/-- A region (base, len) of OPRAM: a 32-bit base and an unbounded length in bytes (R88). -/
structure Region where
  base : Nat
  len : Nat
deriving DecidableEq, Repr

/-- In range iff len = 0 or base + len <= OPRAM_BYTES, in unbounded integers (R88). -/
def Region.inRange (r : Region) (c : Config) : Bool := r.len == 0 || decide (r.base + r.len ≤ c.opramBytes)

/-- Two regions overlap (R89). -/
def Region.overlaps (r t : Region) : Bool :=
  decide (0 < r.len) && decide (0 < t.len) && decide (r.base < t.base + t.len) && decide (t.base < r.base + r.len)

/-- The base is a multiple of k (R87). -/
def Region.aligned (r : Region) (k : Nat) : Bool := r.base % k == 0

/-- The offset lies in the region. -/
def Region.contains (r : Region) (a : Nat) : Bool := decide (r.base ≤ a) && decide (a < r.base + r.len)

/-- The operand regions of a data command: input A, input B where the command has one, output D (R90). -/
structure Operands where
  a : Region
  b : Option Region
  d : Region
deriving DecidableEq, Repr

/-- DECOMPRESS: (A, 48) to (D, 128) (R90). -/
def decompressOperands (d a : Nat) : Operands := ⟨⟨a, 48⟩, none, ⟨d, 128⟩⟩

/-- COMPRESS: (A, 128) to (D, 48) (R90). -/
def compressOperands (d a : Nat) : Operands := ⟨⟨a, 128⟩, none, ⟨d, 48⟩⟩

/-- SCALAR_MUL: (A, 128), (B, 32) to (D, 128) (R90). -/
def scalarMulOperands (d a b : Nat) : Operands := ⟨⟨a, 128⟩, some ⟨b, 32⟩, ⟨d, 128⟩⟩

/-- BATCH_NORMALIZE: (A, 144 N) to (D, 128 N) (R90). -/
def batchOperands (d a n : Nat) : Operands := ⟨⟨a, 144 * n⟩, none, ⟨d, 128 * n⟩⟩

/-- MSM: (A, 128 N), (B, 32 M) to (D, 128) (R90). -/
def msmOperands (d a b n m : Nat) : Operands := ⟨⟨a, 128 * n⟩, some ⟨b, 32 * m⟩, ⟨d, 128⟩⟩

/-- The first failing check of a list in order, with the error it reports: 'the first that fails is the one
reported' (40_sequencer.md R142). -/
def firstFailing (checks : List (Bool × Error)) : Option Error := (checks.find? (·.1)).map (·.2)

/-- Steps 5 to 7 of DecodeCheck, each with its ERR_INFO: alignment of A (16), B (32), D (16), range of A, B, D,
overlap of A, B with the output (40_sequencer.md R142, 20_memory.md R87 to R90). -/
def operandChecks (c : Config) (o : Operands) : List (Bool × Error) :=
  [(!o.a.aligned 16, ⟨.misaligned, 1⟩),
   (o.b.any (fun r => !r.aligned 32), ⟨.misaligned, 2⟩),
   (!o.d.aligned 16, ⟨.misaligned, 3⟩),
   (!o.a.inRange c, ⟨.outOfRange, 1⟩),
   (o.b.any (fun r => !r.inRange c), ⟨.outOfRange, 2⟩),
   (!o.d.inRange c, ⟨.outOfRange, 3⟩),
   (o.a.overlaps o.d, ⟨.overlap, 1⟩),
   (o.b.any (fun r => r.overlaps o.d), ⟨.overlap, 2⟩)]

/-- The error of steps 5 to 7 of DecodeCheck, if any (R142). -/
def operandError (c : Config) (o : Operands) : Option Error := firstFailing (operandChecks c o)

/-- CompressedPoint record: the 384-bit value C of 48 bytes (R91). -/
def compressedValue (bs : List Byte) : Nat := beInt (byteSlice bs 0 48)

/-- Affine record, field X: bytes 0 to 47, big-endian (R82, R92). -/
def affineX (bs : List Byte) : Nat := beInt (byteSlice bs 0 48)

/-- Affine record, field Y: bytes 48 to 95 (R92). -/
def affineY (bs : List Byte) : Nat := beInt (byteSlice bs 48 48)

/-- Affine record, field INF: byte 96 (R92). -/
def affineInf (bs : List Byte) : Nat := beInt (byteSlice bs 96 1)

/-- An affine record is canonical (R92). -/
def affineCanonical (p : Nat) (bs : List Byte) : Bool :=
  affineInf bs == 1 || (affineInf bs == 0 && decide (affineX bs < p) && decide (affineY bs < p))

/-- AffVal: the value of an affine record (R92). -/
def affineValue (bs : List Byte) : Point :=
  if affineInf bs = 1 then .inf else .fin (affineX bs) (affineY bs)

/-- The point satisfies the curve equation or is O: the second operand check of COMPRESS, SCALAR_MUL and MSM
(41_codec.md R166, 42_scalar_mul.md R180, 44_msm.md R200). -/
def pointValid (cv : Curve) : Point → Bool
  | .inf => true
  | .fin x y => onCurve cv x y

/-- The point of a valid affine record, or the error its element index i reports: NOT_CANONICAL before NOT_ON_CURVE
(R92, 60_exceptions.md R224). -/
def readAffine (cv : Curve) (i : Nat) (bs : List Byte) : Except Error Point :=
  if affineCanonical cv.p bs = false then .error ⟨.notCanonical, i⟩
  else if pointValid cv (affineValue bs) = false then .error ⟨.notOnCurve, i⟩
  else .ok (affineValue bs)

/-- AffBytes(P): the record the engine writes (R92). -/
def affBytes : Point → List Byte
  | .inf => zeroBytes 96 ++ [1] ++ zeroBytes 31
  | .fin x y => beBytes 48 x ++ beBytes 48 y ++ [0] ++ zeroBytes 31

/-- Jacobian record, coordinate k = 0 (X), 1 (Y), 2 (Z): bytes 48k to 48k + 47, big-endian (R93). -/
def jacobianCoord (bs : List Byte) (k : Nat) : Nat := beInt (byteSlice bs (48 * k) 48)

/-- A Jacobian triple (X, Y, Z) (00_scope.md R27). -/
structure Jacobian where
  x : Nat
  y : Nat
  z : Nat
deriving DecidableEq, Repr

/-- The triple of a canonical Jacobian record, or NOT_CANONICAL with the element index (R93). -/
def readJacobian (p i : Nat) (bs : List Byte) : Except Error Jacobian :=
  if jacobianCoord bs 0 < p ∧ jacobianCoord bs 1 < p ∧ jacobianCoord bs 2 < p then
    .ok ⟨jacobianCoord bs 0, jacobianCoord bs 1, jacobianCoord bs 2⟩
  else .error ⟨.notCanonical, i⟩

/-- The scan value of a scalar record: bits 254 to 0 of the little-endian integer; bit 255 is never read
(00_scope.md R28, 20_memory.md R94). -/
def scan (bs : List Byte) : Nat := leInt (byteSlice bs 0 32) % 2 ^ 255

/-- Element i of an array of records of the given size (R95). -/
def element (bs : List Byte) (size i : Nat) : List Byte := byteSlice bs (size * i) size

/-- The values of a list of reads, or the error of the first that fails. -/
def collect {α : Type} : List (Except Error α) → Except Error (List α)
  | [] => .ok []
  | .error e :: _ => .error e
  | .ok x :: rest => (collect rest).map (fun xs => x :: xs)

/-- The elements 0 to n - 1 of an array of records in index order, or the error of the first bad one (R95,
60_exceptions.md R224). -/
def readElements {α : Type} (n size : Nat) (bs : List Byte) (read : Nat → List Byte → Except Error α) :
    Except Error (List α) :=
  collect ((List.range n).map (fun i => read i (element bs size i)))

/-- The N points of an affine array (44_msm.md R200). -/
def readPoints (cv : Curve) (n : Nat) (bs : List Byte) : Except Error (List Point) :=
  readElements n 128 bs (readAffine cv)

/-- The N triples of a Jacobian array (43_batch_normalize.md R190). -/
def readJacobians (p n : Nat) (bs : List Byte) : Except Error (List Jacobian) :=
  readElements n 144 bs (readJacobian p)

/-- The scan values of a scalar array (44_msm.md R200). -/
def readScalars (n : Nat) (bs : List Byte) : List Nat := (List.range n).map (fun i => scan (element bs 32 i))

end Sys2Proof.Machine
end

