-- ==== Sys2Proof/Machine/Ops.lean ====
section
/-! DEFINITION. The shared operations over the state: raising an error and the return from one, retiring a descriptor,
engine reads of OPRAM, the in-flight record and its commit, resets (40_sequencer.md, 60_exceptions.md,
70_reset_and_hazards.md). -/

namespace Sys2Proof.Machine

/-- `raise Error(code, info)`: save the cause, the failing descriptor's address and the detail, set ERROR, clear BUSY,
go IDLE; pc, CMD_COUNT, MSM_LAST_W, MSM_WINDOW_CFG and OPRAM are not changed (60_exceptions.md R222, R227). -/
def State.raiseError (s : State) (e : Error) : State :=
  { s with
    errCode := e.code
    errPtr := s.cmdPtr
    errInfo := BitVec.ofNat 32 e.info
    error := true
    phase := .idle }

/-- START while idle: clear the flags, the error registers and CMD_COUNT, set BUSY (10_state.md R48). It is also the
return from an error: with CMD_PTR unchanged the run resumes at the failing descriptor (60_exceptions.md R228). -/
def State.start (s : State) : State :=
  { s with
    done := false
    error := false
    errCode := .none
    errPtr := 0
    errInfo := 0
    cmdCount := 0
    phase := .ready }

/-- The scratch takes a free value: 'their value after a command is unspecified', after every command, whether it used
the scratch or not (10_state.md R63, 92_eei_decisions.md D47; log 9). -/
def State.scrambleScratch (s : State) : State :=
  { s with scratch := Config.freeScratch s.draws, draws := s.draws + 1 }

/-- Retire(): pc + 32 and CMD_COUNT + 1, each modulo 2^32 (40_sequencer.md R140, 10_state.md R59). -/
def State.retire (s : State) : State :=
  { s with cmdPtr := s.cmdPtr + 32, cmdCount := s.cmdCount + 1 }

/-- DoHalt(): retire, BUSY <- 0, DONE <- 1 (40_sequencer.md R144). -/
def State.halt (s : State) : State :=
  { s.retire with done := true, phase := .idle }

/-- The byte an engine read or a host read of offset a takes from OPRAM in draw k: its value, or the draw where it is
unwritten (20_memory.md R86). -/
def State.byteAt (s : State) (k a : Nat) : Byte := (s.opram.read a).getD (Config.freeByte k a)

/-- `MemRead(addr, n)` in draw k (00_scope.md R18). -/
def State.readRegion (s : State) (k : Nat) (r : Region) : List Byte :=
  (List.range r.len).map (fun i => s.byteAt k (r.base + i))

/-- Every byte of the region is written. -/
def State.regionWritten (s : State) (r : Region) : Bool := s.opram.written r.base r.len

/-- The mark of an engine read: UNWRITTEN_READ is added if a byte of the regions is unwritten, and the draws the read
took are used up (20_memory.md R86, 10_state.md R64; log 5, log 7). -/
def State.markRead (s : State) (rs : List Region) : State :=
  if rs.all s.regionWritten then s
  else { s with mfault := { s.mfault with unwrittenRead := true }, draws := s.draws + rs.length }

/-- The input regions of a data command. -/
def Operands.inputs (o : Operands) : List Region := o.a :: o.b.toList

/-- Go INFLIGHT with the result computed: hs.INFLIGHT <- (pc, regions, outbytes) (40_sequencer.md R140). -/
def State.launch (s : State) (d : Nat) (out : List Byte) : State :=
  { s with phase := .inflight ⟨s.cmdPtr, [⟨d, out⟩]⟩ }

/-- The common frame of a data command: the operand checks (R142 steps 5 to 7), the read of all input regions at once
(20_memory.md R96), the computation, then the error it raises or the launch of its result. `pass` is what a command
that passed its checks writes besides (MSM_LAST_W). -/
def State.runCommand (s : State) (o : Operands) (pass : State → State)
    (compute : List Byte → List Byte → Except Error (List Byte)) : State :=
  match operandError s.cfg o with
  | some e => s.raiseError e
  | none =>
    match compute (s.readRegion s.draws o.a) (s.readRegion (s.draws + 1) (o.b.getD ⟨0, 0⟩)) with
    | .error e => (s.markRead o.inputs).raiseError e
    | .ok out => (pass (s.markRead o.inputs)).launch o.d.base out

/-- Write the output regions of an in-flight command (40_sequencer.md R146). -/
def Memory.writeOutputs : Memory → List Output → Memory
  | m, [] => m
  | m, o :: rest => Memory.writeOutputs (m.writeBytes o.base o.bytes) rest

/-- CommitStep(): write the outputs, retire, drop the record, go READY; it cannot raise an error (R146). The command
ends here, so its scratch is unspecified afterwards (10_state.md R63; log 9). -/
def State.commit (s : State) (r : Inflight) : State :=
  { s.scrambleScratch.retire with opram := s.opram.writeOutputs r.outputs, phase := .ready }

/-- The output region a record will write (10_state.md R62). -/
def Output.region (o : Output) : Region := ⟨o.base, o.bytes.length⟩

/-- The output regions in flight; none unless the phase is INFLIGHT (R62). -/
def State.inflightOutputs (s : State) : List Output :=
  match s.phase with
  | .inflight r => r.outputs
  | .idle => []
  | .ready => []

/-- The same output region with any value in every byte: a draw per byte (70_reset_and_hazards.md R253). -/
def Output.scrambled (k : Nat) (o : Output) : Output :=
  ⟨o.base, (List.range o.bytes.length).map (fun i => Config.freeByte k (o.base + i))⟩

/-- OPRAM after an abort: every byte of the in-flight output regions holds any value; nothing changes in phase READY
or IDLE (R253). -/
def State.abortedOpram (s : State) : Memory :=
  s.opram.writeOutputs (s.inflightOutputs.map (Output.scrambled s.draws))

/-- Soft reset: every CSR takes its reset value, the run is aborted, OPRAM is kept but for the in-flight outputs
(70_reset_and_hazards.md R252, R253). CTRL.IRQ_EN is then written by the CTRL write that asked for it (10_state.md
R47). The scratch, which R253 calls released by an abort and whose reset value R63 leaves unspecified, takes a free
value, whether a command was in progress or not (DESIGN CHOICE, log 9). -/
def State.softReset (s : State) : State :=
  { s with
    irqEn := false
    done := false
    error := false
    cmdPtr := 0
    cmdCount := 0
    errCode := .none
    errPtr := 0
    errInfo := 0
    window := 0
    lastW := 0
    phase := .idle
    scratch := Config.freeScratch s.draws
    opram := s.abortedOpram
    draws := s.draws + 1 }

/-- Power-on reset at any time: every register at its reset value, every OPRAM byte unwritten, the command in progress
abandoned; hs.MFAULT is not cleared (70_reset_and_hazards.md R250, R251). The build parameters, the turns still to
come and the host's own replies are no state of the block (log 21). -/
def State.powerOn (s : State) : State :=
  { State.reset with
    cfg := s.cfg
    scratch := Config.freeScratch s.draws
    mfault := s.mfault
    draws := s.draws + 1
    agenda := s.agenda
    replies := s.replies }

end Sys2Proof.Machine
end

