-- ==== Sys2Proof/Machine/BatchNormalize.lean ====
section
/-! DEFINITION. The batch Jacobian-to-affine converter and the meaning of BATCH_NORMALIZE (43_batch_normalize.md R190 to
R195). -/

namespace Sys2Proof.Machine

/-- The loop of R192 over the nonzero factors f_0 .. f_(m-1), `acc` being the running product before the list: on the
way down the running products hs.C, at the end the only inversion u, on the way up zinv = u * hs.C[t-1] and
u <- u * Z. It answers the inverses of the factors and u = the inverse of `acc`. -/
def shareInversion (p : Nat) : Nat → List Nat → List Nat × Nat
  | acc, [] => ([], fpInv p acc)
  | acc, z :: rest =>
    let below := shareInversion p (fpMul p acc z) rest
    (fpMul p below.2 acc :: below.1, fpMul p below.2 z)

/-- The inverses of the nonzero factors, by one inversion if there is any factor and none otherwise: the first factor
starts the running product and its own inverse is the final u (R192, R193). -/
def batchInverses (p : Nat) : List Nat → List Nat
  | [] => []
  | z :: rest =>
    let below := shareInversion p z rest
    below.2 :: below.1

/-- The affine point of a triple with Z != 0, from the inverse of Z (R192). -/
def affineFromInverse (p : Nat) (j : Jacobian) (zinv : Nat) : Point :=
  let z2 := fpSqr p zinv
  .fin (fpMul p j.x z2) (fpMul p j.y (fpMul p z2 zinv))

/-- Hand the inverses back to the records in order: O for Z = 0 (R192). -/
def placeInverses (p : Nat) : List Jacobian → List Nat → List Point
  | [], _ => []
  | j :: js, invs =>
    if j.z = 0 then .inf :: placeInverses p js invs
    else affineFromInverse p j (invs.headD 0) :: placeInverses p js invs.tail

/-- SharedInversion(X, Y, Z, N) (R192). -/
def sharedInversion (p : Nat) (js : List Jacobian) : List Point :=
  placeInverses p js (batchInverses p ((js.map (·.z)).filter (fun z => z != 0)))

/-- The number of field inversions a batch takes: one if some Z is nonzero, else none (R193). -/
def batchInversions (js : List Jacobian) : Nat := if js.all (fun j => j.z == 0) then 0 else 1

/-- Execute(BATCH_NORMALIZE): the output array, or NOT_CANONICAL with the lowest bad index; no curve check (R190). -/
def batchBytes (cv : Curve) (n : Nat) (records : List Byte) : Except Error (List Byte) :=
  (readJacobians cv.p n records).map (fun js => ((sharedInversion cv.p js).map affBytes).flatten)

/-- BATCH_NORMALIZE D, A, N (R190). -/
def execBatchNormalize (d a n : Nat) (s : State) : Host.Outcome State Fault Refusal :=
  .next (s.scrambleScratch.runCommand (batchOperands d a n) id (fun records _ => batchBytes s.cfg.curve n records))

end Sys2Proof.Machine
end

