-- ==== Sys2Proof/Machine/Codec.lean ====
section
/-! DEFINITION. The point codec and the meanings of DECOMPRESS and COMPRESS (41_codec.md R160 to R169). -/

namespace Sys2Proof.Machine

/-- The canonical root of t with the sign s, where t has the root c: c or p - c (41_codec.md R163). -/
def selectRoot (p c s : Nat) : Nat := if sgn p c = s then c else fpNeg p c

/-- Decode(C) for a 384-bit C (R161, R162, R163): reason 1 the compression flag is clear, 2 a non-canonical infinity,
3 x >= p, 4 no square root (or only the root 0 with the sign flag set). -/
def decodePoint (cv : Curve) (c : Nat) : Except Error Point :=
  if bitSlice c 383 383 = 0 then .error ⟨.decodeError, 1⟩
  else if bitSlice c 382 382 = 1 then
    if bitSlice c 381 381 = 1 ∨ bitSlice c 380 0 ≠ 0 then .error ⟨.decodeError, 2⟩ else .ok .inf
  else if cv.p ≤ bitSlice c 380 0 then .error ⟨.decodeError, 3⟩
  else
    let x := bitSlice c 380 0
    let t := curveRhs cv x
    let y := selectRoot cv.p (fpRoot cv.p t) (bitSlice c 381 381)
    if fpIsSquare cv.p t = false ∨ sgn cv.p y ≠ bitSlice c 381 381 then .error ⟨.decodeError, 4⟩
    else .ok (.fin x y)

/-- Encode(P) as a 384-bit value (R167). -/
def encodePoint (cv : Curve) : Point → Nat
  | .inf => 2 ^ 383 + 2 ^ 382
  | .fin x y => 2 ^ 383 + sgn cv.p y * 2 ^ 381 + x

/-- Execute(DECOMPRESS): the output bytes, or DECODE_ERROR (R160). -/
def decompressBytes (cv : Curve) (rec : List Byte) : Except Error (List Byte) :=
  (decodePoint cv (compressedValue rec)).map affBytes

/-- Execute(COMPRESS): the output bytes, or NOT_CANONICAL or NOT_ON_CURVE with element index 0 (R166). -/
def compressBytes (cv : Curve) (rec : List Byte) : Except Error (List Byte) :=
  (readAffine cv 0 rec).map (fun q => beBytes 48 (encodePoint cv q))

/-- DECOMPRESS D, A (R160). -/
def execDecompress (d a : Nat) (s : State) : Host.Outcome State Fault Refusal :=
  .next (s.scrambleScratch.runCommand (decompressOperands d a) id (fun rec _ => decompressBytes s.cfg.curve rec))

/-- COMPRESS D, A (R166). -/
def execCompress (d a : Nat) (s : State) : Host.Outcome State Fault Refusal :=
  .next (s.scrambleScratch.runCommand (compressOperands d a) id (fun rec _ => compressBytes s.cfg.curve rec))

end Sys2Proof.Machine
end

