-- ==== Sys2Proof/Machine/Msm.lean ====
section
/-! DEFINITION. The multi-scalar multiplication engine and the meaning of MSM (44_msm.md R200 to R210). -/

namespace Sys2Proof.Machine

/-- W_AUTO(n) (00_scope.md R12). -/
def wAuto (wmax n : Nat) : Nat := if n < 16 then 1 else min wmax (Nat.log2 n - 2)

/-- EffectiveWindow(WIN, CFG, N) (44_msm.md R203). -/
def effectiveWindow (wmax win cfg n : Nat) : Nat :=
  if win ≠ 0 then win else if cfg ≠ 0 then cfg else wAuto wmax n

/-- npos = ceil(255 / w) (R204). -/
def digitPositions (w : Nat) : Nat := (255 + w - 1) / w

/-- The digit of a scan value at position j, window w: unsigned, never recoded (R204). -/
def digit (k w j : Nat) : Nat := k / 2 ^ (j * w) % 2 ^ w

/-- Bucket accumulation at position j: each point is added into the bucket of its digit, the zero digit skipped
(R205, R207). Bucket k of the spec is entry k - 1 of the list. -/
def accumulate (cv : Curve) (w j : Nat) : List (Point × Nat) → List Point → List Point
  | [], bs => bs
  | (q, k) :: rest, bs =>
    accumulate cv w j rest
      (if digit k w j = 0 then bs else bs.modify (digit k w j - 1) (fun t => pointAdd cv t q))

/-- The weighted suffix sum over the buckets, from the highest index down: RUN, then WSUM (R205). -/
def suffixSum (cv : Curve) : List Point → Point × Point
  | [] => (.inf, .inf)
  | b :: rest =>
    let above := suffixSum cv rest
    (pointAdd cv above.1 b, pointAdd cv above.2 (pointAdd cv above.1 b))

/-- WSUM of digit position j, from 2^w - 1 empty buckets (R205). -/
def positionSum (cv : Curve) (w j : Nat) (items : List (Point × Nat)) : Point :=
  (suffixSum cv (accumulate cv w j items (List.replicate (2 ^ w - 1) .inf))).2

/-- The positions j - 1 downto 0: w doublings of ACC, then the position's sum (R205). -/
def bucketPositions (cv : Curve) (w : Nat) (items : List (Point × Nat)) : Nat → Point → Point
  | 0, acc => acc
  | j + 1, acc =>
    bucketPositions cv w items j (pointAdd cv (pointDblTimes cv w acc) (positionSum cv w j items))

/-- The bucket algorithm over all digit positions, most significant first (R205). -/
def bucketMsm (cv : Curve) (w : Nat) (items : List (Point × Nat)) : Point :=
  bucketPositions cv w items (digitPositions w) .inf

/-- The value of an MSM: the sum of scan(s_i) * P_i, the empty sum being O (R202). -/
def msmSum (cv : Curve) : List (Point × Nat) → Point
  | [] => .inf
  | (q, k) :: rest => pointAdd cv (pointMul cv k q) (msmSum cv rest)

/-- The window width an MSM descriptor runs with in a state (R203). -/
def State.msmWindow (s : State) (n win : Nat) : Nat := effectiveWindow s.cfg.wmax win s.window.toNat n

/-- Steps 3 and 4 of DecodeCheck: BAD_WINDOW with ERR_INFO = WIN, then LENGTH_MISMATCH (40_sequencer.md R142,
30_encoding.md R128, 44_msm.md R201). -/
def msmError (c : Config) (n m win : Nat) : Option Error :=
  firstFailing [(decide (c.wmax < win), ⟨.badWindow, win⟩), (n != m, ⟨.lengthMismatch, 0⟩)]

/-- Execute(MSM): the output bytes, or the first NOT_CANONICAL or NOT_ON_CURVE in index order; no error depends on a
scalar (R200). -/
def msmBytes (cv : Curve) (w n : Nat) (points scalars : List Byte) : Except Error (List Byte) :=
  (readPoints cv n points).map (fun qs => affBytes (bucketMsm cv w (qs.zip (readScalars n scalars))))

/-- MSM D, A, B, N, M, WIN (R200): an MSM that passes its checks writes MSM_LAST_W (10_state.md R55). -/
def execMsm (d a b n m win : Nat) (s : State) : Host.Outcome State Fault Refusal :=
  .next
    (match msmError s.cfg n m win with
    | some e => s.scrambleScratch.raiseError e
    | none =>
      s.scrambleScratch.runCommand (msmOperands d a b n m)
        (fun t => { t with lastW := BitVec.ofNat 4 (s.msmWindow n win) })
        (msmBytes s.cfg.curve (s.msmWindow n win) n))

end Sys2Proof.Machine
end

