-- ==== Sys2Proof/Machine/ScalarMul.lean ====
section
/-! DEFINITION. The scalar multiplier and the meaning of SCALAR_MUL (42_scalar_mul.md R180 to R186). -/

namespace Sys2Proof.Machine

/-- The table hs.T of the multiples 0 * P to (n-1) * P, built by repeated addition (R182). -/
def multiplesFrom (cv : Curve) (q : Point) : Nat → Point → List Point
  | 0, _ => []
  | n + 1, t => t :: multiplesFrom cv q n (pointAdd cv t q)

/-- hs.T[0 .. 2^SMUL_W - 1] (R182). -/
def smulTable (cv : Curve) (q : Point) : List Point := multiplesFrom cv q (2 ^ Config.smulW) .inf

/-- The window loop of R182 from window j - 1 downto 0: SMUL_W doublings, then the table entry of the window's digit is
added, O for digit 0: the same structure for every scalar. -/
def smulWindows (cv : Curve) (table : List Point) (k : Nat) : Nat → Point → Point
  | 0, acc => acc
  | j + 1, acc =>
    smulWindows cv table k j
      (pointAdd cv (pointDblTimes cv Config.smulW acc)
        (table.getD (bitSlice k (Config.smulW * j + Config.smulW - 1) (Config.smulW * j)) .inf))

/-- The fixed-window multiplier: 64 windows over bits 255 to 0 (R182). -/
def scalarMul (cv : Curve) (k : Nat) (q : Point) : Point := smulWindows cv (smulTable cv q) k 64 .inf

/-- The document's bitwise double-and-add, bits i - 1 downto 0, equal in value to `scalarMul` (R183). -/
def doubleAndAdd (cv : Curve) (k : Nat) (q : Point) : Nat → Point → Point
  | 0, acc => acc
  | i + 1, acc =>
    let dbl := pointDbl cv acc
    doubleAndAdd cv k q i (if bitSlice k i i = 1 then pointAdd cv dbl q else dbl)

/-- Execute(SCALAR_MUL): the output bytes, or NOT_CANONICAL or NOT_ON_CURVE with element index 0; no error depends on
the scalar (R180). -/
def scalarMulBytes (cv : Curve) (rec scalar : List Byte) : Except Error (List Byte) :=
  (readAffine cv 0 rec).map (fun q => affBytes (scalarMul cv (scan scalar) q))

/-- SCALAR_MUL D, A, B (R180). -/
def execScalarMul (d a b : Nat) (s : State) : Host.Outcome State Fault Refusal :=
  .next (s.scrambleScratch.runCommand (scalarMulOperands d a b) id (scalarMulBytes s.cfg.curve))

end Sys2Proof.Machine
end

