-- ==== Sys2Proof/Machine/Sequencer.lean ====
section
/-! DEFINITION. The meanings of HALT and NOP (40_sequencer.md R144, R145). -/

namespace Sys2Proof.Machine

/-- HALT: stop the run with success (R144); the scratch is unspecified after it as after every command (log 9). -/
def execHalt (s : State) : Host.Outcome State Fault Refusal := .next s.scrambleScratch.halt

/-- NOP: retire (R145); the scratch is unspecified after it as after every command (log 9). -/
def execNop (s : State) : Host.Outcome State Fault Refusal := .next s.scrambleScratch.retire

end Sys2Proof.Machine
end

