-- ==== Sys2Proof/Machine/Dispatch.lean ====
section
/-! DEFINITION. One arm per command of the opcode map (30_encoding.md R125). -/

namespace Sys2Proof.Machine

def exec (i : Instr) (s : State) : Host.Outcome State Fault Refusal :=
  match i with
  | .halt => Sys2Proof.Machine.execHalt s
  | .nop => Sys2Proof.Machine.execNop s
  | .decompress d a => Sys2Proof.Machine.execDecompress d a s
  | .compress d a => Sys2Proof.Machine.execCompress d a s
  | .scalarMul d a b => Sys2Proof.Machine.execScalarMul d a b s
  | .batchNormalize d a n => Sys2Proof.Machine.execBatchNormalize d a n s
  | .msm d a b n m win => Sys2Proof.Machine.execMsm d a b n m win s

end Sys2Proof.Machine
end

