-- ==== Sys2Proof/Machine/Engine.lean ====
section
/-! DEFINITION. The engine's step: fetch, decode, execute; commit (40_sequencer.md R140 to R146). -/

namespace Sys2Proof.Machine

/-- The region of the descriptor at pc (30_encoding.md R120). -/
def State.descriptorRegion (s : State) : Region := ⟨s.cmdPtr.toNat, 32⟩

/-- FetchCheck: pc a multiple of 32, then the descriptor within OPRAM, in unbounded arithmetic; ERR_INFO 0 names the
descriptor pointer (40_sequencer.md R141). -/
def State.fetchError (s : State) : Option Error :=
  firstFailing
    [(!s.descriptorRegion.aligned 32, ⟨.misaligned, 0⟩),
     (!s.descriptorRegion.inRange s.cfg, ⟨.outOfRange, 0⟩)]

/-- The descriptor the engine fetches at pc (R140). -/
def State.fetchedDescriptor (s : State) : Descriptor := Descriptor.ofBytes (s.readRegion s.draws s.descriptorRegion)

/-- The hardware error of a descriptor the decoder rejects (R142 steps 1 and 2, 60_exceptions.md R221). -/
def decodeErrorReport : DecodeError → Error
  | .illegalOpcode op => ⟨.illegalOpcode, op⟩
  | .reservedNonzero k => ⟨.reservedNonzero, k⟩

/-- ReadyStep (R140): fetch check, fetch, decode, then the command's own checks and execution. -/
def readyStep (s : State) : Host.Outcome State Fault Refusal :=
  match s.fetchError with
  | some e => .next (s.raiseError e)
  | none =>
    match decode s.fetchedDescriptor with
    | .error e => .next ((s.markRead [s.descriptorRegion]).raiseError (decodeErrorReport e))
    | .ok i => exec i (s.markRead [s.descriptorRegion])

/-- One turn of the engine: a READY step, or the commit of the command in flight (R140, R146). An idle engine performs
no step: nothing changes (60_exceptions.md R238; log 3). -/
def engineStep (s : State) : Host.Outcome State Fault Refusal :=
  match s.phase with
  | .idle => .next s
  | .ready => readyStep s
  | .inflight r => .next (s.commit r)

end Sys2Proof.Machine
end

