-- ==== Sys2Proof/Machine/HostPort.lean ====
section
/-! DEFINITION. The host's two ports: the CSR map and the OPRAM port (10_state.md R42 to R57, 20_memory.md R85, R97 to
R100, R104, 70_reset_and_hazards.md R260 to R262). -/

namespace Sys2Proof.Machine

/-- The registers of the CSR map (10_state.md R43). -/
inductive Csr where
  | id | version | caps | ctrl | status | cmdPtr | cmdCount | errCode | errPtr | errInfo | msmWindowCfg | msmLastW
deriving DecidableEq, Repr

/-- The register at a CSR offset; none at the reserved offsets (R43, R57). -/
def csrAt (off : Nat) : Option Csr :=
  if off = 0x000 then some .id
  else if off = 0x004 then some .version
  else if off = 0x008 then some .caps
  else if off = 0x00C then some .ctrl
  else if off = 0x010 then some .status
  else if off = 0x014 then some .cmdPtr
  else if off = 0x018 then some .cmdCount
  else if off = 0x01C then some .errCode
  else if off = 0x020 then some .errPtr
  else if off = 0x024 then some .errInfo
  else if off = 0x028 then some .msmWindowCfg
  else if off = 0x02C then some .msmLastW
  else none

/-- The numeric error codes (60_exceptions.md R221). -/
def ErrCode.value : ErrCode → Nat
  | .none => 0x00
  | .illegalOpcode => 0x01
  | .reservedNonzero => 0x02
  | .badWindow => 0x03
  | .lengthMismatch => 0x04
  | .misaligned => 0x05
  | .outOfRange => 0x06
  | .overlap => 0x07
  | .notCanonical => 0x08
  | .notOnCurve => 0x09
  | .decodeError => 0x0A

/-- CAPS: WMAX [3:0], SMUL_W [7:4], OPRAM_LOG2 [12:8] (R46). -/
def capsWord (c : Config) : Word := BitVec.ofNat 32 (c.wmax % 16 + 16 * Config.smulW + 256 * (c.opramLog2 % 32))

/-- The value a host read of a register returns; reads have no side effect (R44 to R57). -/
def State.csrValue (s : State) : Csr → Word
  | .id => 0x4D534D31
  | .version => 0x00010000
  | .caps => capsWord s.cfg
  | .ctrl => s.ctrlWord
  | .status => s.statusWord
  | .cmdPtr => s.cmdPtr
  | .cmdCount => s.cmdCount
  | .errCode => BitVec.ofNat 32 s.errCode.value
  | .errPtr => s.errPtr
  | .errInfo => s.errInfo
  | .msmWindowCfg => s.window.setWidth 32
  | .msmLastW => s.lastW.setWidth 32

/-- The value of a CSR offset: reserved offsets read as zero (R57). -/
def State.csrRead (s : State) (off : Nat) : Word :=
  match csrAt off with
  | some r => s.csrValue r
  | none => 0

/-- A write to CTRL: SOFT_RESET (bit 1) first, then IRQ_EN takes the written bit 2; START (bit 0) acts only without
SOFT_RESET and while idle (R47, R48, R49). -/
def State.writeCtrl (s : State) (v : Word) : State :=
  if v.getLsbD 1 then { s.softReset with irqEn := v.getLsbD 2 }
  else if v.getLsbD 0 && !s.busy then { s.start with irqEn := v.getLsbD 2 }
  else { s with irqEn := v.getLsbD 2 }

/-- A write to CMD_PTR: all 32 bits, ignored while BUSY (R52). -/
def State.writeCmdPtr (s : State) (v : Word) : State := if s.busy then s else { s with cmdPtr := v }

/-- A write to MSM_WINDOW_CFG: bits [3:0], ignored entirely while BUSY or if they exceed WMAX (R56). -/
def State.writeWindow (s : State) (v : Word) : State :=
  if s.busy || decide (s.cfg.wmax < (v.setWidth 4).toNat) then s else { s with window := v.setWidth 4 }

/-- A write to a register; read-only registers ignore it (R43). -/
def State.csrWriteTo (s : State) (v : Word) : Csr → State
  | .ctrl => s.writeCtrl v
  | .status => s.clearStatus v
  | .cmdPtr => s.writeCmdPtr v
  | .msmWindowCfg => s.writeWindow v
  | .id => s
  | .version => s
  | .caps => s
  | .cmdCount => s
  | .errCode => s
  | .errPtr => s
  | .errInfo => s
  | .msmLastW => s

/-- A write to a CSR offset: reserved offsets ignore it (R57). -/
def State.csrWrite (s : State) (off : Nat) (v : Word) : State :=
  match csrAt off with
  | some r => s.csrWriteTo v r
  | none => s

/-- The number of bytes of a host access (20_memory.md R97). -/
def Width.bytes : Width → Nat
  | .b1 => 1
  | .b2 => 2
  | .b4 => 4
  | .b8 => 8

/-- The byte a host read of offset a returns: zero at or beyond OPRAM_BYTES (R98), any value inside an output region in
flight (R104), the stored byte otherwise, any value where it is unwritten (R86). -/
def State.hostByte (s : State) (a : Nat) : Byte :=
  if s.cfg.opramBytes ≤ a then 0
  else if s.inflightOutputs.any (fun o => o.region.contains a) then Config.freeByte s.draws a
  else s.byteAt s.draws a

/-- A host read of n bytes, byte a on lanes [7:0], a + 1 on [15:8], and so on (R85); a misaligned one reads its bytes
one by one in ascending order (R98). -/
def State.opramValue (s : State) (w : Width) (a : Nat) : BitVec 64 :=
  BitVec.ofNat 64 (leInt ((List.range w.bytes).map (fun i => s.hostByte (a + i))))

/-- The bytes of a host write in ascending order, those at or beyond OPRAM_BYTES dropped (R85, R98). -/
def hostStore (bound : Nat) : Memory → Nat → List Byte → Memory
  | m, _, [] => m
  | m, a, b :: bs => hostStore bound (if a < bound then m.write a b else m) (a + 1) bs

/-- A host write of n bytes to OPRAM. While BUSY it is a hazard: HOST_WRITE_WHILE_BUSY is added to hs.MFAULT at the
write, unless every byte of it is dropped (70_reset_and_hazards.md R260, 20_memory.md R98; log 11). -/
def State.opramStore (s : State) (w : Width) (a : Nat) (v : BitVec 64) : State :=
  { s with
    opram := hostStore s.cfg.opramBytes s.opram a (leBytes w.bytes v.toNat)
    mfault := { s.mfault with
      hostWriteWhileBusy := s.mfault.hostWriteWhileBusy || (s.busy && decide (a < s.cfg.opramBytes)) } }

/-- The CSR accesses the port supports: 32-bit, 4-byte aligned, within the 4 KiB (20_memory.md R99, 10_state.md R42). -/
def csrShape (w : Width) (off : Nat) : Bool := decide (w = .b4) && off % 4 == 0 && decide (off < 0x1000)

/-- One host access, in the order the block receives them (20_memory.md R105). -/
def hostStep (h : HostAccess) (s : State) : Host.Outcome State Fault Refusal :=
  match h with
  | .csrRead w off =>
    if csrShape w off then .next { s with replies := .csr (s.csrRead off) :: s.replies } else .refused .csrAccessShape
  | .csrWrite w off v => if csrShape w off then .next (s.csrWrite off v) else .refused .csrAccessShape
  | .opramRead w a => .next { s with replies := .opram (s.opramValue w a) :: s.replies, draws := s.draws + 1 }
  | .opramWrite w a v => .next (s.opramStore w a v)

/-- The host's physical address of OPRAM byte a (20_memory.md R81). -/
def hostAddress (a : Nat) : Nat := Config.opramBase + a

/-- The host's physical address of a CSR offset (00_scope.md R13). -/
def csrAddress (off : Nat) : Nat := Config.csrBase + off

end Sys2Proof.Machine
end

