-- ==== Sys2Proof/Machine/Turn.lean ====
section
/-! DEFINITION. Whose turn it is: the engine's, the host's or the reset input's (10_state.md R41); the fault of a marked
state; the load that `State.withFetchWord` stands for. -/

namespace Sys2Proof.Machine

/-- The fault of a marked state, in which the spec predicts nothing (10_state.md R64, 93_implementation_defined.md U23). -/
def MFault.fault (m : MFault) : Option Fault :=
  if m.hostWriteWhileBusy then some .hostWriteWhileBusy
  else if m.unwrittenRead then some .unwrittenRead
  else Option.none

/-- The turn at the head of the agenda, taken with the rest of the agenda to come; the engine's where it is empty
(log 2). -/
def takeTurn (s : State) : List Turn → Host.Outcome State Fault Refusal
  | [] => engineStep s
  | .engine :: rest => engineStep { s with agenda := rest }
  | .host h :: rest => hostStep h { s with agenda := rest }
  | .powerOn :: rest => .next { s with agenda := rest }.powerOn

/-- One step of the block: a marked state is stuck (log 6), any other takes its next turn. -/
def nextTurn (s : State) : Host.Outcome State Fault Refusal :=
  match s.mfault.fault with
  | some f => .fault f
  | none => takeTurn s s.agenda

/-- Where a load places the descriptor: at pc, or at 0 where pc is no place a descriptor can be fetched from. -/
def State.loadPointer (s : State) : Word := if s.fetchError.isSome then 0 else s.cmdPtr

/-- The state with the 32 bytes of a descriptor stored where the next step fetches it, the engine READY to fetch there
as after a START, no other agent's turn before it and no model fault (log 4). -/
def State.load (s : State) (bytes : List Byte) : State :=
  { s with
    cmdPtr := s.loadPointer
    opram := s.opram.writeBytes s.loadPointer.toNat bytes
    phase := .ready
    done := false
    error := false
    agenda := []
    mfault := MFault.none }

end Sys2Proof.Machine
end

