-- ==== Sys2Proof/Machine/Step.lean ====
section
/-! DEFINITION. The machine's step, and the state whose next step runs a given instruction. -/

namespace Sys2Proof.Machine

/-- One step of the block (10_state.md R41, 40_sequencer.md R140). -/
def step (s : State) : Host.Outcome State Fault Refusal := nextTurn s

/-- The state with the table word `w` (numbered as spec/opcode_table.json numbers its bits) stored where `step` fetches
its next instruction (log 4). -/
def State.withFetchWord (s : State) (nbits w : Nat) : State := s.load (tableBytes nbits w)

end Sys2Proof.Machine
end

