-- ==== Sys2Proof/Safety.lean ====
section
/-! DEFINITION. What counts as a legal state and as a safe run, in the terms the statements use. -/

namespace Sys2Proof.Machine

/-- OPRAM is in its canonical form and lists no byte beyond OPRAM_BYTES (10_state.md R60). -/
abbrev State.OpramOk (s : State) : Prop := s.opram.wf = true ∧ s.opram.below s.cfg.opramBytes = true

/-- 'At most one of DONE and ERROR is set by a run; BUSY = 1 implies DONE = 0 and ERROR = 0' (10_state.md R50). -/
abbrev State.FlagsOk (s : State) : Prop :=
  (s.done && s.error) = false ∧ (s.busy = true → s.done = false ∧ s.error = false)

/-- ERR_CODE, ERR_PTR and ERR_INFO are 0 while a run goes on and after one that ended at HALT, and ERROR stands for a
code other than NONE (10_state.md R54, 60_exceptions.md R221). -/
abbrev State.ErrorsOk (s : State) : Prop :=
  ((s.busy || s.done) = true → s.errCode = .none ∧ s.errPtr = 0 ∧ s.errInfo = 0) ∧
    (s.error = true → s.errCode ≠ .none)

/-- WINDOW and MSM_LAST_W never exceed WMAX (10_state.md R55, R56). -/
abbrev State.WindowsOk (s : State) : Prop := s.window.toNat ≤ s.cfg.wmax ∧ s.lastW.toNat ≤ s.cfg.wmax

/-- The command in flight is the one at pc, a descriptor that could be fetched, and each of its output regions is 16-byte
aligned and in range (10_state.md R62, 20_memory.md R87, R88). -/
abbrev Inflight.Ok (s : State) (r : Inflight) : Prop :=
  r.pc = s.cmdPtr ∧ s.fetchError = none ∧
    ∀ o ∈ r.outputs, o.region.aligned 16 = true ∧ o.region.inRange s.cfg = true

/-- The in-flight record, where there is one, is legal. -/
abbrev State.InflightOk (s : State) : Prop := ∀ r, s.phase = .inflight r → Inflight.Ok s r

/-- The invariant every step keeps. -/
structure State.Inv (s : State) : Prop where
  config : s.cfg.Valid
  opram : s.OpramOk
  flags : s.FlagsOk
  errors : s.ErrorsOk
  windows : s.WindowsOk
  inflight : s.InflightOk

/-- No model fault is recorded: the spec still predicts the run (10_state.md R64). -/
abbrev State.Unmarked (s : State) : Prop := s.mfault = MFault.none

/-- `step s` is a next state. -/
abbrev Steps (s t : State) : Prop := step s = .next t

/-- It is the engine's turn and `rest` are the turns after it: the agenda begins with an engine turn, or it is empty,
which gives every turn to the engine (log 2). -/
abbrev State.EngineTurn (s : State) (rest : List Turn) : Prop :=
  s.agenda = .engine :: rest ∨ (s.agenda = [] ∧ rest = [])

/-- Runs of k steps that all answer a next state. -/
def runs : Nat → State → State → Prop
  | 0, s, t => s = t
  | k + 1, s, t => ∃ u, step s = .next u ∧ runs k u t

/-- The input regions of a data command are all written, so that its read marks nothing. -/
abbrev State.InputsWritten (s : State) (o : Operands) : Prop := o.inputs.all s.regionWritten = true

/-- The state is at a descriptor that can be fetched: busy in phase READY, pc aligned and in range, all 32 bytes
written (40_sequencer.md R140, R141). -/
structure State.AtDescriptor (s : State) : Prop where
  ready : s.phase = .ready
  fetchable : s.fetchError = none
  written : s.regionWritten s.descriptorRegion = true

/-- OPRAM holds the bytes `bs` from offset a on. -/
abbrev State.Holds (s : State) (a : Nat) (bs : List Byte) : Prop :=
  ∀ i (h : i < bs.length), s.opram.read (a + i) = some bs[i]

/-- The regions of each command (20_memory.md R90); HALT and NOP have none. -/
def commandOperands : Instr → Option Operands
  | .halt => none
  | .nop => none
  | .decompress d a => some (decompressOperands d a)
  | .compress d a => some (compressOperands d a)
  | .scalarMul d a b => some (scalarMulOperands d a b)
  | .batchNormalize d a n => some (batchOperands d a n)
  | .msm d a b n m _ => some (msmOperands d a b n m)

/-- The checks a command makes after decoding and before it reads an operand: steps 3 to 7 of DecodeCheck, each with
the condition under which it fails, in order (40_sequencer.md R142, 20_memory.md R87 to R90). `B` is OPRAM_BYTES. -/
def commandChecks (c : Config) (B : Nat) : Instr → List (Prop × Error)
  | .halt => []
  | .nop => []
  | .decompress d a =>
    [(a % 16 ≠ 0, ⟨.misaligned, 1⟩), (d % 16 ≠ 0, ⟨.misaligned, 3⟩), (B < a + 48, ⟨.outOfRange, 1⟩),
     (B < d + 128, ⟨.outOfRange, 3⟩), (a < d + 128 ∧ d < a + 48, ⟨.overlap, 1⟩)]
  | .compress d a =>
    [(a % 16 ≠ 0, ⟨.misaligned, 1⟩), (d % 16 ≠ 0, ⟨.misaligned, 3⟩), (B < a + 128, ⟨.outOfRange, 1⟩),
     (B < d + 48, ⟨.outOfRange, 3⟩), (a < d + 48 ∧ d < a + 128, ⟨.overlap, 1⟩)]
  | .scalarMul d a b =>
    [(a % 16 ≠ 0, ⟨.misaligned, 1⟩), (b % 32 ≠ 0, ⟨.misaligned, 2⟩), (d % 16 ≠ 0, ⟨.misaligned, 3⟩),
     (B < a + 128, ⟨.outOfRange, 1⟩), (B < b + 32, ⟨.outOfRange, 2⟩), (B < d + 128, ⟨.outOfRange, 3⟩),
     (a < d + 128 ∧ d < a + 128, ⟨.overlap, 1⟩), (b < d + 128 ∧ d < b + 32, ⟨.overlap, 2⟩)]
  | .batchNormalize d a n =>
    [(a % 16 ≠ 0, ⟨.misaligned, 1⟩), (d % 16 ≠ 0, ⟨.misaligned, 3⟩), (0 < n ∧ B < a + 144 * n, ⟨.outOfRange, 1⟩),
     (0 < n ∧ B < d + 128 * n, ⟨.outOfRange, 3⟩),
     (0 < n ∧ a < d + 128 * n ∧ d < a + 144 * n, ⟨.overlap, 1⟩)]
  | .msm d a b n m win =>
    [(c.wmax < win, ⟨.badWindow, win⟩), (n ≠ m, ⟨.lengthMismatch, 0⟩),
     (a % 16 ≠ 0, ⟨.misaligned, 1⟩), (b % 32 ≠ 0, ⟨.misaligned, 2⟩), (d % 16 ≠ 0, ⟨.misaligned, 3⟩),
     (0 < n ∧ B < a + 128 * n, ⟨.outOfRange, 1⟩), (0 < m ∧ B < b + 32 * m, ⟨.outOfRange, 2⟩),
     (B < d + 128, ⟨.outOfRange, 3⟩),
     (0 < n ∧ a < d + 128 ∧ d < a + 128 * n, ⟨.overlap, 1⟩), (0 < m ∧ b < d + 128 ∧ d < b + 32 * m, ⟨.overlap, 2⟩)]

/-- Every check of the list passes. -/
def AllPass (checks : List (Prop × Error)) : Prop := ∀ k ∈ checks, ¬ k.1

/-- The first check of the list that fails reports `e` (40_sequencer.md R142: 'the first that fails is the one
reported'). -/
def FirstFails : List (Prop × Error) → Error → Prop
  | [], _ => False
  | k :: rest, e => (k.1 ∧ k.2 = e) ∨ (¬ k.1 ∧ FirstFails rest e)

/-- The bits of word k of a descriptor that must be 0 for an opcode, as a number (30_encoding.md R123, R127). -/
def reservedBits (x : Descriptor) (o : Opcode) : Nat → Nat
  | 0 => if o = .msm then x.w0.toNat / 2 ^ 12 else x.w0.toNat / 2 ^ 8
  | 1 => if o = .halt ∨ o = .nop then x.w1.toNat else 0
  | 2 => if o = .scalarMul ∨ o = .msm then 0 else x.w2.toNat
  | 3 => if o = .halt ∨ o = .nop then x.w3.toNat else 0
  | 4 => if o = .batchNormalize ∨ o = .msm then 0 else x.w4.toNat
  | 5 => if o = .msm then 0 else x.w5.toNat
  | 6 => x.w6.toNat
  | 7 => x.w7.toNat
  | _ => 0

/-- A Jacobian record of 144 bytes (20_memory.md R93). -/
def jacobianBytes (j : Jacobian) : List Byte := beBytes 48 j.x ++ beBytes 48 j.y ++ beBytes 48 j.z

/-- An affine record with given fields: X, Y, INF and the 31 reserved bytes (20_memory.md R92). -/
def affineRecord (x y : Nat) (inf : Byte) (reserved : List Byte) : List Byte :=
  beBytes 48 x ++ beBytes 48 y ++ [inf] ++ reserved

/-- The code numbers of ERR_CODE, as the table of 60_exceptions.md R221 lists them. -/
def errCodeTable : List (ErrCode × Nat) :=
  [(.none, 0x00), (.illegalOpcode, 0x01), (.reservedNonzero, 0x02), (.badWindow, 0x03), (.lengthMismatch, 0x04),
   (.misaligned, 0x05), (.outOfRange, 0x06), (.overlap, 0x07), (.notCanonical, 0x08), (.notOnCurve, 0x09),
   (.decodeError, 0x0A)]

/-- `s` and `t` agree on every CSR (10_state.md R43): what a host read of any offset returns. -/
abbrev SameCsrs (s t : State) : Prop := ∀ off, s.csrRead off = t.csrRead off

/-- `s` and `t` hold the same OPRAM bytes outside the offsets in `touched`. -/
abbrev SameOpramOutside (s t : State) (touched : Nat → Bool) : Prop :=
  ∀ a, touched a = false → t.opram.read a = s.opram.read a

end Sys2Proof.Machine
end

