-- ==== Sys2Proof/Certificates/Slice0/Obligations.lean ====
section
/-! DEFINITION. The statements for the provers. -/

open Sys2Proof Sys2Proof.Machine

/-! Encoding -/

/-- Decoding the encoding of a command whose operands fit their fields gives the command back. -/
def Obligations.DecodeOfEncodeIsIdentity : Prop :=
  ∀ i : Instr, i.WellFormed → decode (encode i) = .ok i

/-- A descriptor that decodes is the encoding of the command it decodes to, whose operands fit their fields: no bit of it
is dropped. -/
def Obligations.DecodedDescriptorIsItsEncoding : Prop :=
  ∀ (x : Descriptor) (i : Instr), decode x = .ok i → encode i = x ∧ i.WellFormed

/-- The eight little-endian words of 32 bytes and the 32 bytes of eight words are inverse to each other (30_encoding.md
R120, 20_memory.md R84). -/
def Obligations.DescriptorBytesRoundTrip : Prop :=
  (∀ x : Descriptor, x.toBytes.length = 32 ∧ Descriptor.ofBytes x.toBytes = x) ∧
    ∀ bs : List Byte, bs.length = 32 → (Descriptor.ofBytes bs).toBytes = bs

/-- ILLEGAL_OPCODE is reported exactly for the OPCODE values outside the opcode map, whatever the other bits are, and
ends the engine's turn by its error, with no other effect (30_encoding.md R126). An empty agenda is an engine turn with no
turn after it (log 2). -/
def Obligations.IllegalOpcodeRaises : Prop :=
  (∀ x : Descriptor, (∃ v, decode x = .error (.illegalOpcode v)) ↔
      x.w0.toNat % 256 ∉ [0x01, 0x02, 0x10, 0x11, 0x20, 0x30, 0x40]) ∧
    (∀ (x : Descriptor) (v : Nat), decode x = .error (.illegalOpcode v) → v = x.w0.toNat % 256) ∧
    ∀ (s : State) (rest : List Turn) (v : Nat), s.Unmarked → s.EngineTurn rest → s.AtDescriptor →
      decode s.fetchedDescriptor = .error (.illegalOpcode v) →
      step s = .next { s.raiseError ⟨.illegalOpcode, v⟩ with agenda := rest }

/-- RESERVED_NONZERO is reported exactly for a legal OPCODE with a nonzero bit in a field it does not use, with the index
of the first such word, and ends the engine's turn by its error (30_encoding.md R123, R127). An empty agenda is an engine
turn with no turn after it (log 2). -/
def Obligations.ReservedNonzeroRaises : Prop :=
  (∀ (x : Descriptor) (k : Nat), decode x = .error (.reservedNonzero k) ↔
      ∃ o, Opcode.ofCode (x.w0.toNat % 256) = some o ∧ reservedBits x o k ≠ 0 ∧ ∀ j < k, reservedBits x o j = 0) ∧
    ∀ (s : State) (rest : List Turn) (k : Nat), s.Unmarked → s.EngineTurn rest → s.AtDescriptor →
      decode s.fetchedDescriptor = .error (.reservedNonzero k) →
      step s = .next { s.raiseError ⟨.reservedNonzero, k⟩ with agenda := rest }

/-- Words written out from the encoding tables decode to their commands (30_encoding.md R125, R132). -/
def Obligations.WrittenWordsDecode : Prop :=
  decode (Descriptor.ofBytes
      [0x40, 0, 0, 0, 0, 0x10, 0, 0, 0, 0x20, 0, 0, 0, 0x30, 0, 0, 2, 0, 0, 0, 2, 0, 0, 0, 0, 0, 0, 0, 0, 0, 0, 0]) =
      .ok (.msm 0x3000 0x1000 0x2000 2 2 0) ∧
    decode ⟨1, 0, 0, 0, 0, 0, 0, 0⟩ = .ok .halt ∧
    decode ⟨2, 0, 0, 0, 0, 0, 0, 0⟩ = .ok .nop ∧
    decode ⟨0x10, 0x100, 0, 0x200, 0, 0, 0, 0⟩ = .ok (.decompress 0x200 0x100) ∧
    decode ⟨0x11, 0x280, 0, 0x300, 0, 0, 0, 0⟩ = .ok (.compress 0x300 0x280) ∧
    decode ⟨0x20, 0x200, 0x140, 0x280, 0, 0, 0, 0⟩ = .ok (.scalarMul 0x280 0x200 0x140) ∧
    decode ⟨0x30, 0x200, 0, 0x400, 3, 0, 0, 0⟩ = .ok (.batchNormalize 0x400 0x200 3) ∧
    decode ⟨0x740, 0x400, 0x300, 0x500, 2, 2, 0, 0⟩ = .ok (.msm 0x500 0x400 0x300 2 2 7)

/-! The engine's step -/

/-- A step at a fetchable descriptor, whose 32 bytes at pc hold a descriptor that decodes, runs the decoded command: on
the same state where no turn is on the agenda, and after an engine turn is taken off it otherwise. -/
def Obligations.StepRunsDecodedCommand : Prop :=
  ∀ (s : State) (bs : List Byte) (i : Instr), s.Unmarked → s.phase = .ready → s.fetchError = none →
    bs.length = 32 → s.Holds s.cmdPtr.toNat bs → decode (Descriptor.ofBytes bs) = .ok i →
    (s.agenda = [] → step s = exec i s) ∧
      ∀ rest, s.agenda = .engine :: rest → step s = exec i { s with agenda := rest }

/-- FetchCheck: a pc that is no multiple of 32 raises MISALIGNED, else a descriptor that ends beyond OPRAM raises
OUT_OF_RANGE, each with ERR_INFO 0; a fetch that reads an unwritten byte is a model fault (40_sequencer.md R141). This
at every engine turn, an empty agenda being one with no turn after it (log 2). -/
def Obligations.FetchChecksRaise : Prop :=
  ∀ (s : State) (rest : List Turn), s.Unmarked → s.EngineTurn rest → s.phase = .ready →
    (s.cmdPtr.toNat % 32 ≠ 0 → step s = .next { s.raiseError ⟨.misaligned, 0⟩ with agenda := rest }) ∧
      (s.cmdPtr.toNat % 32 = 0 → s.cfg.opramBytes < s.cmdPtr.toNat + 32 →
        step s = .next { s.raiseError ⟨.outOfRange, 0⟩ with agenda := rest }) ∧
      (s.cmdPtr.toNat % 32 = 0 → s.cmdPtr.toNat + 32 ≤ s.cfg.opramBytes → s.regionWritten s.descriptorRegion = false →
        ∃ t, step s = .next t ∧ t.mfault.unwrittenRead = true ∧ t.agenda = rest)

/-- The effect of an error: exactly the listed fields are written (60_exceptions.md R222). -/
def Obligations.RaiseErrorEffect : Prop :=
  ∀ (s : State) (e : Error), s.raiseError e =
    { s with errCode := e.code, errPtr := s.cmdPtr, errInfo := BitVec.ofNat 32 e.info, error := true, phase := .idle }

/-- HALT retires, sets DONE and clears BUSY; its word 0 is 1 and every other word 0; irq rises if IRQ_EN is 1
(40_sequencer.md R144). Of the scratch, unspecified after every command (10_state.md R63), and of the model's counter of
draws nothing is said. -/
def Obligations.HaltStopsTheRun : Prop :=
  encode .halt = ⟨1, 0, 0, 0, 0, 0, 0, 0⟩ ∧
    ∀ s : State, (∃ (x : Scratch) (k : Nat), exec .halt s =
        .next { s with
          cmdPtr := s.cmdPtr + 32
          cmdCount := s.cmdCount + 1
          done := true
          phase := .idle
          scratch := x
          draws := k }) ∧
      ∀ t, exec .halt s = .next t → t.busy = false ∧ t.irq = t.irqEn

/-- NOP retires; its word 0 is 2 and every other word 0, and a NOP with a nonzero word 6 is rejected with index 6
(40_sequencer.md R145). Of the scratch, unspecified after every command (10_state.md R63), and of the model's counter of
draws nothing is said. -/
def Obligations.NopRetires : Prop :=
  encode .nop = ⟨2, 0, 0, 0, 0, 0, 0, 0⟩ ∧
    (∀ s : State, ∃ (x : Scratch) (k : Nat), exec .nop s = .next { s with
      cmdPtr := s.cmdPtr + 32
      cmdCount := s.cmdCount + 1
      scratch := x
      draws := k }) ∧
    ∀ w : Word, w ≠ 0 → decode ⟨2, 0, 0, 0, 0, 0, w, 0⟩ = .error (.reservedNonzero 6)

/-- A commit writes the output bytes of the command in flight, region after region, and no other byte, retires, drops the
record and goes READY; it cannot raise an error (40_sequencer.md R146). Of the scratch, unspecified after every
command (10_state.md R63), and of the model's counter of draws nothing is said. An empty agenda is an engine
turn with no turn after it (log 2). -/
def Obligations.CommitWritesTheOutput : Prop :=
  ∀ (s : State) (rest : List Turn) (r : Inflight), s.Unmarked → s.EngineTurn rest → s.phase = .inflight r →
    ∃ (m : Memory) (x : Scratch) (k : Nat), step s =
        .next { s with
          cmdPtr := s.cmdPtr + 32
          cmdCount := s.cmdCount + 1
          phase := .ready
          opram := m
          scratch := x
          draws := k
          agenda := rest } ∧
      (∀ x, (∀ o ∈ r.outputs, ¬ (o.base ≤ x ∧ x < o.base + o.bytes.length)) →
        Memory.read m x = s.opram.read x) ∧
      ∀ (before later : List Output) (o : Output) (x : Nat), r.outputs = before ++ o :: later →
        o.base ≤ x → x < o.base + o.bytes.length →
        (∀ o' ∈ later, ¬ (o'.base ≤ x ∧ x < o'.base + o'.bytes.length)) →
        Memory.read m x = o.bytes[x - o.base]?

/-! What every command does and leaves unchanged -/

/-- The frame of every command: it writes no OPRAM byte itself (a data command's output waits in flight), no build
parameter, no IRQ_EN, no WINDOW, no host hazard mark; MSM_LAST_W only by MSM; DONE only by HALT; pc and CMD_COUNT only by
HALT and NOP, which leave the error registers alone. The scratch, unspecified after every command (10_state.md R63), takes
a free value after each; that form of it is the model's choice (log 9). A data command leaves UNWRITTEN_READ alone if its
inputs are written, and either raises an error at its own pc, or goes INFLIGHT with one output region, the one R90 gives,
and the error registers untouched. -/
def Obligations.CommandFrame : Prop :=
  ∀ (i : Instr) (s t : State), exec i s = .next t →
    (t.cfg = s.cfg ∧ t.irqEn = s.irqEn ∧ t.window = s.window ∧ t.opram = s.opram ∧ t.agenda = s.agenda ∧
      t.replies = s.replies ∧ t.mfault.hostWriteWhileBusy = s.mfault.hostWriteWhileBusy) ∧
    (i.opcode ≠ .msm → t.lastW = s.lastW) ∧
    (i.opcode ≠ .halt → t.done = s.done) ∧
    (i.opcode = .halt ∨ i.opcode = .nop →
      t.error = s.error ∧ t.errCode = s.errCode ∧ t.errPtr = s.errPtr ∧ t.errInfo = s.errInfo ∧
        t.mfault = s.mfault ∧ t.draws = s.draws + 1) ∧
    t.scratch = Config.freeScratch s.draws ∧
    ∀ o, commandOperands i = some o →
      t.cmdPtr = s.cmdPtr ∧ t.cmdCount = s.cmdCount ∧ (s.InputsWritten o → t.mfault = s.mfault) ∧
      ((t.phase = .idle ∧ t.error = true ∧ t.errPtr = s.cmdPtr ∧ t.errCode ≠ .none ∧ t.lastW = s.lastW) ∨
        ∃ out, out.length = o.d.len ∧ t.phase = .inflight ⟨s.cmdPtr, [⟨o.d.base, out⟩]⟩ ∧ t.error = s.error ∧
          t.errCode = s.errCode ∧ t.errPtr = s.errPtr ∧ t.errInfo = s.errInfo)

/-- The checks of a command that come before its operands are read: the first that fails, in the order of
40_sequencer.md R142, is the one reported, and the command then writes nothing but the error (60_exceptions.md R224) and the scratch, which
takes a free value (log 9). -/
def Obligations.FirstFailingCheckIsReported : Prop :=
  ∀ (i : Instr) (s : State) (e : Error), FirstFails (commandChecks s.cfg s.cfg.opramBytes i) e →
    exec i s = .next (s.scrambleScratch.raiseError e)

/-- All or nothing: an engine turn that stops on an error changes no OPRAM byte and no CSR but the error registers, ERROR and
BUSY; pc, CMD_COUNT, MSM_LAST_W, MSM_WINDOW_CFG, IRQ_EN and DONE are as before, ERR_PTR is pc and the engine is idle
(40_sequencer.md R143, 60_exceptions.md R222, R223). An empty agenda is an engine turn with no turn after it (log 2). -/
def Obligations.ErrorsArePrecise : Prop :=
  ∀ (s t : State) (rest : List Turn), s.EngineTurn rest → s.busy = true → s.error = false → step s = .next t →
    t.error = true →
    t.opram = s.opram ∧ t.cmdPtr = s.cmdPtr ∧ t.cmdCount = s.cmdCount ∧ t.lastW = s.lastW ∧ t.window = s.window ∧
      t.irqEn = s.irqEn ∧ t.done = s.done ∧ t.cfg = s.cfg ∧ t.errPtr = s.cmdPtr ∧ t.busy = false ∧
      t.errCode ≠ .none ∧ t.agenda = rest

/-- A data command that reads an unwritten byte of an input region adds UNWRITTEN_READ (20_memory.md R86, R96). -/
def Obligations.UnwrittenReadIsMarked : Prop :=
  ∀ (i : Instr) (s : State) (o : Operands), commandOperands i = some o →
    AllPass (commandChecks s.cfg s.cfg.opramBytes i) → ¬ s.InputsWritten o →
    ∃ t, exec i s = .next t ∧ t.mfault.unwrittenRead = true

/-! DECOMPRESS and COMPRESS -/

/-- DECOMPRESS of a buffer that decodes goes INFLIGHT with the affine record of the decoded point
(41_codec.md R160). -/
def Obligations.DecompressComputesItsRecord : Prop :=
  ∀ (s : State) (d a : Nat) (buf : List Byte) (q : Point),
    AllPass (commandChecks s.cfg s.cfg.opramBytes (.decompress d a)) →
    buf.length = 48 → s.Holds a buf → decodePoint s.cfg.curve (beInt buf) = .ok q →
    exec (.decompress d a) s = .next { s with
      scratch := Config.freeScratch s.draws
      draws := s.draws + 1
      phase := .inflight ⟨s.cmdPtr, [⟨d, affBytes q⟩]⟩ }

/-- DECOMPRESS of a buffer that does not decode raises its DECODE_ERROR and writes nothing but the error and the scratch, a
free value (41_codec.md R160, R162; log 9). -/
def Obligations.DecompressRaisesDecodeError : Prop :=
  ∀ (s : State) (d a : Nat) (buf : List Byte) (e : Error),
    AllPass (commandChecks s.cfg s.cfg.opramBytes (.decompress d a)) →
    buf.length = 48 → s.Holds a buf → decodePoint s.cfg.curve (beInt buf) = .error e →
    exec (.decompress d a) s = .next (s.scrambleScratch.raiseError e)

/-- Decode tests its reasons in order: 1 the compression flag is clear, 2 a non-canonical infinity, 3 x >= p, 4 no y on
the curve with the sign asked for; else it answers O or the point with that x and that y (41_codec.md R161 to R163). -/
def Obligations.DecodeReasonsInOrder : Prop :=
  ∀ (cv : Curve) (c : Nat), cv.p.Prime → cv.p % 4 = 3 → cv.p < 2 ^ 381 → c < 2 ^ 384 →
    (c.testBit 383 = false → decodePoint cv c = .error ⟨.decodeError, 1⟩) ∧
    (c.testBit 383 = true → c.testBit 382 = true → (c.testBit 381 = true ∨ c % 2 ^ 381 ≠ 0) →
      decodePoint cv c = .error ⟨.decodeError, 2⟩) ∧
    (c.testBit 383 = true → c.testBit 382 = true → c.testBit 381 = false → c % 2 ^ 381 = 0 →
      decodePoint cv c = .ok .inf) ∧
    (c.testBit 383 = true → c.testBit 382 = false → cv.p ≤ c % 2 ^ 381 →
      decodePoint cv c = .error ⟨.decodeError, 3⟩) ∧
    (c.testBit 383 = true → c.testBit 382 = false → c % 2 ^ 381 < cv.p →
      (∀ y < cv.p, onCurve cv (c % 2 ^ 381) y = true → sgn cv.p y ≠ (c.testBit 381).toNat) →
      decodePoint cv c = .error ⟨.decodeError, 4⟩) ∧
    ∀ y < cv.p, c.testBit 383 = true → c.testBit 382 = false → c % 2 ^ 381 < cv.p →
      onCurve cv (c % 2 ^ 381) y = true → sgn cv.p y = (c.testBit 381).toNat →
      decodePoint cv c = .ok (.fin (c % 2 ^ 381) y)

/-- Every decoded point lies on the curve, with canonical coordinates (41_codec.md R164). -/
def Obligations.DecodedPointsAreOnCurve : Prop :=
  ∀ (cv : Curve) (c : Nat) (q : Point), 0 < cv.p → decodePoint cv c = .ok q → pointOnCurve cv q

/-- COMPRESS of a valid affine record goes INFLIGHT with the 48 bytes of its encoding; INF = 1 makes the coordinates
and the reserved bytes don't-cares (41_codec.md R166, 20_memory.md R92). -/
def Obligations.CompressComputesItsBytes : Prop :=
  ∀ (s : State) (d a x y : Nat) (inf : Byte) (reserved : List Byte),
    AllPass (commandChecks s.cfg s.cfg.opramBytes (.compress d a)) →
    reserved.length = 31 → s.Holds a (affineRecord x y inf reserved) → x < 2 ^ 384 → y < 2 ^ 384 →
    (inf = 1 → exec (.compress d a) s =
      .next { s with
        scratch := Config.freeScratch s.draws
        draws := s.draws + 1
        phase := .inflight ⟨s.cmdPtr, [⟨d, beBytes 48 (2 ^ 383 + 2 ^ 382)⟩]⟩ }) ∧
    (inf = 0 → x < s.cfg.curve.p → y < s.cfg.curve.p → onCurve s.cfg.curve x y = true → exec (.compress d a) s =
      .next { s with
        scratch := Config.freeScratch s.draws
        draws := s.draws + 1
        phase := .inflight ⟨s.cmdPtr, [⟨d, beBytes 48 (2 ^ 383 + sgn s.cfg.curve.p y * 2 ^ 381 + x)⟩]⟩ })

/-- COMPRESS and SCALAR_MUL reject a record that is not canonical, and after that one whose point is off the curve, with
element index 0, and write nothing but the error and the scratch, a free value (log 9; 41_codec.md R166, 42_scalar_mul.md R180, 60_exceptions.md R221). -/
def Obligations.BadAffineOperandIsRejected : Prop :=
  ∀ (s : State) (i : Instr) (d a b x y : Nat) (inf : Byte) (reserved : List Byte),
    (i = .compress d a ∨ (i = .scalarMul d a b ∧ s.regionWritten ⟨b, 32⟩ = true)) →
    AllPass (commandChecks s.cfg s.cfg.opramBytes i) →
    reserved.length = 31 → s.Holds a (affineRecord x y inf reserved) → x < 2 ^ 384 → y < 2 ^ 384 →
    (inf ≠ 0 → inf ≠ 1 → exec i s = .next (s.scrambleScratch.raiseError ⟨.notCanonical, 0⟩)) ∧
    (inf = 0 → (s.cfg.curve.p ≤ x ∨ s.cfg.curve.p ≤ y) →
      exec i s = .next (s.scrambleScratch.raiseError ⟨.notCanonical, 0⟩)) ∧
    (inf = 0 → x < s.cfg.curve.p → y < s.cfg.curve.p → onCurve s.cfg.curve x y = false →
      exec i s = .next (s.scrambleScratch.raiseError ⟨.notOnCurve, 0⟩))

/-- Decode and Encode are inverse bijections between the accepted buffers and E(F_p): decoding an encoded point gives it
back, encoding the decoded point gives the 384-bit value back, and no two accepted buffers decode to one point
(41_codec.md R165, R168). -/
def Obligations.CodecIsABijection : Prop :=
  ∀ cv : Curve, cv.p.Prime → cv.p % 4 = 3 → cv.p < 2 ^ 381 →
    (∀ q, pointOnCurve cv q → encodePoint cv q < 2 ^ 384 ∧ decodePoint cv (encodePoint cv q) = .ok q) ∧
    (∀ c q, c < 2 ^ 384 → decodePoint cv c = .ok q → encodePoint cv q = c) ∧
    ∀ c e q, c < 2 ^ 384 → e < 2 ^ 384 → decodePoint cv c = .ok q → decodePoint cv e = .ok q → c = e

/-- The infinity pattern: Encode(O) is c0 00 .. 00, it decodes to O, and every other buffer with bit 6 of byte 0 set is
rejected with reason 2 or 1 (41_codec.md R169). -/
def Obligations.InfinityPattern : Prop :=
  ∀ cv : Curve,
    beBytes 48 (encodePoint cv .inf) = 0xc0 :: zeroBytes 47 ∧
    decodePoint cv (beInt (0xc0 :: zeroBytes 47)) = .ok .inf ∧
    ∀ buf : List Byte, buf.length = 48 → (beInt buf).testBit 382 = true → buf ≠ 0xc0 :: zeroBytes 47 →
      decodePoint cv (beInt buf) = .error ⟨.decodeError, 1⟩ ∨ decodePoint cv (beInt buf) = .error ⟨.decodeError, 2⟩

/-- The affine record the engine writes for a point of E(F_p) reads back as that point, and a record with INF = 1 reads
as O whatever its other bytes hold. The bytes the engine writes: X, Y, INF 0 and 31 zero bytes for (x, y); 96 zero bytes,
INF 1 and 31 zero bytes for O (20_memory.md R92). -/
def Obligations.AffineRecordRoundTrip : Prop :=
  (∀ (cv : Curve) (k : Nat) (q : Point), cv.p < 2 ^ 384 → pointOnCurve cv q →
      (affBytes q).length = 128 ∧ readAffine cv k (affBytes q) = .ok q) ∧
    (∀ (cv : Curve) (k x y : Nat) (reserved : List Byte), reserved.length = 31 →
      readAffine cv k (affineRecord x y 1 reserved) = .ok .inf) ∧
    (∀ x y, affBytes (.fin x y) = affineRecord x y 0 (List.replicate 31 0)) ∧
    affBytes .inf = List.replicate 96 0 ++ [1] ++ List.replicate 31 0

/-! The field and the group -/

/-- FpInv is the unique canonical inverse, a^(p-2) mod p (00_scope.md R20). -/
def Obligations.FieldInverseIsUnique : Prop :=
  ∀ p a : Nat, p.Prime → 2 < p → 0 < a → a < p →
    fpInv p a < p ∧ fpMul p a (fpInv p a) = 1 ∧ (∀ b < p, fpMul p a b = 1 → b = fpInv p a) ∧
      fpInv p a = a ^ (p - 2) % p

/-- FpIsSquare holds iff a canonical root exists; the roots are then exactly y and p - y, equal only where a = 0, and
a^((p+1)/4) mod p is one of them; unless y = 0 exactly one of y and p - y has sign 1 (00_scope.md R21, R22). -/
def Obligations.SquareRootsComeInPairs : Prop :=
  ∀ p a : Nat, p.Prime → p % 4 = 3 → a < p →
    (fpIsSquare p a = true ↔ ∃ y < p, fpSqr p y = a) ∧
    (fpIsSquare p a = true → fpSqr p (a ^ ((p + 1) / 4) % p) = a) ∧
    (∀ y < p, ∀ z < p, fpSqr p y = a → (fpSqr p z = a ↔ z = y ∨ z = fpNeg p y)) ∧
    (∀ y < p, fpSqr p y = a → (y = fpNeg p y ↔ a = 0)) ∧
    ∀ y < p, (sgn p y = 1 ↔ (p - 1) / 2 < y) ∧ (sgn p y = 1 ∨ sgn p y = 0) ∧ (y ≠ 0 → sgn p y ≠ sgn p (p - y))

/-- E(F_p), the set of O and the canonical pairs with y^2 = x^3 + B, is an abelian group under PointAdd with identity O
and inverse PointNeg (00_scope.md R23 to R25). -/
def Obligations.PointsFormAnAbelianGroup : Prop :=
  ∀ (cv : Curve) (q t u : Point), cv.Elliptic → pointOnCurve cv q → pointOnCurve cv t → pointOnCurve cv u →
    (∀ x y, onCurve cv x y = true ↔ y * y % cv.p = (x * x * x + cv.b) % cv.p) ∧
    pointOnCurve cv (pointAdd cv q t) ∧ pointOnCurve cv (pointNeg cv q) ∧
    pointAdd cv .inf q = q ∧ pointAdd cv q .inf = q ∧ pointAdd cv q (pointNeg cv q) = .inf ∧
    pointAdd cv q t = pointAdd cv t q ∧
    pointAdd cv (pointAdd cv q t) u = pointAdd cv q (pointAdd cv t u)

/-! SCALAR_MUL -/

/-- SCALAR_MUL of a valid affine record goes INFLIGHT with the record of the windowed multiple by scan(s)
(42_scalar_mul.md R180, R182). -/
def Obligations.ScalarMulComputesItsRecord : Prop :=
  ∀ (s : State) (d a b k : Nat) (q : Point) (buf : List Byte),
    AllPass (commandChecks s.cfg s.cfg.opramBytes (.scalarMul d a b)) →
    buf.length = 128 → s.Holds a buf → readAffine s.cfg.curve 0 buf = .ok q →
    k < 2 ^ 256 → s.Holds b (leBytes 32 k) →
    exec (.scalarMul d a b) s =
      .next { s with
        scratch := Config.freeScratch s.draws
        draws := s.draws + 1
        phase := .inflight ⟨s.cmdPtr, [⟨d, affBytes (scalarMul s.cfg.curve (k % 2 ^ 255) q)⟩]⟩ }

/-- The windowed multiplier computes exactly scan(s) * P, scan(s) = le_int(s) mod 2^255, for every scalar buffer s
(42_scalar_mul.md R181, R182). -/
def Obligations.WindowedMultiplierIsTheMultiple : Prop :=
  ∀ (cv : Curve) (q : Point) (bs : List Byte), cv.Elliptic → pointOnCurve cv q → bs.length = 32 →
    scalarMul cv (scan bs) q = pointMul cv (leInt bs % 2 ^ 255) q

/-- The document's bitwise double-and-add over bits 254 to 0 gives the same point as the windowed multiplier
(42_scalar_mul.md R183). -/
def Obligations.BitwiseMultiplierAgrees : Prop :=
  ∀ (cv : Curve) (q : Point) (k : Nat), cv.Elliptic → pointOnCurve cv q → k < 2 ^ 255 →
    doubleAndAdd cv k q 255 .inf = scalarMul cv k q

/-- Scalar 0 gives O, 1 gives P, the multiples of O are O; multiples add up; and on a point of order dividing r the
scalar r gives O, r + 1 gives P, and multiples add up modulo r (42_scalar_mul.md R185). -/
def Obligations.ScalarMulCornerCases : Prop :=
  ∀ (cv : Curve) (q : Point) (j k : Nat), cv.Elliptic → pointOnCurve cv q →
    scalarMul cv 0 q = .inf ∧ scalarMul cv 1 q = q ∧ scalarMul cv k .inf = .inf ∧
    (j + k < 2 ^ 255 → pointAdd cv (scalarMul cv j q) (scalarMul cv k q) = scalarMul cv (j + k) q) ∧
    (0 < cv.r → cv.r < 2 ^ 255 → pointMul cv cv.r q = .inf →
      scalarMul cv cv.r q = .inf ∧ scalarMul cv (cv.r + 1) q = q ∧
      (j < 2 ^ 255 → k < 2 ^ 255 →
        pointAdd cv (scalarMul cv j q) (scalarMul cv k q) = scalarMul cv ((j + k) % cv.r) q))

/-! BATCH_NORMALIZE -/

/-- BATCH_NORMALIZE of N canonical Jacobian records, N = 0 included, goes INFLIGHT with the array of their affine
records, in input order (43_batch_normalize.md R190, R192, R194). -/
def Obligations.BatchNormalizeComputesItsArray : Prop :=
  ∀ (s : State) (d a : Nat) (js : List Jacobian),
    AllPass (commandChecks s.cfg s.cfg.opramBytes (.batchNormalize d a js.length)) → s.cfg.curve.p < 2 ^ 384 →
    s.Holds a (js.map jacobianBytes).flatten →
    (∀ j ∈ js, j.x < s.cfg.curve.p ∧ j.y < s.cfg.curve.p ∧ j.z < s.cfg.curve.p) →
    exec (.batchNormalize d a js.length) s =
      .next { s with
        scratch := Config.freeScratch s.draws
        draws := s.draws + 1
        phase := .inflight ⟨s.cmdPtr, [⟨d, ((sharedInversion s.cfg.curve.p js).map affBytes).flatten⟩]⟩ }

/-- BATCH_NORMALIZE rejects an array with a record that is not canonical, with the lowest index of one, and writes
nothing but the error and the scratch, a free value (log 9); it checks no curve (43_batch_normalize.md R190). -/
def Obligations.BatchNormalizeRejectsLowestIndex : Prop :=
  ∀ (s : State) (d a k : Nat) (js : List Jacobian) (hk : k < js.length),
    AllPass (commandChecks s.cfg s.cfg.opramBytes (.batchNormalize d a js.length)) →
    s.Holds a (js.map jacobianBytes).flatten →
    (∀ j ∈ js, j.x < 2 ^ 384 ∧ j.y < 2 ^ 384 ∧ j.z < 2 ^ 384) →
    (∀ l (hl : l < k), js[l].x < s.cfg.curve.p ∧ js[l].y < s.cfg.curve.p ∧ js[l].z < s.cfg.curve.p) →
    (s.cfg.curve.p ≤ js[k].x ∨ s.cfg.curve.p ≤ js[k].y ∨ s.cfg.curve.p ≤ js[k].z) →
    exec (.batchNormalize d a js.length) s = .next (s.scrambleScratch.raiseError ⟨.notCanonical, k⟩)

/-- One shared inversion gives each record the affine form it has by itself (43_batch_normalize.md R191, R192). -/
def Obligations.SharedInversionNormalizesEachRecord : Prop :=
  ∀ (cv : Curve) (js : List Jacobian), cv.p.Prime → 2 < cv.p → (∀ j ∈ js, j.z < cv.p) →
    sharedInversion cv.p js = js.map (fun j => toAffine cv j.x j.y j.z)

/-! MSM -/

/-- MSM of N valid affine records, in any bytes that read as points of the curve, and N scalars, N = 0 included, goes
INFLIGHT with the record of the bucket sum and writes the effective window width to MSM_LAST_W (44_msm.md R200, R203,
R205, R208, 20_memory.md R92). -/
def Obligations.MsmComputesItsRecord : Prop :=
  ∀ (s : State) (d a b win : Nat) (recs : List (List Byte)) (qs : List Point) (ks : List Nat),
    recs.length = qs.length → ks.length = qs.length → AllPass (commandChecks s.cfg s.cfg.opramBytes (.msm d a b qs.length qs.length win)) →
    (∀ rec ∈ recs, rec.length = 128) → s.Holds a recs.flatten →
    (∀ l (hr : l < recs.length) (hq : l < qs.length), readAffine s.cfg.curve l recs[l] = .ok qs[l]) →
    s.Holds b (ks.map (leBytes 32)).flatten → (∀ k ∈ ks, k < 2 ^ 256) →
    exec (.msm d a b qs.length qs.length win) s =
      .next { s with
        scratch := Config.freeScratch s.draws
        draws := s.draws + 1
        lastW := BitVec.ofNat 4 (s.msmWindow qs.length win)
        phase := .inflight ⟨s.cmdPtr, [⟨d, affBytes
          (bucketMsm s.cfg.curve (s.msmWindow qs.length win) (qs.zip (ks.map (fun k => k % 2 ^ 255))))⟩]⟩ }

/-- MSM rejects its first bad point in index order, with the element index k: NOT_CANONICAL for INF other than 0 and 1 or
a coordinate of p or more, after that NOT_ON_CURVE for a point off the curve; and it writes neither OPRAM nor MSM_LAST_W
(44_msm.md R200, 60_exceptions.md R221, R224). -/
def Obligations.MsmRejectsFirstBadPoint : Prop :=
  ∀ (s : State) (d a b n win k : Nat) (recs : List (List Byte)) (e : Error),
    recs.length = n → (∀ rec ∈ recs, rec.length = 128) →
    AllPass (commandChecks s.cfg s.cfg.opramBytes (.msm d a b n n win)) →
    s.Holds a recs.flatten → s.regionWritten ⟨b, 32 * n⟩ = true →
    (∀ l (_ : l < k) (hl : l < recs.length), ∃ q, readAffine s.cfg.curve l recs[l] = .ok q) →
    (∃ hk : k < recs.length, readAffine s.cfg.curve k recs[k] = .error e) →
    exec (.msm d a b n n win) s = .next (s.scrambleScratch.raiseError e) ∧ e.info = k ∧
      ∀ (x y : Nat) (inf : Byte) (reserved : List Byte),
        recs[k]? = some (affineRecord x y inf reserved) → reserved.length = 31 → x < 2 ^ 384 → y < 2 ^ 384 →
        (inf ≠ 0 → inf ≠ 1 → e = ⟨.notCanonical, k⟩) ∧
        (inf = 0 → (s.cfg.curve.p ≤ x ∨ s.cfg.curve.p ≤ y) → e = ⟨.notCanonical, k⟩) ∧
        (inf = 0 → x < s.cfg.curve.p → y < s.cfg.curve.p → e = ⟨.notOnCurve, k⟩) ∧ inf ≠ 1

/-- The bucket algorithm computes the sum of the multiples, for every window width: the result does not depend on w
(44_msm.md R202, R205, R206). -/
def Obligations.BucketSumIsTheSumOfMultiples : Prop :=
  ∀ (cv : Curve) (w : Nat) (items : List (Point × Nat)), cv.Elliptic → 1 ≤ w →
    (∀ x ∈ items, pointOnCurve cv x.1 ∧ x.2 < 2 ^ 255) → bucketMsm cv w items = msmSum cv items

/-- The effective window: WIN if nonzero, else WINDOW if nonzero, else W_AUTO(N); always 1 to WMAX
(44_msm.md R203, 00_scope.md R12). -/
def Obligations.EffectiveWindowIsInRange : Prop :=
  ∀ (s : State) (n win : Nat), s.cfg.Valid → s.WindowsOk → win ≤ s.cfg.wmax →
    1 ≤ s.msmWindow n win ∧ s.msmWindow n win ≤ s.cfg.wmax ∧
    (win ≠ 0 → s.msmWindow n win = win) ∧
    (win = 0 → s.window ≠ 0 → s.msmWindow n win = s.window.toNat) ∧
    (win = 0 → s.window = 0 → n < 16 → s.msmWindow n win = 1) ∧
    (win = 0 → s.window = 0 → ∀ l, 4 ≤ l → 2 ^ l ≤ n → n < 2 ^ (l + 1) →
      s.msmWindow n win = min s.cfg.wmax (l - 2))

/-- The digits of a scan value: npos = ceil(255 / w) positions, the digit at position j is (k >> (j w)) mod 2^w, the top
one below 2^(255 - (npos - 1) w), and together they recompose the value (44_msm.md R204). -/
def Obligations.DigitsRecomposeTheScalar : Prop :=
  ∀ k w : Nat, 1 ≤ w → k < 2 ^ 255 →
    255 ≤ digitPositions w * w ∧ (digitPositions w - 1) * w < 255 ∧
    (∀ j, digit k w j = (k >>> (j * w)) % 2 ^ w ∧ digit k w j < 2 ^ w) ∧
    digit k w (digitPositions w - 1) < 2 ^ (255 - (digitPositions w - 1) * w) ∧
    ((List.range (digitPositions w)).map (fun j => digit k w j * 2 ^ (j * w))).sum = k

/-! Invariants and runs -/

/-- The state after reset is legal. -/
def Obligations.ResetIsLegal : Prop := State.reset.Inv

/-- Every step, of the engine, of the host or of the reset input, keeps a legal state legal. -/
def Obligations.StepKeepsTheStateLegal : Prop := ∀ s t : State, s.Inv → step s = .next t → t.Inv

/-- A marked state is stuck on the fault of its mark, HOST_WRITE_WHILE_BUSY where the mark holds that reason and
UNWRITTEN_READ otherwise, and neither reset clears the mark (10_state.md R64, 93_implementation_defined.md U23). -/
def Obligations.ModelFaultIsSticky : Prop :=
  (∀ s : State, s.mfault.hostWriteWhileBusy = true → step s = .fault .hostWriteWhileBusy) ∧
    (∀ s : State, s.mfault.hostWriteWhileBusy = false → s.mfault.unwrittenRead = true →
      step s = .fault .unwrittenRead) ∧
    (∀ s : State, s.Unmarked ↔ s.mfault.hostWriteWhileBusy = false ∧ s.mfault.unwrittenRead = false) ∧
    ∀ s : State, s.powerOn.mfault = s.mfault ∧ s.softReset.mfault = s.mfault

/-- The build parameters never change, and what the host reads from ID, VERSION and CAPS never does
(10_state.md R44 to R46). -/
def Obligations.BuildParametersAreConstant : Prop :=
  ∀ s t : State, step s = .next t →
    t.cfg = s.cfg ∧ t.csrRead 0x000 = 0x4D534D31 ∧ t.csrRead 0x004 = 0x00010000 ∧ t.csrRead 0x008 = s.csrRead 0x008

/-- An engine turn either moves pc by 32 and counts one descriptor, or moves neither, so there are no branches
(10_state.md R53, R59, 40_sequencer.md R148). While the engine is idle it changes nothing but the agenda: the spec gives an
idle engine no step (60_exceptions.md R238), and that its turn is a stutter is the model's choice (log 3). -/
def Obligations.PcAdvancesWithCount : Prop :=
  (∀ (s t : State) (rest : List Turn), s.EngineTurn rest → step s = .next t →
      (t.cmdPtr = s.cmdPtr + 32 ∧ t.cmdCount = s.cmdCount + 1) ∨ (t.cmdPtr = s.cmdPtr ∧ t.cmdCount = s.cmdCount)) ∧
    ∀ (s : State) (rest : List Turn), s.Unmarked → s.EngineTurn rest → s.phase = .idle →
      step s = .next { s with agenda := rest }

/-- Every run that the host leaves alone ends: within two steps for each descriptor OPRAM can hold the engine is idle,
or a model fault is met (40_sequencer.md R147, 70_reset_and_hazards.md R270). -/
def Obligations.EveryRunEnds : Prop :=
  ∀ s : State, s.Inv → s.Unmarked → s.agenda = [] → s.busy = true →
    ∃ k ≤ 2 * (s.cfg.opramBytes / 32) + 2, ∃ t, runs k s t ∧ (t.busy = false ∨ ∃ f, step t = .fault f)

/-- No step's result depends on the hidden scratch before it: two states that differ only there step to states that
differ at most there (10_state.md R63). -/
def Obligations.ScratchDoesNotMatter : Prop :=
  ∀ (s t : State) (x : Scratch), step s = .next t →
    ∃ y, step { s with scratch := x } = .next { t with scratch := y }

/-- A data command that completes takes two steps: the first puts its output in flight and changes no OPRAM byte, the
second writes exactly that output and retires (40_sequencer.md R140, R146; 20_memory.md R96). Both at engine turns, an
empty agenda being one with no turn after it (log 2). -/
def Obligations.DataCommandTakesTwoSteps : Prop :=
  ∀ (s u : State) (later rest : List Turn) (i : Instr) (o : Operands), s.Unmarked → s.EngineTurn later →
    s.AtDescriptor → decode s.fetchedDescriptor = .ok i → commandOperands i = some o → s.InputsWritten o →
    step s = .next u → u.busy = true → u.EngineTurn rest →
    u.opram = s.opram ∧ u.agenda = later ∧ ∃ out t, out.length = o.d.len ∧ u.phase = .inflight ⟨s.cmdPtr, [⟨o.d.base, out⟩]⟩ ∧
      step u = .next t ∧ t.phase = .ready ∧ t.agenda = rest ∧
      t.cmdPtr = s.cmdPtr + 32 ∧ t.cmdCount = s.cmdCount + 1 ∧ t.Holds o.d.base out ∧
      ∀ x, ¬ (o.d.base ≤ x ∧ x < o.d.base + o.d.len) → t.opram.read x = s.opram.read x

/-! Reset, registers and the host's ports -/

/-- What power-on reset leaves, read through the register map (CAPS as R46 gives it for the default build parameters),
that a soft reset gives the same register values and keeps OPRAM while no command is in flight, and that an idle engine
stays idle at its own turns, an empty agenda being one (log 2): there is no reset vector (10_state.md R66). -/
def Obligations.ResetValues : Prop :=
  State.reset.csrRead 0x000 = 0x4D534D31 ∧ State.reset.csrRead 0x004 = 0x00010000 ∧
    State.reset.csrRead 0x008 = 0x0000144C ∧
    (∀ off, 0x008 < off → State.reset.csrRead off = 0) ∧ State.reset.irq = false ∧ State.reset.phase = .idle ∧
    State.reset.mfault = MFault.none ∧ (∀ a, State.reset.opram.read a = none) ∧
    ∀ s : State, (∀ off, off ≠ 0x008 → s.softReset.csrRead off = State.reset.csrRead off) ∧
      s.softReset.csrRead 0x008 = s.csrRead 0x008 ∧ (s.inflightOutputs = [] → s.softReset.opram = s.opram) ∧
      ∀ rest, s.EngineTurn rest → s.phase = .idle → ∀ t, step s = .next t → t.phase = .idle

/-- The reset input acts in every unmarked state, busy or not (a marked one takes no turn, log 6): every register at its reset value, OPRAM unwritten, the command in progress
abandoned, the model-fault mark kept (70_reset_and_hazards.md R250, R251). -/
def Obligations.PowerOnResetsEverything : Prop :=
  ∀ (s : State) (rest : List Turn), s.Unmarked → s.agenda = .powerOn :: rest →
    ∃ t, step s = .next t ∧ (∀ off, off ≠ 0x008 → t.csrRead off = State.reset.csrRead off) ∧
      t.csrRead 0x008 = s.csrRead 0x008 ∧ t.irq = false ∧ t.phase = .idle ∧ t.mfault = s.mfault ∧
      (∀ a, t.opram.read a = none) ∧ t.agenda = rest

/-- A CTRL write with SOFT_RESET resets every register but IRQ_EN, which takes the written bit, ignores START, and
leaves every OPRAM byte outside the output regions in flight as it was, and the bytes inside them written with any
value (70_reset_and_hazards.md R252, R253, 10_state.md R47, R49). -/
def Obligations.SoftResetAborts : Prop :=
  ∀ (s : State) (rest : List Turn) (v : Word), s.Unmarked → v.getLsbD 1 = true →
    s.agenda = .host (.csrWrite .b4 0x00C v) :: rest →
    ∃ t, step s = .next t ∧ t.irqEn = v.getLsbD 2 ∧ t.phase = .idle ∧ t.irq = false ∧ t.agenda = rest ∧
      t.mfault = s.mfault ∧
      (∀ off, off ≠ 0x008 → off ≠ 0x00C → t.csrRead off = State.reset.csrRead off) ∧
      (∀ a, (∀ o ∈ s.inflightOutputs, ¬ (o.base ≤ a ∧ a < o.base + o.bytes.length)) →
        t.opram.read a = s.opram.read a) ∧
      ∀ a, (∃ o ∈ s.inflightOutputs, o.base ≤ a ∧ a < o.base + o.bytes.length) → (t.opram.read a).isSome = true

/-- START while idle clears DONE, ERROR, the error registers and CMD_COUNT and sets BUSY, keeping the rest; while busy
it has no effect beyond the IRQ_EN bit of the same write. A CTRL write with neither START nor SOFT_RESET stores its IRQ_EN
bit, 1 or 0, busy or not, and changes nothing else (10_state.md R47, R48; 70_reset_and_hazards.md R262). -/
def Obligations.StartBeginsARun : Prop :=
  ∀ (s : State) (rest : List Turn) (v : Word), s.Unmarked → v.getLsbD 1 = false →
    s.agenda = .host (.csrWrite .b4 0x00C v) :: rest →
    (v.getLsbD 0 = true → s.busy = false → step s = .next { s with
      done := false, error := false, errCode := .none, errPtr := 0, errInfo := 0, cmdCount := 0, phase := .ready,
      irqEn := v.getLsbD 2, agenda := rest }) ∧
    (v.getLsbD 0 = true → s.busy = true → step s = .next { s with irqEn := v.getLsbD 2, agenda := rest }) ∧
    (v.getLsbD 0 = false → step s = .next { s with irqEn := v.getLsbD 2, agenda := rest })

/-- A STATUS write clears DONE and ERROR where their bits are written 1 and changes nothing else, the error registers
included (10_state.md R51). -/
def Obligations.StatusIsWriteOneToClear : Prop :=
  ∀ (s : State) (rest : List Turn) (v : Word), s.Unmarked → s.agenda = .host (.csrWrite .b4 0x010 v) :: rest →
    step s = .next { s with
      done := if v.getLsbD 1 then false else s.done
      error := if v.getLsbD 2 then false else s.error
      agenda := rest }

/-- CMD_PTR stores the full value while idle and ignores the write while BUSY (10_state.md R52). -/
def Obligations.CmdPtrWritesWhileIdle : Prop :=
  ∀ (s : State) (rest : List Turn) (v : Word), s.Unmarked → s.agenda = .host (.csrWrite .b4 0x014 v) :: rest →
    (s.busy = false → step s = .next { s with cmdPtr := v, agenda := rest }) ∧
    (s.busy = true → step s = .next { s with agenda := rest })

/-- MSM_WINDOW_CFG takes bits [3:0] of a write while idle if they do not exceed WMAX, and ignores the write entirely
otherwise (10_state.md R56). -/
def Obligations.WindowWritesAreLegal : Prop :=
  ∀ (s : State) (rest : List Turn) (v : Word), s.Unmarked → s.agenda = .host (.csrWrite .b4 0x028 v) :: rest →
    (s.busy = false → v.toNat % 16 ≤ s.cfg.wmax →
      step s = .next { s with window := v.setWidth 4, agenda := rest }) ∧
    (s.busy = true ∨ s.cfg.wmax < v.toNat % 16 → step s = .next { s with agenda := rest })

/-- A host read of any CSR changes nothing but its reply. What it returns: ID and VERSION, their constants; CTRL, IRQ_EN in bit 2; STATUS, BUSY, DONE and
ERROR in bits 0, 1 and 2; CMD_PTR and CMD_COUNT; ERR_CODE by number, ERR_PTR and ERR_INFO; WINDOW and MSM_LAST_W in bits
[3:0]; CAPS, WMAX, SMUL_W and OPRAM_LOG2; every other bit and reserved offsets zero. Writes to reserved offsets and to the
read-only registers are ignored (10_state.md R44 to R57, 60_exceptions.md R221). -/
def Obligations.CsrReadsHaveNoSideEffect : Prop :=
  ∀ (s : State) (rest : List Turn) (off : Nat), s.Unmarked → off % 4 = 0 → off < 0x1000 →
    (s.agenda = .host (.csrRead .b4 off) :: rest →
      step s = .next { s with replies := .csr (s.csrRead off) :: s.replies, agenda := rest }) ∧
    (0x030 ≤ off → s.csrRead off = 0) ∧
    (s.cfg.Valid → (s.csrRead 0x008).toNat = s.cfg.wmax + 16 * 4 + 256 * s.cfg.opramLog2) ∧
    (s.csrRead 0x00C).toNat = (if s.irqEn then 4 else 0) ∧
    (s.csrRead 0x010).toNat =
      (if s.busy then 1 else 0) + (if s.done then 2 else 0) + (if s.error then 4 else 0) ∧
    s.csrRead 0x000 = 0x4D534D31 ∧ s.csrRead 0x004 = 0x00010000 ∧
    s.csrRead 0x014 = s.cmdPtr ∧ s.csrRead 0x018 = s.cmdCount ∧
    (s.errCode, (s.csrRead 0x01C).toNat) ∈ errCodeTable ∧
    s.csrRead 0x020 = s.errPtr ∧ s.csrRead 0x024 = s.errInfo ∧
    (s.csrRead 0x028).toNat = s.window.toNat ∧ (s.csrRead 0x02C).toNat = s.lastW.toNat ∧
    ∀ v, off ∉ [0x00C, 0x010, 0x014, 0x028] → s.agenda = .host (.csrWrite .b4 off v) :: rest →
      step s = .next { s with agenda := rest }

/-- A CSR access that is not 32-bit and 4-byte aligned has no step (20_memory.md R99). -/
def Obligations.MisshapenCsrAccessHasNoStep : Prop :=
  ∀ (s : State) (rest : List Turn) (w : Width) (off : Nat) (v : Word), s.Unmarked → (w ≠ .b4 ∨ off % 4 ≠ 0) →
    (s.agenda = .host (.csrRead w off) :: rest → step s = .refused .csrAccessShape) ∧
    (s.agenda = .host (.csrWrite w off v) :: rest → step s = .refused .csrAccessShape)

/-- A host OPRAM read changes nothing but its reply, whose byte lanes are the stored bytes in ascending order, zero at
or beyond OPRAM_BYTES; a byte that is unwritten or in flight may be anything (20_memory.md R85, R97, R98, R104). -/
def Obligations.HostReadsItsByteLanes : Prop :=
  ∀ (s : State) (rest : List Turn) (w : Width) (a : Nat), s.Unmarked →
    s.agenda = .host (.opramRead w a) :: rest →
    ∃ v : BitVec 64, step s =
        .next { s with replies := .opram v :: s.replies, draws := s.draws + 1, agenda := rest } ∧
      v.toNat < 256 ^ w.bytes ∧
      ∀ i < w.bytes,
        (s.cfg.opramBytes ≤ a + i → v.toNat / 256 ^ i % 256 = 0) ∧
        (a + i < s.cfg.opramBytes →
          (∀ o ∈ s.inflightOutputs, ¬ (o.base ≤ a + i ∧ a + i < o.base + o.bytes.length)) →
          ∀ b, s.opram.read (a + i) = some b → v.toNat / 256 ^ i % 256 = b.toNat)

/-- A host OPRAM write stores its byte lanes in ascending order, drops those at or beyond OPRAM_BYTES and changes
nothing else; while BUSY it adds HOST_WRITE_WHILE_BUSY if it writes any byte (20_memory.md R85, R98,
70_reset_and_hazards.md R260). -/
def Obligations.HostWritesItsByteLanes : Prop :=
  ∀ (s : State) (rest : List Turn) (w : Width) (a : Nat) (v : BitVec 64), s.Unmarked →
    s.agenda = .host (.opramWrite w a v) :: rest →
    ∃ m, step s = .next { s with
        opram := m
        mfault := { s.mfault with hostWriteWhileBusy := s.busy && decide (a < s.cfg.opramBytes) }
        agenda := rest } ∧
      ∀ x, (a ≤ x ∧ x < a + w.bytes ∧ x < s.cfg.opramBytes →
          Memory.read m x = some (BitVec.ofNat 8 (v.toNat / 256 ^ (x - a)))) ∧
        (¬ (a ≤ x ∧ x < a + w.bytes ∧ x < s.cfg.opramBytes) → Memory.read m x = s.opram.read x)

/-- The interrupt line is IRQ_EN and (DONE or ERROR), 0 after reset; a run that stops with IRQ_EN set raises it, START
and a soft reset lower it (10_state.md R65, 60_exceptions.md R230). -/
def Obligations.InterruptLine : Prop :=
  State.reset.irq = false ∧
    ∀ s : State, s.irq = (s.irqEn && (s.done || s.error)) ∧ s.halt.irq = s.irqEn ∧
      (∀ e, (s.raiseError e).irq = s.irqEn) ∧ s.start.irq = false ∧ s.softReset.irq = false
end

