-- ==== Sys2Proof/Laws/Bytes.lean ====
section
/-! SUPPORT. The laws of the byte-order conversions and of the record layouts. -/

namespace Sys2Proof.Machine

@[simp] theorem leInt_nil : leInt [] = 0 := rfl

@[simp] theorem leInt_cons (b : Byte) (bs : List Byte) : leInt (b :: bs) = b.toNat + 256 * leInt bs := rfl

@[simp] theorem length_leBytes (k v : Nat) : (leBytes k v).length = k := by
  induction k generalizing v with
  | zero => rfl
  | succ k ih => simp [leBytes, ih]

@[simp] theorem length_beBytes (k v : Nat) : (beBytes k v).length = k := by simp [beBytes]

@[simp] theorem length_zeroBytes (k : Nat) : (zeroBytes k).length = k := by simp [zeroBytes]

/-- `le_int` of k bytes is below 256^k. -/
theorem leInt_lt (bs : List Byte) : leInt bs < 256 ^ bs.length := by
  induction bs with
  | nil => simp
  | cons b bs ih =>
    have := b.isLt
    simp only [leInt_cons, List.length_cons, Nat.pow_succ]
    omega

theorem beInt_lt (bs : List Byte) : beInt bs < 256 ^ bs.length := by
  simpa [beInt] using leInt_lt bs.reverse

/-- `le_int` undoes `le_bytes_k`, modulo 256^k. -/
theorem leInt_leBytes (k v : Nat) : leInt (leBytes k v) = v % 256 ^ k := by
  induction k generalizing v with
  | zero => simp [leBytes, Nat.mod_one]
  | succ k ih =>
    simp only [leBytes, leInt_cons, ih, BitVec.toNat_ofNat]
    have h : (256 : Nat) ^ (k + 1) = 256 * 256 ^ k := by ring
    rw [h, Nat.mod_mul]

theorem beInt_beBytes (k v : Nat) : beInt (beBytes k v) = v % 256 ^ k := by
  simp [beInt, beBytes, leInt_leBytes]

theorem beInt_beBytes_of_lt (k v : Nat) (h : v < 256 ^ k) : beInt (beBytes k v) = v := by
  rw [beInt_beBytes, Nat.mod_eq_of_lt h]

/-- `le_bytes_k` undoes `le_int`. -/
theorem leBytes_leInt (bs : List Byte) : leBytes bs.length (leInt bs) = bs := by
  induction bs with
  | nil => rfl
  | cons b bs ih =>
    have hb := b.isLt
    have h1 : (b.toNat + 256 * leInt bs) / 256 = leInt bs := by omega
    have h2 : BitVec.ofNat 8 (b.toNat + 256 * leInt bs) = b := by
      apply BitVec.eq_of_toNat_eq
      simp only [BitVec.toNat_ofNat]
      omega
    simp [leBytes, h1, h2, ih]

theorem beBytes_beInt (bs : List Byte) : beBytes bs.length (beInt bs) = bs := by
  have := leBytes_leInt bs.reverse
  rw [List.length_reverse] at this
  simp [beBytes, beInt, this]

theorem leInt_injective {bs cs : List Byte} (hl : bs.length = cs.length) (h : leInt bs = leInt cs) : bs = cs := by
  rw [← leBytes_leInt bs, ← leBytes_leInt cs, hl, h]

theorem leInt_append (bs cs : List Byte) : leInt (bs ++ cs) = leInt bs + 256 ^ bs.length * leInt cs := by
  induction bs with
  | nil => simp
  | cons b bs ih =>
    simp only [List.cons_append, leInt_cons, ih, List.length_cons, Nat.pow_succ]
    ring

theorem beInt_append (bs cs : List Byte) : beInt (bs ++ cs) = beInt bs * 256 ^ cs.length + beInt cs := by
  simp only [beInt, List.reverse_append, leInt_append, List.length_reverse]
  ring

/-! Slices of concatenated fields. -/

theorem length_byteSlice (bs : List Byte) (off n : Nat) (h : off + n ≤ bs.length) :
    (byteSlice bs off n).length = n := by
  simp [byteSlice]; omega

/-- The first field of a record. -/
theorem byteSlice_append_left (bs cs : List Byte) (n : Nat) (h : bs.length = n) : byteSlice (bs ++ cs) 0 n = bs := by
  simp [byteSlice, ← h]

/-- A field past the first one. -/
theorem byteSlice_append_right (bs cs : List Byte) (off n : Nat) (h : bs.length ≤ off) :
    byteSlice (bs ++ cs) off n = byteSlice cs (off - bs.length) n := by
  simp [byteSlice, List.drop_append, List.drop_eq_nil_of_le h]

theorem byteSlice_self (bs : List Byte) (n : Nat) (h : bs.length = n) : byteSlice bs 0 n = bs := by
  simp [byteSlice, ← h]

@[simp] theorem length_affBytes (q : Point) : (affBytes q).length = 128 := by
  cases q <;> simp [affBytes]

/-- The fields of the record the engine writes for a finite point (20_memory.md R92). -/
theorem affineX_affBytes (x y : Nat) (h : x < 256 ^ 48) : affineX (affBytes (.fin x y)) = x := by
  have : byteSlice (affBytes (.fin x y)) 0 48 = beBytes 48 x := by
    simp only [affBytes, List.append_assoc]
    exact byteSlice_append_left _ _ _ (by simp)
  rw [affineX, this, beInt_beBytes_of_lt _ _ h]

theorem affineY_affBytes (x y : Nat) (h : y < 256 ^ 48) : affineY (affBytes (.fin x y)) = y := by
  have : byteSlice (affBytes (.fin x y)) 48 48 = beBytes 48 y := by
    simp only [affBytes, List.append_assoc]
    rw [byteSlice_append_right _ _ _ _ (by simp)]
    simpa using byteSlice_append_left (beBytes 48 y) _ 48 (by simp)
  rw [affineY, this, beInt_beBytes_of_lt _ _ h]

theorem affineInf_affBytes_fin (x y : Nat) : affineInf (affBytes (.fin x y)) = 0 := by
  have : byteSlice (affBytes (.fin x y)) 96 1 = [0] := by
    simp only [affBytes, List.append_assoc]
    rw [byteSlice_append_right _ _ _ _ (by simp), byteSlice_append_right _ _ _ _ (by simp)]
    simp [byteSlice]
  rw [affineInf, this]; rfl

theorem affineInf_affBytes_inf : affineInf (affBytes .inf) = 1 := by decide +kernel

/-- `collect` succeeds with a list of the same length. -/
theorem collect_length {α : Type} (l : List (Except Error α)) (xs : List α) (h : collect l = .ok xs) :
    xs.length = l.length := by
  induction l generalizing xs with
  | nil => cases h; rfl
  | cons x l ih =>
    cases x with
    | error e => cases h
    | ok x =>
      unfold collect at h
      cases hc : collect l with
      | error e => rw [hc] at h; cases h
      | ok ys => rw [hc] at h; cases h; simp [ih ys hc]

/-- `collect` succeeds exactly when every entry does. -/
theorem collect_eq_ok_iff {α : Type} (l : List (Except Error α)) (xs : List α) :
    collect l = .ok xs ↔ l = xs.map .ok := by
  induction l generalizing xs with
  | nil => cases xs <;> simp [collect]
  | cons x l ih =>
    cases x with
    | error e => cases xs <;> simp [collect]
    | ok x =>
      unfold collect
      cases hc : collect l with
      | error e =>
        simp only [Except.map, reduceCtorEq, false_iff]
        intro h
        cases xs with
        | nil => cases h
        | cons y ys =>
          simp only [List.map_cons, List.cons.injEq] at h
          have := (ih ys).2 h.2
          rw [hc] at this; cases this
      | ok zs =>
        have hz := (ih zs).1 hc
        simp only [Except.map, Except.ok.injEq]
        constructor
        · rintro rfl; simp [hz]
        · intro h
          cases xs with
          | nil => cases h
          | cons y ys =>
            simp only [List.map_cons, List.cons.injEq, Except.ok.injEq] at h
            have := (ih ys).2 h.2
            rw [hc] at this
            cases this
            rw [h.1]

/-- `collect` fails with the error of the first entry that fails. -/
theorem collect_eq_error_iff {α : Type} (l : List (Except Error α)) (e : Error) :
    collect l = .error e ↔ ∃ xs rest, l = List.map Except.ok xs ++ .error e :: rest := by
  induction l with
  | nil => simp [collect]
  | cons x l ih =>
    cases x with
    | error e' =>
      simp only [collect, Except.error.injEq]
      constructor
      · rintro rfl; exact ⟨[], l, rfl⟩
      · rintro ⟨xs, rest, h⟩
        cases xs with
        | nil => simp at h; exact h.1
        | cons y ys => simp at h
    | ok x =>
      unfold collect
      constructor
      · intro h
        cases hc : collect l with
        | ok ys => rw [hc] at h; cases h
        | error e' =>
          rw [hc] at h
          have he : e' = e := by simpa [Except.map] using h
          subst he
          obtain ⟨xs, rest, hl⟩ := ih.1 hc
          exact ⟨x :: xs, rest, by simp [hl]⟩
      · rintro ⟨xs, rest, h⟩
        cases xs with
        | nil => simp at h
        | cons y ys =>
          simp only [List.map_cons, List.cons_append, List.cons.injEq, Except.ok.injEq] at h
          rw [ih.2 ⟨ys, rest, h.2⟩]
          rfl

theorem readElements_length {α : Type} (n size : Nat) (bs : List Byte) (read : Nat → List Byte → Except Error α)
    (xs : List α) (h : readElements n size bs read = .ok xs) : xs.length = n := by
  have := collect_length _ _ h
  simpa using this

end Sys2Proof.Machine
end

