-- ==== Sys2Proof/Laws/Field.lean ====
section
/-! SUPPORT. The field operations are those of Z/p: their values in `ZMod p`, their ranges, exponentiation, the inverse
and the square root for a prime p. -/

namespace Sys2Proof.Machine

theorem powModFuel_eq (p b fuel e : Nat) (h : e < 2 ^ fuel) : powModFuel p b fuel e = b ^ e % p := by
  induction fuel generalizing e with
  | zero => have : e = 0 := by simpa using h
            subst this; simp [powModFuel]
  | succ fuel ih =>
    unfold powModFuel
    split
    · rename_i he; subst he; simp
    · have hlt : e / 2 < 2 ^ fuel := by rw [Nat.pow_succ] at h; omega
      simp only [ih _ hlt, fpSqr, fpMul]
      have hsq : (b ^ (e / 2) % p) * (b ^ (e / 2) % p) % p = b ^ (2 * (e / 2)) % p := by
        rw [← Nat.mul_mod, ← Nat.pow_add]; congr 2; omega
      split
      · rename_i ho
        rw [hsq]
        have he : e = 2 * (e / 2) + 1 := by omega
        conv_rhs => rw [he, Nat.pow_succ]
        rw [Nat.mod_mul_mod]
      · rename_i ho
        rw [hsq]
        congr 2; omega

/-- Exponentiation modulo p. -/
theorem powMod_eq (p b e : Nat) : powMod p b e = b ^ e % p :=
  powModFuel_eq p b _ e Nat.lt_log2_self

/-! Values in `ZMod p`. -/

variable {p : Nat}

@[simp] theorem cast_fpAdd (a b : Nat) : (fpAdd p a b : ZMod p) = a + b := by simp [fpAdd]

@[simp] theorem cast_fpMul (a b : Nat) : (fpMul p a b : ZMod p) = a * b := by simp [fpMul]

@[simp] theorem cast_fpSqr (a : Nat) : (fpSqr p a : ZMod p) = (a : ZMod p) ^ 2 := by simp [fpSqr, sq]

@[simp] theorem cast_fpSub [NeZero p] (a b : Nat) : (fpSub p a b : ZMod p) = a - b := by
  have hb : b % p ≤ p := (Nat.mod_lt _ (Nat.pos_of_ne_zero (NeZero.ne p))).le
  simp [fpSub, Nat.cast_sub hb, sub_eq_add_neg]

@[simp] theorem cast_fpNeg [NeZero p] (a : Nat) : (fpNeg p a : ZMod p) = -a := by
  have ha : a % p ≤ p := (Nat.mod_lt _ (Nat.pos_of_ne_zero (NeZero.ne p))).le
  simp [fpNeg, Nat.cast_sub ha]

@[simp] theorem cast_powMod (b e : Nat) : (powMod p b e : ZMod p) = (b : ZMod p) ^ e := by simp [powMod_eq]

/-! Every result is canonical. -/

theorem fpAdd_lt (a b : Nat) (h : 0 < p) : fpAdd p a b < p := Nat.mod_lt _ h
theorem fpMul_lt (a b : Nat) (h : 0 < p) : fpMul p a b < p := Nat.mod_lt _ h
theorem fpSqr_lt (a : Nat) (h : 0 < p) : fpSqr p a < p := Nat.mod_lt _ h
theorem fpSub_lt (a b : Nat) (h : 0 < p) : fpSub p a b < p := Nat.mod_lt _ h
theorem fpNeg_lt (a : Nat) (h : 0 < p) : fpNeg p a < p := Nat.mod_lt _ h
theorem powMod_lt (b e : Nat) (h : 0 < p) : powMod p b e < p := by rw [powMod_eq]; exact Nat.mod_lt _ h

/-- Canonical elements are equal iff their values in `ZMod p` are. -/
theorem cast_inj_of_lt {a b : Nat} (ha : a < p) (hb : b < p) : (a : ZMod p) = b ↔ a = b := by
  rw [ZMod.natCast_eq_natCast_iff, Nat.ModEq, Nat.mod_eq_of_lt ha, Nat.mod_eq_of_lt hb]

theorem cast_eq_zero_of_lt {a : Nat} (ha : a < p) : (a : ZMod p) = 0 ↔ a = 0 := by
  rw [ZMod.natCast_eq_zero_iff]
  exact ⟨fun h => Nat.eq_zero_of_dvd_of_lt h ha, fun h => h ▸ dvd_zero p⟩

/-- FpInv is the inverse of `ZMod p`, 0 included (R20). -/
theorem cast_fpInv [Fact p.Prime] (a : Nat) (h2 : 2 < p) : (fpInv p a : ZMod p) = (a : ZMod p)⁻¹ := by
  rw [fpInv, cast_powMod]
  by_cases ha : (a : ZMod p) = 0
  · rw [ha, inv_zero, zero_pow (by omega)]
  · have h1 : (a : ZMod p) ^ (p - 1) = 1 := ZMod.pow_card_sub_one_eq_one ha
    have h3 : (a : ZMod p) ^ (p - 2) * a = 1 := by
      rw [← pow_succ]; rw [show p - 2 + 1 = p - 1 by omega]; exact h1
    exact eq_inv_of_mul_eq_one_left h3

theorem fpInv_lt (a : Nat) (h : 0 < p) : fpInv p a < p := powMod_lt _ _ h

/-- Where a square root exists, its square is restored by `fpRoot` (R21). -/
theorem sq_fpRoot_of_square [Fact p.Prime] (h : p % 4 = 3) (y : ZMod p) (a : Nat) (ha : y ^ 2 = a) :
    (fpRoot p a : ZMod p) ^ 2 = a := by
  rw [fpRoot, cast_powMod, ← pow_mul, ← ha, ← pow_mul]
  have h1 : 2 * ((p + 1) / 4 * 2) = p + 1 := by omega
  rw [h1, pow_succ, ZMod.pow_card, sq]

theorem fpSqr_eq_iff_cast (a t : Nat) (h : 0 < p) (ht : t < p) : fpSqr p a = t ↔ (a : ZMod p) ^ 2 = t := by
  rw [← cast_inj_of_lt (fpSqr_lt a h) ht, cast_fpSqr]

/-- FpIsSquare decides whether a canonical root exists (R21). -/
theorem fpIsSquare_iff [Fact p.Prime] (h : p % 4 = 3) (a : Nat) (ha : a < p) :
    fpIsSquare p a = true ↔ ∃ y < p, fpSqr p y = a := by
  have hp : 0 < p := by omega
  constructor
  · intro hs
    exact ⟨fpRoot p a, powMod_lt _ _ hp, by simpa [fpIsSquare] using hs⟩
  · rintro ⟨y, _, hy⟩
    have hy' := (fpSqr_eq_iff_cast y a hp ha).1 hy
    have := sq_fpRoot_of_square h (y : ZMod p) a hy'
    simpa [fpIsSquare] using (fpSqr_eq_iff_cast (fpRoot p a) a hp ha).2 this

/-- OnCurve in `ZMod p` (R23). -/
theorem onCurve_iff (cv : Curve) (x y : Nat) (h : 0 < cv.p) :
    onCurve cv x y = true ↔ (y : ZMod cv.p) ^ 2 = (x : ZMod cv.p) ^ 3 + cv.b := by
  have : curveRhs cv x < cv.p := fpAdd_lt _ _ h
  rw [onCurve, beq_iff_eq, fpSqr_eq_iff_cast y _ h this]
  simp [curveRhs, pow_succ]

end Sys2Proof.Machine
end

