-- ==== Sys2Proof/Laws/Curve.lean ====
section
/-! SUPPORT. The points of the model are those of Mathlib's Weierstrass curve y^2 = x^3 + b over `ZMod p`, with the same
addition: what a group law of E(F_p) is proved from (00_scope.md R23 to R26). -/

namespace Sys2Proof.Machine

/-- The curve y^2 = x^3 + b over `ZMod p`. -/
def weierstrass (cv : Curve) : WeierstrassCurve.Affine (ZMod cv.p) where
  a₁ := 0
  a₂ := 0
  a₃ := 0
  a₄ := 0
  a₆ := cv.b

variable {cv : Curve}

theorem elliptic_p_pos (h : cv.Elliptic) : 0 < cv.p := by have := h.above_three; omega

/-- The small numbers 2 and 3 are not 0 in `ZMod p`, nor is b. -/
theorem small_ne_zero (h : cv.Elliptic) : (2 : ZMod cv.p) ≠ 0 ∧ (3 : ZMod cv.p) ≠ 0 ∧ (cv.b : ZMod cv.p) ≠ 0 := by
  have h3 := h.above_three
  refine ⟨?_, ?_, ?_⟩
  · have := mt (cast_eq_zero_of_lt (p := cv.p) (a := 2) (by omega)).1 (by decide)
    simpa using this
  · have := mt (cast_eq_zero_of_lt (p := cv.p) (a := 3) (by omega)).1 (by decide)
    simpa using this
  · exact mt (cast_eq_zero_of_lt h.b_lt).1 (by have := h.b_pos; omega)

theorem weierstrass_equation_iff (x y : ZMod cv.p) :
    (weierstrass cv).Equation x y ↔ y ^ 2 = x ^ 3 + cv.b := by
  rw [WeierstrassCurve.Affine.equation_iff]
  simp [weierstrass]

/-- Every point that satisfies the equation is nonsingular. -/
theorem weierstrass_nonsingular [Fact cv.p.Prime] (h : cv.Elliptic) {x y : ZMod cv.p} (he : y ^ 2 = x ^ 3 + cv.b) :
    (weierstrass cv).Nonsingular x y := by
  obtain ⟨h2, h3, hb⟩ := small_ne_zero h
  rw [WeierstrassCurve.Affine.nonsingular_iff]
  refine ⟨(weierstrass_equation_iff x y).2 he, ?_⟩
  simp only [weierstrass, zero_mul, mul_zero, add_zero, sub_zero]
  by_contra hc
  simp only [not_or, ne_eq, not_not] at hc
  obtain ⟨hx, hy⟩ := hc
  have hy0 : y = 0 := by
    have : (2 : ZMod cv.p) * y = 0 := by linear_combination hy
    rcases mul_eq_zero.1 this with h' | h'
    · exact absurd h' h2
    · exact h'
  have hx0 : x = 0 := by
    have : (3 : ZMod cv.p) * (x * x) = 0 := by linear_combination -hx
    rcases mul_eq_zero.1 this with h' | h'
    · exact absurd h' h3
    · exact mul_self_eq_zero.1 h'
  rw [hx0, hy0] at he
  apply hb
  simpa using he.symm

/-- A point of the model stands for a point of Mathlib's curve: O for 0, a canonical pair for its value. -/
inductive Stands (cv : Curve) : Point → (weierstrass cv).Point → Prop
  | inf : Stands cv .inf .zero
  | fin (x y : Nat) (x' y' : ZMod cv.p) (h : (weierstrass cv).Nonsingular x' y') (hx : x < cv.p) (hy : y < cv.p)
      (ex : (x : ZMod cv.p) = x') (ey : (y : ZMod cv.p) = y') : Stands cv (.fin x y) (.some x' y' h)

/-- O stands for 0. -/
theorem Stands.zero : Stands cv .inf 0 := Stands.inf

/-- Every point of E(F_p) stands for one. -/
theorem Stands.of_onCurve [Fact cv.p.Prime] (h : cv.Elliptic) {q : Point} (hq : pointOnCurve cv q) :
    ∃ q', Stands cv q q' := by
  cases q with
  | inf => exact ⟨_, .inf⟩
  | fin x y =>
    obtain ⟨hx, hy, he⟩ := hq
    have he' := (onCurve_iff cv x y (elliptic_p_pos h)).1 he
    exact ⟨_, .fin x y _ _ (weierstrass_nonsingular h he') hx hy rfl rfl⟩

/-- A point that stands for one lies in E(F_p). -/
theorem Stands.onCurve (h : cv.Elliptic) {q : Point} {q' : (weierstrass cv).Point} (hq : Stands cv q q') :
    pointOnCurve cv q := by
  cases hq with
  | inf => trivial
  | fin x y x' y' hn hx hy ex ey =>
    subst ex; subst ey
    refine ⟨hx, hy, (onCurve_iff cv x y (elliptic_p_pos h)).2 ?_⟩
    exact (weierstrass_equation_iff _ _).1 hn.1

/-- A point of the model is determined by the point it stands for. -/
theorem Stands.injective {q t : Point} {q' : (weierstrass cv).Point} (hq : Stands cv q q') (ht : Stands cv t q') :
    q = t := by
  cases hq with
  | inf => cases ht with | inf => rfl
  | fin x y x' y' hn hx hy ex ey =>
    cases ht with
    | fin x2 y2 _ _ _ hx2 hy2 ex2 ey2 =>
      rw [(cast_inj_of_lt hx hx2).1 (ex.trans ex2.symm), (cast_inj_of_lt hy hy2).1 (ey.trans ey2.symm)]

/-- Two points of Mathlib's curve that one point of the model stands for are equal. -/
theorem Stands.unique {q : Point} {q' t' : (weierstrass cv).Point} (hq : Stands cv q q') (ht : Stands cv q t') :
    q' = t' := by
  cases hq with
  | inf => cases ht with | inf => rfl
  | fin x y x' y' hn hx hy ex ey =>
    cases ht with
    | fin _ _ x2 y2 hn2 _ _ ex2 ey2 => subst ex; subst ey; subst ex2; subst ey2; rfl

variable [Fact cv.p.Prime]

/-- The slope of R25 is Mathlib's, for points that are not opposite. -/
theorem cast_slope (h : cv.Elliptic) {x1 y1 x2 y2 : Nat} (hx1 : x1 < cv.p) (hx2 : x2 < cv.p)
    (hn : ¬ ((x1 : ZMod cv.p) = x2 ∧ (y1 : ZMod cv.p) = -y2)) :
    (slope cv x1 y1 x2 y2 : ZMod cv.p) = (weierstrass cv).slope (x1 : ZMod cv.p) x2 y1 y2 := by
  have h2 : 2 < cv.p := by have := h.above_three; omega
  have : NeZero cv.p := ⟨by omega⟩
  unfold slope
  split
  · rename_i hx
    subst hx
    have hy : (y1 : ZMod cv.p) ≠ (weierstrass cv).negY x1 y2 := by
      simp only [WeierstrassCurve.Affine.negY, weierstrass]
      intro hc
      exact hn ⟨rfl, by linear_combination hc⟩
    rw [WeierstrassCurve.Affine.slope_of_Y_ne rfl hy]
    simp only [cast_fpMul, cast_fpSqr, cast_fpInv _ h2, weierstrass, WeierstrassCurve.Affine.negY]
    rw [div_eq_mul_inv]
    congr 1
    · push_cast; ring
    · push_cast; ring
  · rename_i hx
    have hx' : (x1 : ZMod cv.p) ≠ x2 := fun hc => hx ((cast_inj_of_lt hx1 hx2).1 hc)
    rw [WeierstrassCurve.Affine.slope_of_X_ne hx']
    simp only [cast_fpMul, cast_fpSub, cast_fpInv _ h2]
    rw [← div_eq_mul_inv, ← neg_sub (y1 : ZMod cv.p), ← neg_sub (x1 : ZMod cv.p), neg_div_neg_eq]

/-- PointAdd is the addition of Mathlib's curve (R25). -/
theorem Stands.add (h : cv.Elliptic) {q t : Point} {q' t' : (weierstrass cv).Point} (hq : Stands cv q q')
    (ht : Stands cv t t') : Stands cv (pointAdd cv q t) (q' + t') := by
  have hp := (elliptic_p_pos h)
  have : NeZero cv.p := ⟨by omega⟩
  cases hq with
  | inf =>
    have : (WeierstrassCurve.Affine.Point.zero : (weierstrass cv).Point) + t' = t' := zero_add t'
    rw [this]; exact ht
  | fin x1 y1 x1' y1' hn1 hx1 hy1 ex1 ey1 =>
    subst ex1; subst ey1
    cases ht with
    | inf =>
      have : WeierstrassCurve.Affine.Point.some _ _ hn1 +
          (WeierstrassCurve.Affine.Point.zero : (weierstrass cv).Point) = .some _ _ hn1 := add_zero _
      rw [this]; exact .fin x1 y1 _ _ hn1 hx1 hy1 rfl rfl
    | fin x2 y2 x2' y2' hn2 hx2 hy2 ex2 ey2 =>
      subst ex2; subst ey2
      have hneg : (weierstrass cv).negY (x2 : ZMod cv.p) (y2 : ZMod cv.p) = -y2 := by
        simp [WeierstrassCurve.Affine.negY, weierstrass]
      have hopp : (x1 = x2 ∧ fpAdd cv.p y1 y2 = 0) ↔
          ((x1 : ZMod cv.p) = x2 ∧ (y1 : ZMod cv.p) = -y2) := by
        rw [cast_inj_of_lt hx1 hx2, ← cast_eq_zero_of_lt (fpAdd_lt y1 y2 hp), cast_fpAdd, eq_neg_iff_add_eq_zero]
      show Stands cv (if x1 = x2 ∧ fpAdd cv.p y1 y2 = 0 then .inf
        else chordPoint cv (slope cv x1 y1 x2 y2) x1 y1 x2) _
      split
      · rename_i hc
        have hc' := hopp.1 hc
        rw [WeierstrassCurve.Affine.Point.add_of_Y_eq hc'.1 (by rw [hneg]; exact hc'.2)]
        exact .inf
      · rename_i hc
        have hc' : ¬ ((x1 : ZMod cv.p) = x2 ∧ (y1 : ZMod cv.p) = -y2) := fun hc' => hc (hopp.2 hc')
        have hxy : ¬ ((x1 : ZMod cv.p) = x2 ∧ (y1 : ZMod cv.p) = (weierstrass cv).negY x2 y2) := by
          rw [hneg]; exact hc'
        rw [WeierstrassCurve.Affine.Point.add_some hxy]
        have hs := cast_slope h hx1 hx2 hc'
        refine .fin _ _ _ _ _ (fpSub_lt _ _ hp) (fpSub_lt _ _ hp) ?_ ?_
        · simp only [cast_fpSub, cast_fpSqr, hs, WeierstrassCurve.Affine.addX, weierstrass]
          ring
        · simp only [cast_fpSub, cast_fpSqr, cast_fpMul, hs, WeierstrassCurve.Affine.addY,
            WeierstrassCurve.Affine.negY, WeierstrassCurve.Affine.negAddY, WeierstrassCurve.Affine.addX,
            weierstrass]
          ring

/-- PointNeg is the negation of Mathlib's curve (R24). -/
theorem Stands.neg (h : cv.Elliptic) {q : Point} {q' : (weierstrass cv).Point} (hq : Stands cv q q') :
    Stands cv (pointNeg cv q) (-q') := by
  have hp := (elliptic_p_pos h)
  have : NeZero cv.p := ⟨by omega⟩
  cases hq with
  | inf => exact .inf
  | fin x y x' y' hn hx hy ex ey =>
    subst ex; subst ey
    rw [WeierstrassCurve.Affine.Point.neg_some]
    refine .fin _ _ _ _ _ hx (fpNeg_lt _ hp) rfl ?_
    simp [WeierstrassCurve.Affine.negY, weierstrass]

/-- n doublings multiply by 2^n. -/
theorem Stands.dblTimes (h : cv.Elliptic) (n : Nat) {q : Point} {q' : (weierstrass cv).Point} (hq : Stands cv q q') :
    Stands cv (pointDblTimes cv n q) ((2 ^ n) • q') := by
  induction n generalizing q q' with
  | zero => rw [pow_zero, one_nsmul]; exact hq
  | succ n ih =>
    have := ih (hq.add h hq)
    rw [pow_succ', mul_nsmul, two_nsmul]
    exact this

/-- k * P by repeated addition is the multiple of Mathlib's curve (R26). -/
theorem Stands.mul (h : cv.Elliptic) (k : Nat) {q : Point} {q' : (weierstrass cv).Point} (hq : Stands cv q q') :
    Stands cv (pointMul cv k q) (k • q') := by
  induction k with
  | zero => rw [zero_nsmul]; exact .zero
  | succ k ih => rw [succ_nsmul]; exact ih.add h hq

end Sys2Proof.Machine
end

