-- ==== Sys2Proof/Laws/Memory.lean ====
section
/-! SUPPORT. The laws of OPRAM: read after write, the canonical form and its uniqueness, the bound. -/

namespace Sys2Proof.Machine

@[simp] theorem Memory.read_nil (a : Nat) : Memory.read [] a = none := rfl

@[simp] theorem Memory.read_cons (k : Nat) (b : Byte) (m : Memory) (a : Nat) :
    Memory.read ((k, b) :: m) a = if k = a then some b else m.read a := rfl

/-- A write to one byte is read back there and leaves every other byte alone. -/
theorem Memory.read_write (m : Memory) (a x : Nat) (b : Byte) :
    (m.write a b).read x = if x = a then some b else m.read x := by
  induction m with
  | nil => simp [Memory.write, eq_comm]
  | cons c m ih =>
    obtain ⟨k, c⟩ := c
    unfold Memory.write
    split
    · simp [eq_comm]
    · split
      · subst_vars
        by_cases h : x = k <;> simp [h, eq_comm]
      · rename_i h1 h2
        by_cases h : k = x
        · subst h
          simp [Ne.symm h2]
        · simp [h, ih]

@[simp] theorem Memory.read_write_same (m : Memory) (a : Nat) (b : Byte) : (m.write a b).read a = some b := by
  simp [Memory.read_write]

theorem Memory.read_write_other (m : Memory) {a x : Nat} (b : Byte) (h : x ≠ a) :
    (m.write a b).read x = m.read x := by
  simp [Memory.read_write, h]

@[simp] theorem Memory.writeBytes_nil (m : Memory) (a : Nat) : m.writeBytes a [] = m := rfl

@[simp] theorem Memory.writeBytes_cons (m : Memory) (a : Nat) (b : Byte) (bs : List Byte) :
    m.writeBytes a (b :: bs) = (m.write a b).writeBytes (a + 1) bs := rfl

/-- Outside the bytes written, a block write changes nothing. -/
theorem Memory.read_writeBytes_outside (m : Memory) (a x : Nat) (bs : List Byte)
    (h : x < a ∨ a + bs.length ≤ x) : (m.writeBytes a bs).read x = m.read x := by
  induction bs generalizing m a with
  | nil => rfl
  | cons b bs ih =>
    simp only [List.length_cons] at h
    rw [Memory.writeBytes_cons, ih _ _ (by omega), Memory.read_write_other _ _ (by omega)]

/-- Inside the bytes written, a block write is read back. -/
theorem Memory.read_writeBytes_inside (m : Memory) (a i : Nat) (bs : List Byte) (h : i < bs.length) :
    (m.writeBytes a bs).read (a + i) = some bs[i] := by
  induction bs generalizing m a i with
  | nil => simp at h
  | cons b bs ih =>
    rw [Memory.writeBytes_cons]
    cases i with
    | zero =>
      rw [Memory.read_writeBytes_outside _ _ _ _ (by omega)]
      simp
    | succ i =>
      have h' : i < bs.length := by simpa using h
      have := ih (m.write a b) (a + 1) i h'
      simpa [Nat.add_assoc, Nat.add_comm 1 i] using this

/-- A block write, byte by byte. -/
theorem Memory.read_writeBytes (m : Memory) (a x : Nat) (bs : List Byte) :
    (m.writeBytes a bs).read x =
      if h : a ≤ x ∧ x < a + bs.length then some (bs[x - a]'(by omega)) else m.read x := by
  split
  · rename_i h
    have := Memory.read_writeBytes_inside m a (x - a) bs (by omega)
    rwa [Nat.add_sub_cancel' h.1] at this
  · exact Memory.read_writeBytes_outside _ _ _ _ (by omega)

@[simp] theorem Memory.writeOutputs_nil (m : Memory) : m.writeOutputs [] = m := rfl

@[simp] theorem Memory.writeOutputs_cons (m : Memory) (o : Output) (os : List Output) :
    m.writeOutputs (o :: os) = (m.writeBytes o.base o.bytes).writeOutputs os := rfl

theorem Region.contains_iff (r : Region) (a : Nat) : r.contains a = true ↔ r.base ≤ a ∧ a < r.base + r.len := by
  simp [Region.contains]

/-- Outside every output region, the commit changes nothing. -/
theorem Memory.read_writeOutputs_outside (m : Memory) (os : List Output) (x : Nat)
    (h : ∀ o ∈ os, o.region.contains x = false) : (m.writeOutputs os).read x = m.read x := by
  induction os generalizing m with
  | nil => rfl
  | cons o os ih =>
    rw [Memory.writeOutputs_cons, ih _ (fun o' ho' => h o' (List.mem_cons_of_mem _ ho'))]
    have hx := h o List.mem_cons_self
    have : ¬ (o.base ≤ x ∧ x < o.base + o.bytes.length) := by
      intro hc
      have := (Region.contains_iff o.region x).2 hc
      simp [this] at hx
    exact Memory.read_writeBytes_outside _ _ _ _ (by omega)

/-! The canonical form. -/

/-- Every address of the list is above the given one. -/
def Memory.above (m : Memory) (a : Nat) : Prop := ∀ c ∈ m, a < c.1

theorem Memory.wf_cons_iff (k : Nat) (b : Byte) (m : Memory) :
    Memory.wf ((k, b) :: m) = true ↔ m.above k ∧ m.wf = true := by
  induction m generalizing k b with
  | nil => simp [Memory.wf, Memory.above]
  | cons c m ih =>
    obtain ⟨k', b'⟩ := c
    have unf : Memory.wf ((k, b) :: (k', b') :: m) = (decide (k < k') && Memory.wf ((k', b') :: m)) := rfl
    rw [unf, Bool.and_eq_true, decide_eq_true_eq]
    constructor
    · rintro ⟨hk, hw⟩
      refine ⟨?_, hw⟩
      intro c hc
      rcases List.mem_cons.1 hc with rfl | hc
      · exact hk
      · exact Nat.lt_trans hk (((ih k' b').1 hw).1 c hc)
    · rintro ⟨ha, hw⟩
      exact ⟨ha _ List.mem_cons_self, hw⟩

theorem Memory.above_write (m : Memory) (k a : Nat) (b : Byte) (h : m.above k) (ha : k < a) :
    (m.write a b).above k := by
  induction m with
  | nil => intro c hc; simp [Memory.write] at hc; simpa [hc] using ha
  | cons c m ih =>
    obtain ⟨k', b'⟩ := c
    have hm : Memory.above m k := fun c hc => h c (List.mem_cons_of_mem _ hc)
    unfold Memory.write
    split
    · intro c hc
      rcases List.mem_cons.1 hc with rfl | hc
      · exact ha
      · exact h c hc
    · split
      · intro c hc
        rcases List.mem_cons.1 hc with rfl | hc
        · exact ha
        · exact hm c hc
      · intro c hc
        rcases List.mem_cons.1 hc with rfl | hc
        · exact h _ List.mem_cons_self
        · exact ih hm c hc

/-- A write keeps the canonical form. -/
theorem Memory.wf_write (m : Memory) (a : Nat) (b : Byte) (h : m.wf = true) : (m.write a b).wf = true := by
  induction m with
  | nil => rfl
  | cons c m ih =>
    obtain ⟨k, b'⟩ := c
    have hk := (Memory.wf_cons_iff k b' m).1 h
    unfold Memory.write
    split
    · rename_i hlt
      refine (Memory.wf_cons_iff a b _).2 ⟨?_, h⟩
      intro c hc
      rcases List.mem_cons.1 hc with rfl | hc
      · exact hlt
      · exact Nat.lt_trans hlt (hk.1 c hc)
    · split
      · rename_i heq
        subst heq
        exact (Memory.wf_cons_iff a b m).2 hk
      · exact (Memory.wf_cons_iff k b' _).2 ⟨Memory.above_write m k a b hk.1 (by omega), ih hk.2⟩

theorem Memory.wf_writeBytes (m : Memory) (a : Nat) (bs : List Byte) (h : m.wf = true) :
    (m.writeBytes a bs).wf = true := by
  induction bs generalizing m a with
  | nil => exact h
  | cons b bs ih => exact ih _ _ (Memory.wf_write m a b h)

theorem Memory.wf_writeOutputs (m : Memory) (os : List Output) (h : m.wf = true) : (m.writeOutputs os).wf = true := by
  induction os generalizing m with
  | nil => exact h
  | cons o os ih => exact ih _ (Memory.wf_writeBytes m o.base o.bytes h)

theorem Memory.wf_hostStore (bound : Nat) (m : Memory) (a : Nat) (bs : List Byte) (h : m.wf = true) :
    (hostStore bound m a bs).wf = true := by
  induction bs generalizing m a with
  | nil => exact h
  | cons b bs ih =>
    refine ih _ _ ?_
    split
    · exact Memory.wf_write m a b h
    · exact h

/-- The memory after reset is in canonical form. -/
theorem State.reset_opram_wf : State.reset.opram.wf = true := rfl

/-- An aborted command leaves the canonical form as it was (70_reset_and_hazards.md R253). -/
theorem State.softReset_opram_wf (s : State) (h : s.opram.wf = true) : s.softReset.opram.wf = true :=
  Memory.wf_writeOutputs _ _ h

/-- A commit keeps the canonical form (40_sequencer.md R146). -/
theorem State.commit_opram_wf (s : State) (r : Inflight) (h : s.opram.wf = true) : (s.commit r).opram.wf = true :=
  Memory.wf_writeOutputs _ _ h

/-- The load that `State.withFetchWord` stands for keeps the canonical form. -/
theorem State.load_opram_wf (s : State) (bs : List Byte) (h : s.opram.wf = true) : (s.load bs).opram.wf = true :=
  Memory.wf_writeBytes _ _ _ h

theorem Memory.read_eq_none_of_above (m : Memory) (a k : Nat) (h : m.above k) (ha : a ≤ k) : m.read a = none := by
  induction m with
  | nil => rfl
  | cons c m ih =>
    obtain ⟨k', b⟩ := c
    have hk : k < k' := h _ List.mem_cons_self
    rw [Memory.read_cons, if_neg (by omega)]
    exact ih (fun c hc => h c (List.mem_cons_of_mem _ hc))

/-- Memories in canonical form that read the same everywhere are the same list. -/
theorem Memory.ext_of_wf (m n : Memory) (hm : m.wf = true) (hn : n.wf = true)
    (h : ∀ a, m.read a = n.read a) : m = n := by
  induction m generalizing n with
  | nil =>
    cases n with
    | nil => rfl
    | cons c n => have := h c.1; simp [Memory.read] at this
  | cons c m ih =>
    obtain ⟨k, b⟩ := c
    cases n with
    | nil => have := h k; simp at this
    | cons d n =>
      obtain ⟨l, e⟩ := d
      have hm' := (Memory.wf_cons_iff k b m).1 hm
      have hn' := (Memory.wf_cons_iff l e n).1 hn
      have hkl : k = l := by
        rcases Nat.lt_trichotomy k l with hlt | heq | hlt
        · have := h k
          rw [Memory.read_cons, if_pos rfl, Memory.read_cons, if_neg (by omega),
            Memory.read_eq_none_of_above n k l hn'.1 (by omega)] at this
          cases this
        · exact heq
        · have := h l
          rw [Memory.read_cons l e, if_pos rfl, Memory.read_cons, if_neg (by omega),
            Memory.read_eq_none_of_above m l k hm'.1 (by omega)] at this
          cases this
      subst hkl
      have hb : b = e := by have := h k; simpa using this
      subst hb
      congr 1
      refine ih n hm'.2 hn'.2 ?_
      intro a
      by_cases ha : a ≤ k
      · rw [Memory.read_eq_none_of_above m a k hm'.1 ha, Memory.read_eq_none_of_above n a k hn'.1 ha]
      · have := h a
        simpa [show ¬ k = a by omega] using this

/-! The bound. -/

theorem Memory.below_write (m : Memory) (a bound : Nat) (b : Byte) (h : m.below bound = true) (ha : a < bound) :
    (m.write a b).below bound = true := by
  induction m with
  | nil => simpa [Memory.write, Memory.below] using ha
  | cons c m ih =>
    obtain ⟨k, b'⟩ := c
    simp only [Memory.below, List.all_cons, Bool.and_eq_true, decide_eq_true_eq] at h
    unfold Memory.write
    split
    · simp only [Memory.below, List.all_cons, Bool.and_eq_true, decide_eq_true_eq]
      exact ⟨ha, h⟩
    · split
      · simp only [Memory.below, List.all_cons, Bool.and_eq_true, decide_eq_true_eq]
        exact ⟨ha, h.2⟩
      · simp only [Memory.below, List.all_cons, Bool.and_eq_true, decide_eq_true_eq]
        exact ⟨h.1, ih h.2⟩

theorem Memory.below_writeBytes (m : Memory) (a bound : Nat) (bs : List Byte) (h : m.below bound = true)
    (ha : bs = [] ∨ a + bs.length ≤ bound) : (m.writeBytes a bs).below bound = true := by
  induction bs generalizing m a with
  | nil => exact h
  | cons b bs ih =>
    have hb : a + (bs.length + 1) ≤ bound := by simpa using ha
    refine ih _ _ (Memory.below_write m a bound b h (by omega)) ?_
    right; omega

theorem Memory.below_hostStore (bound : Nat) (m : Memory) (a : Nat) (bs : List Byte) (h : m.below bound = true) :
    (hostStore bound m a bs).below bound = true := by
  induction bs generalizing m a with
  | nil => exact h
  | cons b bs ih =>
    refine ih _ _ ?_
    split
    · exact Memory.below_write m a bound b h (by assumption)
    · exact h

/-- The bytes a host write stores: those below OPRAM_BYTES, in ascending order; every other byte is left alone. -/
theorem Memory.read_hostStore (bound : Nat) (m : Memory) (a x : Nat) (bs : List Byte) :
    (hostStore bound m a bs).read x =
      if h : a ≤ x ∧ x < a + bs.length ∧ x < bound then some (bs[x - a]'(by omega)) else m.read x := by
  induction bs generalizing m a with
  | nil =>
    rw [dif_neg (by simp; omega)]
    rfl
  | cons b bs ih =>
    show (hostStore bound (if a < bound then m.write a b else m) (a + 1) bs).read x = _
    rw [ih]
    by_cases h1 : a + 1 ≤ x ∧ x < a + 1 + bs.length ∧ x < bound
    · rw [dif_pos h1, dif_pos (by simp; omega)]
      have : x - a = (x - (a + 1)) + 1 := by omega
      simp [this]
    · rw [dif_neg h1]
      by_cases h2 : x = a ∧ x < bound
      · obtain ⟨rfl, h2⟩ := h2
        rw [if_pos h2, dif_pos (by simp; omega)]
        simp
      · rw [dif_neg (by simp; omega)]
        split
        · exact Memory.read_write_other _ _ (by omega)
        · rfl

/-- A region is written iff each of its bytes holds a value. -/
theorem Memory.written_iff (m : Memory) (a n : Nat) :
    m.written a n = true ↔ ∀ i < n, (m.read (a + i)).isSome = true := by
  simp [Memory.written]

end Sys2Proof.Machine
end

