-- ==== Sys2Proof/Laws/State.lean ====
section
/-! SUPPORT. One lemma per field per update of the state, so that no later proof unfolds a record update. -/

namespace Sys2Proof.Machine

variable (s : State)

@[simp] theorem State.raiseError_cfg (e : Error) : (s.raiseError e).cfg = s.cfg := rfl
@[simp] theorem State.raiseError_irqEn (e : Error) : (s.raiseError e).irqEn = s.irqEn := rfl
@[simp] theorem State.raiseError_done (e : Error) : (s.raiseError e).done = s.done := rfl
@[simp] theorem State.raiseError_error (e : Error) : (s.raiseError e).error = true := rfl
@[simp] theorem State.raiseError_cmdPtr (e : Error) : (s.raiseError e).cmdPtr = s.cmdPtr := rfl
@[simp] theorem State.raiseError_cmdCount (e : Error) : (s.raiseError e).cmdCount = s.cmdCount := rfl
@[simp] theorem State.raiseError_errCode (e : Error) : (s.raiseError e).errCode = e.code := rfl
@[simp] theorem State.raiseError_errPtr (e : Error) : (s.raiseError e).errPtr = s.cmdPtr := rfl
@[simp] theorem State.raiseError_errInfo (e : Error) : (s.raiseError e).errInfo = BitVec.ofNat 32 e.info := rfl
@[simp] theorem State.raiseError_window (e : Error) : (s.raiseError e).window = s.window := rfl
@[simp] theorem State.raiseError_lastW (e : Error) : (s.raiseError e).lastW = s.lastW := rfl
@[simp] theorem State.raiseError_opram (e : Error) : (s.raiseError e).opram = s.opram := rfl
@[simp] theorem State.raiseError_phase (e : Error) : (s.raiseError e).phase = .idle := rfl
@[simp] theorem State.raiseError_scratch (e : Error) : (s.raiseError e).scratch = s.scratch := rfl
@[simp] theorem State.raiseError_mfault (e : Error) : (s.raiseError e).mfault = s.mfault := rfl
@[simp] theorem State.raiseError_draws (e : Error) : (s.raiseError e).draws = s.draws := rfl
@[simp] theorem State.raiseError_agenda (e : Error) : (s.raiseError e).agenda = s.agenda := rfl
@[simp] theorem State.raiseError_replies (e : Error) : (s.raiseError e).replies = s.replies := rfl

@[simp] theorem State.start_cfg : s.start.cfg = s.cfg := rfl
@[simp] theorem State.start_irqEn : s.start.irqEn = s.irqEn := rfl
@[simp] theorem State.start_done : s.start.done = false := rfl
@[simp] theorem State.start_error : s.start.error = false := rfl
@[simp] theorem State.start_cmdPtr : s.start.cmdPtr = s.cmdPtr := rfl
@[simp] theorem State.start_cmdCount : s.start.cmdCount = 0 := rfl
@[simp] theorem State.start_errCode : s.start.errCode = .none := rfl
@[simp] theorem State.start_errPtr : s.start.errPtr = 0 := rfl
@[simp] theorem State.start_errInfo : s.start.errInfo = 0 := rfl
@[simp] theorem State.start_window : s.start.window = s.window := rfl
@[simp] theorem State.start_lastW : s.start.lastW = s.lastW := rfl
@[simp] theorem State.start_opram : s.start.opram = s.opram := rfl
@[simp] theorem State.start_phase : s.start.phase = .ready := rfl
@[simp] theorem State.start_scratch : s.start.scratch = s.scratch := rfl
@[simp] theorem State.start_mfault : s.start.mfault = s.mfault := rfl
@[simp] theorem State.start_draws : s.start.draws = s.draws := rfl
@[simp] theorem State.start_agenda : s.start.agenda = s.agenda := rfl
@[simp] theorem State.start_replies : s.start.replies = s.replies := rfl

@[simp] theorem State.retire_cfg : s.retire.cfg = s.cfg := rfl
@[simp] theorem State.retire_irqEn : s.retire.irqEn = s.irqEn := rfl
@[simp] theorem State.retire_done : s.retire.done = s.done := rfl
@[simp] theorem State.retire_error : s.retire.error = s.error := rfl
@[simp] theorem State.retire_cmdPtr : s.retire.cmdPtr = s.cmdPtr + 32 := rfl
@[simp] theorem State.retire_cmdCount : s.retire.cmdCount = s.cmdCount + 1 := rfl
@[simp] theorem State.retire_errCode : s.retire.errCode = s.errCode := rfl
@[simp] theorem State.retire_errPtr : s.retire.errPtr = s.errPtr := rfl
@[simp] theorem State.retire_errInfo : s.retire.errInfo = s.errInfo := rfl
@[simp] theorem State.retire_window : s.retire.window = s.window := rfl
@[simp] theorem State.retire_lastW : s.retire.lastW = s.lastW := rfl
@[simp] theorem State.retire_opram : s.retire.opram = s.opram := rfl
@[simp] theorem State.retire_phase : s.retire.phase = s.phase := rfl
@[simp] theorem State.retire_scratch : s.retire.scratch = s.scratch := rfl
@[simp] theorem State.retire_mfault : s.retire.mfault = s.mfault := rfl
@[simp] theorem State.retire_draws : s.retire.draws = s.draws := rfl
@[simp] theorem State.retire_agenda : s.retire.agenda = s.agenda := rfl
@[simp] theorem State.retire_replies : s.retire.replies = s.replies := rfl

@[simp] theorem State.halt_cfg : s.halt.cfg = s.cfg := rfl
@[simp] theorem State.halt_irqEn : s.halt.irqEn = s.irqEn := rfl
@[simp] theorem State.halt_done : s.halt.done = true := rfl
@[simp] theorem State.halt_error : s.halt.error = s.error := rfl
@[simp] theorem State.halt_cmdPtr : s.halt.cmdPtr = s.cmdPtr + 32 := rfl
@[simp] theorem State.halt_cmdCount : s.halt.cmdCount = s.cmdCount + 1 := rfl
@[simp] theorem State.halt_errCode : s.halt.errCode = s.errCode := rfl
@[simp] theorem State.halt_errPtr : s.halt.errPtr = s.errPtr := rfl
@[simp] theorem State.halt_errInfo : s.halt.errInfo = s.errInfo := rfl
@[simp] theorem State.halt_window : s.halt.window = s.window := rfl
@[simp] theorem State.halt_lastW : s.halt.lastW = s.lastW := rfl
@[simp] theorem State.halt_opram : s.halt.opram = s.opram := rfl
@[simp] theorem State.halt_phase : s.halt.phase = .idle := rfl
@[simp] theorem State.halt_scratch : s.halt.scratch = s.scratch := rfl
@[simp] theorem State.halt_mfault : s.halt.mfault = s.mfault := rfl
@[simp] theorem State.halt_draws : s.halt.draws = s.draws := rfl
@[simp] theorem State.halt_agenda : s.halt.agenda = s.agenda := rfl
@[simp] theorem State.halt_replies : s.halt.replies = s.replies := rfl

@[simp] theorem State.launch_cfg (d : Nat) (out : List Byte) : (s.launch d out).cfg = s.cfg := rfl
@[simp] theorem State.launch_irqEn (d : Nat) (out : List Byte) : (s.launch d out).irqEn = s.irqEn := rfl
@[simp] theorem State.launch_done (d : Nat) (out : List Byte) : (s.launch d out).done = s.done := rfl
@[simp] theorem State.launch_error (d : Nat) (out : List Byte) : (s.launch d out).error = s.error := rfl
@[simp] theorem State.launch_cmdPtr (d : Nat) (out : List Byte) : (s.launch d out).cmdPtr = s.cmdPtr := rfl
@[simp] theorem State.launch_cmdCount (d : Nat) (out : List Byte) : (s.launch d out).cmdCount = s.cmdCount := rfl
@[simp] theorem State.launch_errCode (d : Nat) (out : List Byte) : (s.launch d out).errCode = s.errCode := rfl
@[simp] theorem State.launch_errPtr (d : Nat) (out : List Byte) : (s.launch d out).errPtr = s.errPtr := rfl
@[simp] theorem State.launch_errInfo (d : Nat) (out : List Byte) : (s.launch d out).errInfo = s.errInfo := rfl
@[simp] theorem State.launch_window (d : Nat) (out : List Byte) : (s.launch d out).window = s.window := rfl
@[simp] theorem State.launch_lastW (d : Nat) (out : List Byte) : (s.launch d out).lastW = s.lastW := rfl
@[simp] theorem State.launch_opram (d : Nat) (out : List Byte) : (s.launch d out).opram = s.opram := rfl
@[simp] theorem State.launch_phase (d : Nat) (out : List Byte) : (s.launch d out).phase = .inflight ⟨s.cmdPtr, [⟨d, out⟩]⟩ := rfl
@[simp] theorem State.launch_scratch (d : Nat) (out : List Byte) : (s.launch d out).scratch = s.scratch := rfl
@[simp] theorem State.launch_mfault (d : Nat) (out : List Byte) : (s.launch d out).mfault = s.mfault := rfl
@[simp] theorem State.launch_draws (d : Nat) (out : List Byte) : (s.launch d out).draws = s.draws := rfl
@[simp] theorem State.launch_agenda (d : Nat) (out : List Byte) : (s.launch d out).agenda = s.agenda := rfl
@[simp] theorem State.launch_replies (d : Nat) (out : List Byte) : (s.launch d out).replies = s.replies := rfl

@[simp] theorem State.scrambleScratch_cfg : s.scrambleScratch.cfg = s.cfg := rfl
@[simp] theorem State.scrambleScratch_irqEn : s.scrambleScratch.irqEn = s.irqEn := rfl
@[simp] theorem State.scrambleScratch_done : s.scrambleScratch.done = s.done := rfl
@[simp] theorem State.scrambleScratch_error : s.scrambleScratch.error = s.error := rfl
@[simp] theorem State.scrambleScratch_cmdPtr : s.scrambleScratch.cmdPtr = s.cmdPtr := rfl
@[simp] theorem State.scrambleScratch_cmdCount : s.scrambleScratch.cmdCount = s.cmdCount := rfl
@[simp] theorem State.scrambleScratch_errCode : s.scrambleScratch.errCode = s.errCode := rfl
@[simp] theorem State.scrambleScratch_errPtr : s.scrambleScratch.errPtr = s.errPtr := rfl
@[simp] theorem State.scrambleScratch_errInfo : s.scrambleScratch.errInfo = s.errInfo := rfl
@[simp] theorem State.scrambleScratch_window : s.scrambleScratch.window = s.window := rfl
@[simp] theorem State.scrambleScratch_lastW : s.scrambleScratch.lastW = s.lastW := rfl
@[simp] theorem State.scrambleScratch_opram : s.scrambleScratch.opram = s.opram := rfl
@[simp] theorem State.scrambleScratch_phase : s.scrambleScratch.phase = s.phase := rfl
@[simp] theorem State.scrambleScratch_scratch : s.scrambleScratch.scratch = Config.freeScratch s.draws := rfl
@[simp] theorem State.scrambleScratch_mfault : s.scrambleScratch.mfault = s.mfault := rfl
@[simp] theorem State.scrambleScratch_draws : s.scrambleScratch.draws = s.draws + 1 := rfl
@[simp] theorem State.scrambleScratch_agenda : s.scrambleScratch.agenda = s.agenda := rfl
@[simp] theorem State.scrambleScratch_replies : s.scrambleScratch.replies = s.replies := rfl

@[simp] theorem State.commit_cfg (r : Inflight) : (s.commit r).cfg = s.cfg := rfl
@[simp] theorem State.commit_irqEn (r : Inflight) : (s.commit r).irqEn = s.irqEn := rfl
@[simp] theorem State.commit_done (r : Inflight) : (s.commit r).done = s.done := rfl
@[simp] theorem State.commit_error (r : Inflight) : (s.commit r).error = s.error := rfl
@[simp] theorem State.commit_cmdPtr (r : Inflight) : (s.commit r).cmdPtr = s.cmdPtr + 32 := rfl
@[simp] theorem State.commit_cmdCount (r : Inflight) : (s.commit r).cmdCount = s.cmdCount + 1 := rfl
@[simp] theorem State.commit_errCode (r : Inflight) : (s.commit r).errCode = s.errCode := rfl
@[simp] theorem State.commit_errPtr (r : Inflight) : (s.commit r).errPtr = s.errPtr := rfl
@[simp] theorem State.commit_errInfo (r : Inflight) : (s.commit r).errInfo = s.errInfo := rfl
@[simp] theorem State.commit_window (r : Inflight) : (s.commit r).window = s.window := rfl
@[simp] theorem State.commit_lastW (r : Inflight) : (s.commit r).lastW = s.lastW := rfl
@[simp] theorem State.commit_opram (r : Inflight) : (s.commit r).opram = s.opram.writeOutputs r.outputs := rfl
@[simp] theorem State.commit_phase (r : Inflight) : (s.commit r).phase = .ready := rfl
@[simp] theorem State.commit_scratch (r : Inflight) : (s.commit r).scratch = Config.freeScratch s.draws := rfl
@[simp] theorem State.commit_mfault (r : Inflight) : (s.commit r).mfault = s.mfault := rfl
@[simp] theorem State.commit_draws (r : Inflight) : (s.commit r).draws = s.draws + 1 := rfl
@[simp] theorem State.commit_agenda (r : Inflight) : (s.commit r).agenda = s.agenda := rfl
@[simp] theorem State.commit_replies (r : Inflight) : (s.commit r).replies = s.replies := rfl

@[simp] theorem State.softReset_cfg : s.softReset.cfg = s.cfg := rfl
@[simp] theorem State.softReset_irqEn : s.softReset.irqEn = false := rfl
@[simp] theorem State.softReset_done : s.softReset.done = false := rfl
@[simp] theorem State.softReset_error : s.softReset.error = false := rfl
@[simp] theorem State.softReset_cmdPtr : s.softReset.cmdPtr = 0 := rfl
@[simp] theorem State.softReset_cmdCount : s.softReset.cmdCount = 0 := rfl
@[simp] theorem State.softReset_errCode : s.softReset.errCode = .none := rfl
@[simp] theorem State.softReset_errPtr : s.softReset.errPtr = 0 := rfl
@[simp] theorem State.softReset_errInfo : s.softReset.errInfo = 0 := rfl
@[simp] theorem State.softReset_window : s.softReset.window = 0 := rfl
@[simp] theorem State.softReset_lastW : s.softReset.lastW = 0 := rfl
@[simp] theorem State.softReset_opram : s.softReset.opram = s.abortedOpram := rfl
@[simp] theorem State.softReset_phase : s.softReset.phase = .idle := rfl
@[simp] theorem State.softReset_scratch : s.softReset.scratch = Config.freeScratch s.draws := rfl
@[simp] theorem State.softReset_mfault : s.softReset.mfault = s.mfault := rfl
@[simp] theorem State.softReset_draws : s.softReset.draws = s.draws + 1 := rfl
@[simp] theorem State.softReset_agenda : s.softReset.agenda = s.agenda := rfl
@[simp] theorem State.softReset_replies : s.softReset.replies = s.replies := rfl

@[simp] theorem State.powerOn_cfg : s.powerOn.cfg = s.cfg := rfl
@[simp] theorem State.powerOn_irqEn : s.powerOn.irqEn = false := rfl
@[simp] theorem State.powerOn_done : s.powerOn.done = false := rfl
@[simp] theorem State.powerOn_error : s.powerOn.error = false := rfl
@[simp] theorem State.powerOn_cmdPtr : s.powerOn.cmdPtr = 0 := rfl
@[simp] theorem State.powerOn_cmdCount : s.powerOn.cmdCount = 0 := rfl
@[simp] theorem State.powerOn_errCode : s.powerOn.errCode = .none := rfl
@[simp] theorem State.powerOn_errPtr : s.powerOn.errPtr = 0 := rfl
@[simp] theorem State.powerOn_errInfo : s.powerOn.errInfo = 0 := rfl
@[simp] theorem State.powerOn_window : s.powerOn.window = 0 := rfl
@[simp] theorem State.powerOn_lastW : s.powerOn.lastW = 0 := rfl
@[simp] theorem State.powerOn_opram : s.powerOn.opram = [] := rfl
@[simp] theorem State.powerOn_phase : s.powerOn.phase = .idle := rfl
@[simp] theorem State.powerOn_scratch : s.powerOn.scratch = Config.freeScratch s.draws := rfl
@[simp] theorem State.powerOn_mfault : s.powerOn.mfault = s.mfault := rfl
@[simp] theorem State.powerOn_draws : s.powerOn.draws = s.draws + 1 := rfl
@[simp] theorem State.powerOn_agenda : s.powerOn.agenda = s.agenda := rfl
@[simp] theorem State.powerOn_replies : s.powerOn.replies = s.replies := rfl

@[simp] theorem State.clearStatus_cfg (v : Word) : (s.clearStatus v).cfg = s.cfg := rfl
@[simp] theorem State.clearStatus_irqEn (v : Word) : (s.clearStatus v).irqEn = s.irqEn := rfl
@[simp] theorem State.clearStatus_done (v : Word) : (s.clearStatus v).done = (s.done && !v.getLsbD 1) := rfl
@[simp] theorem State.clearStatus_error (v : Word) : (s.clearStatus v).error = (s.error && !v.getLsbD 2) := rfl
@[simp] theorem State.clearStatus_cmdPtr (v : Word) : (s.clearStatus v).cmdPtr = s.cmdPtr := rfl
@[simp] theorem State.clearStatus_cmdCount (v : Word) : (s.clearStatus v).cmdCount = s.cmdCount := rfl
@[simp] theorem State.clearStatus_errCode (v : Word) : (s.clearStatus v).errCode = s.errCode := rfl
@[simp] theorem State.clearStatus_errPtr (v : Word) : (s.clearStatus v).errPtr = s.errPtr := rfl
@[simp] theorem State.clearStatus_errInfo (v : Word) : (s.clearStatus v).errInfo = s.errInfo := rfl
@[simp] theorem State.clearStatus_window (v : Word) : (s.clearStatus v).window = s.window := rfl
@[simp] theorem State.clearStatus_lastW (v : Word) : (s.clearStatus v).lastW = s.lastW := rfl
@[simp] theorem State.clearStatus_opram (v : Word) : (s.clearStatus v).opram = s.opram := rfl
@[simp] theorem State.clearStatus_phase (v : Word) : (s.clearStatus v).phase = s.phase := rfl
@[simp] theorem State.clearStatus_scratch (v : Word) : (s.clearStatus v).scratch = s.scratch := rfl
@[simp] theorem State.clearStatus_mfault (v : Word) : (s.clearStatus v).mfault = s.mfault := rfl
@[simp] theorem State.clearStatus_draws (v : Word) : (s.clearStatus v).draws = s.draws := rfl
@[simp] theorem State.clearStatus_agenda (v : Word) : (s.clearStatus v).agenda = s.agenda := rfl
@[simp] theorem State.clearStatus_replies (v : Word) : (s.clearStatus v).replies = s.replies := rfl

@[simp] theorem State.opramStore_cfg (w : Width) (a : Nat) (v : BitVec 64) : (s.opramStore w a v).cfg = s.cfg := rfl
@[simp] theorem State.opramStore_irqEn (w : Width) (a : Nat) (v : BitVec 64) : (s.opramStore w a v).irqEn = s.irqEn := rfl
@[simp] theorem State.opramStore_done (w : Width) (a : Nat) (v : BitVec 64) : (s.opramStore w a v).done = s.done := rfl
@[simp] theorem State.opramStore_error (w : Width) (a : Nat) (v : BitVec 64) : (s.opramStore w a v).error = s.error := rfl
@[simp] theorem State.opramStore_cmdPtr (w : Width) (a : Nat) (v : BitVec 64) : (s.opramStore w a v).cmdPtr = s.cmdPtr := rfl
@[simp] theorem State.opramStore_cmdCount (w : Width) (a : Nat) (v : BitVec 64) : (s.opramStore w a v).cmdCount = s.cmdCount := rfl
@[simp] theorem State.opramStore_errCode (w : Width) (a : Nat) (v : BitVec 64) : (s.opramStore w a v).errCode = s.errCode := rfl
@[simp] theorem State.opramStore_errPtr (w : Width) (a : Nat) (v : BitVec 64) : (s.opramStore w a v).errPtr = s.errPtr := rfl
@[simp] theorem State.opramStore_errInfo (w : Width) (a : Nat) (v : BitVec 64) : (s.opramStore w a v).errInfo = s.errInfo := rfl
@[simp] theorem State.opramStore_window (w : Width) (a : Nat) (v : BitVec 64) : (s.opramStore w a v).window = s.window := rfl
@[simp] theorem State.opramStore_lastW (w : Width) (a : Nat) (v : BitVec 64) : (s.opramStore w a v).lastW = s.lastW := rfl
@[simp] theorem State.opramStore_opram (w : Width) (a : Nat) (v : BitVec 64) : (s.opramStore w a v).opram = hostStore s.cfg.opramBytes s.opram a (leBytes w.bytes v.toNat) := rfl
@[simp] theorem State.opramStore_phase (w : Width) (a : Nat) (v : BitVec 64) : (s.opramStore w a v).phase = s.phase := rfl
@[simp] theorem State.opramStore_scratch (w : Width) (a : Nat) (v : BitVec 64) : (s.opramStore w a v).scratch = s.scratch := rfl
@[simp] theorem State.opramStore_mfault (w : Width) (a : Nat) (v : BitVec 64) : (s.opramStore w a v).mfault = { s.mfault with hostWriteWhileBusy := s.mfault.hostWriteWhileBusy || (s.busy && decide (a < s.cfg.opramBytes)) } := rfl
@[simp] theorem State.opramStore_draws (w : Width) (a : Nat) (v : BitVec 64) : (s.opramStore w a v).draws = s.draws := rfl
@[simp] theorem State.opramStore_agenda (w : Width) (a : Nat) (v : BitVec 64) : (s.opramStore w a v).agenda = s.agenda := rfl
@[simp] theorem State.opramStore_replies (w : Width) (a : Nat) (v : BitVec 64) : (s.opramStore w a v).replies = s.replies := rfl

@[simp] theorem State.markRead_cfg (rs : List Region) : (s.markRead rs).cfg = s.cfg := by
  unfold State.markRead; split <;> rfl
@[simp] theorem State.markRead_irqEn (rs : List Region) : (s.markRead rs).irqEn = s.irqEn := by
  unfold State.markRead; split <;> rfl
@[simp] theorem State.markRead_done (rs : List Region) : (s.markRead rs).done = s.done := by
  unfold State.markRead; split <;> rfl
@[simp] theorem State.markRead_error (rs : List Region) : (s.markRead rs).error = s.error := by
  unfold State.markRead; split <;> rfl
@[simp] theorem State.markRead_cmdPtr (rs : List Region) : (s.markRead rs).cmdPtr = s.cmdPtr := by
  unfold State.markRead; split <;> rfl
@[simp] theorem State.markRead_cmdCount (rs : List Region) : (s.markRead rs).cmdCount = s.cmdCount := by
  unfold State.markRead; split <;> rfl
@[simp] theorem State.markRead_errCode (rs : List Region) : (s.markRead rs).errCode = s.errCode := by
  unfold State.markRead; split <;> rfl
@[simp] theorem State.markRead_errPtr (rs : List Region) : (s.markRead rs).errPtr = s.errPtr := by
  unfold State.markRead; split <;> rfl
@[simp] theorem State.markRead_errInfo (rs : List Region) : (s.markRead rs).errInfo = s.errInfo := by
  unfold State.markRead; split <;> rfl
@[simp] theorem State.markRead_window (rs : List Region) : (s.markRead rs).window = s.window := by
  unfold State.markRead; split <;> rfl
@[simp] theorem State.markRead_lastW (rs : List Region) : (s.markRead rs).lastW = s.lastW := by
  unfold State.markRead; split <;> rfl
@[simp] theorem State.markRead_opram (rs : List Region) : (s.markRead rs).opram = s.opram := by
  unfold State.markRead; split <;> rfl
@[simp] theorem State.markRead_phase (rs : List Region) : (s.markRead rs).phase = s.phase := by
  unfold State.markRead; split <;> rfl
@[simp] theorem State.markRead_scratch (rs : List Region) : (s.markRead rs).scratch = s.scratch := by
  unfold State.markRead; split <;> rfl
@[simp] theorem State.markRead_agenda (rs : List Region) : (s.markRead rs).agenda = s.agenda := by
  unfold State.markRead; split <;> rfl
@[simp] theorem State.markRead_replies (rs : List Region) : (s.markRead rs).replies = s.replies := by
  unfold State.markRead; split <;> rfl

/-- An engine read of written bytes only changes nothing. -/
theorem State.markRead_of_written (rs : List Region) (h : rs.all s.regionWritten = true) : s.markRead rs = s := by
  simp [State.markRead, h]

/-- An engine read that meets an unwritten byte adds UNWRITTEN_READ and uses up its draws. -/
theorem State.markRead_of_unwritten (rs : List Region) (h : rs.all s.regionWritten = false) :
    s.markRead rs =
      { s with mfault := { s.mfault with unwrittenRead := true }, draws := s.draws + rs.length } := by
  simp [State.markRead, h]

/-- An engine read never clears a mark. -/
theorem State.markRead_mfault_mono (rs : List Region) (h : s.mfault.unwrittenRead = true) :
    (s.markRead rs).mfault = s.mfault := by
  unfold State.markRead
  split
  · rfl
  · show ({ s.mfault with unwrittenRead := true } : MFault) = s.mfault
    rw [← h]

@[simp] theorem State.markRead_hostWriteWhileBusy (rs : List Region) :
    (s.markRead rs).mfault.hostWriteWhileBusy = s.mfault.hostWriteWhileBusy := by
  unfold State.markRead; split <;> rfl

@[simp] theorem State.busy_idle (h : s.phase = .idle) : s.busy = false := by simp [State.busy, h, Phase.busy]

theorem State.busy_of_ready (h : s.phase = .ready) : s.busy = true := by simp [State.busy, h, Phase.busy]

theorem State.busy_of_inflight (r : Inflight) (h : s.phase = .inflight r) : s.busy = true := by
  simp [State.busy, h, Phase.busy]

/-- BUSY is 0 only in phase IDLE (10_state.md R61). -/
theorem State.busy_eq_false_iff : s.busy = false ↔ s.phase = .idle := by
  unfold State.busy
  cases s.phase <;> simp [Phase.busy]

/-- A state without a mark does not fault. -/
theorem MFault.fault_eq_none_iff (m : MFault) : m.fault = Option.none ↔ m = MFault.none := by
  rcases m with ⟨u, h⟩
  cases u <;> cases h <;> simp [MFault.fault, MFault.none]

@[simp] theorem MFault.fault_none : MFault.none.fault = Option.none := rfl

end Sys2Proof.Machine
end

