-- ==== Sys2Proof/Laws/Ops.lean ====
section
/-! SUPPORT. Once for each shared operation, everything it can do: checks, engine reads, the common frame of the data
commands, the turns of a step. -/

namespace Sys2Proof.Machine

/-! Checks. -/

/-- A base is misaligned (20_memory.md R87). -/
theorem Region.not_aligned_iff (r : Region) (k : Nat) : (!r.aligned k) = true ↔ r.base % k ≠ 0 := by
  simp [Region.aligned]

theorem Region.aligned_iff (r : Region) (k : Nat) : r.aligned k = true ↔ r.base % k = 0 := by
  simp [Region.aligned]

/-- A region is out of range: it has a byte and ends beyond OPRAM (20_memory.md R88). -/
theorem Region.not_inRange_iff (r : Region) (c : Config) :
    (!r.inRange c) = true ↔ 0 < r.len ∧ c.opramBytes < r.base + r.len := by
  by_cases h : r.len = 0 <;> simp [Region.inRange, h]
  omega

theorem Region.inRange_iff (r : Region) (c : Config) :
    r.inRange c = true ↔ r.len = 0 ∨ r.base + r.len ≤ c.opramBytes := by
  by_cases h : r.len = 0 <;> simp [Region.inRange, h]

/-- Two regions overlap: both have a byte and each begins before the other ends (20_memory.md R89). -/
theorem Region.overlaps_iff (r t : Region) :
    r.overlaps t = true ↔ 0 < r.len ∧ 0 < t.len ∧ r.base < t.base + t.len ∧ t.base < r.base + r.len := by
  simp [Region.overlaps, and_assoc]


/-- A list of checks reports no error iff none of them fails. -/
theorem firstFailing_eq_none_iff (checks : List (Bool × Error)) :
    firstFailing checks = none ↔ ∀ k ∈ checks, k.1 = false := by
  simp [firstFailing]

/-- The error reported is that of a check that fails, every check before it passing. -/
theorem firstFailing_cons (b : Bool) (e : Error) (rest : List (Bool × Error)) :
    firstFailing ((b, e) :: rest) = if b then some e else firstFailing rest := by
  cases b <;> simp [firstFailing]

@[simp] theorem firstFailing_nil : firstFailing [] = none := rfl

/-- The Bool checks of a command and the conditions a statement names report the same error. -/
theorem firstFails_iff (checks : List (Bool × Error)) (e : Error) :
    FirstFails (checks.map (fun k => (k.1 = true, k.2))) e ↔ firstFailing checks = some e := by
  induction checks with
  | nil => simp [FirstFails]
  | cons k rest ih =>
    obtain ⟨b, f⟩ := k
    rw [List.map_cons, FirstFails, firstFailing_cons, ih]
    cases b <;> simp

theorem allPass_iff (checks : List (Bool × Error)) :
    AllPass (checks.map (fun k => (k.1 = true, k.2))) ↔ firstFailing checks = none := by
  rw [firstFailing_eq_none_iff]
  simp only [AllPass, List.mem_map, forall_exists_index, and_imp, forall_apply_eq_imp_iff₂, Bool.not_eq_true]

/-- Dropping checks that cannot fail changes neither judgment. -/
theorem firstFails_congr {a b : List (Prop × Error)} (h : List.Forall₂ (fun x y => (x.1 ↔ y.1) ∧ x.2 = y.2) a b)
    (e : Error) : FirstFails a e ↔ FirstFails b e := by
  induction h with
  | nil => rfl
  | cons hxy _ ih => simp only [FirstFails, hxy.1, hxy.2, ih]

theorem firstFails_skip {c : Prop} {f e : Error} {rest : List (Prop × Error)} (h : ¬ c) :
    FirstFails ((c, f) :: rest) e ↔ FirstFails rest e := by
  simp [FirstFails, h]

@[simp] theorem firstFails_cons (c : Prop) (f e : Error) (rest : List (Prop × Error)) :
    FirstFails ((c, f) :: rest) e ↔ (c ∧ f = e) ∨ (¬ c ∧ FirstFails rest e) := Iff.rfl

theorem allPass_cons (c : Prop) (f : Error) (rest : List (Prop × Error)) :
    AllPass ((c, f) :: rest) ↔ ¬ c ∧ AllPass rest := by
  simp [AllPass]

@[simp] theorem allPass_nil : AllPass [] := by simp [AllPass]

/-! Reads of OPRAM. -/

/-- A region whose bytes are known reads as them, whatever the draw. -/
theorem State.readRegion_of_holds (s : State) (k a n : Nat) (bs : List Byte) (hn : bs.length = n)
    (h : s.Holds a bs) : s.readRegion k ⟨a, n⟩ = bs := by
  subst hn
  apply List.ext_getElem
  · simp [State.readRegion]
  · intro i h1 h2
    simp [State.readRegion, State.byteAt, h i h2]

theorem State.regionWritten_of_holds (s : State) (a n : Nat) (bs : List Byte) (hn : bs.length = n)
    (h : s.Holds a bs) : s.regionWritten ⟨a, n⟩ = true := by
  subst hn
  rw [State.regionWritten, Memory.written_iff]
  intro i hi
  simp [h i hi]

@[simp] theorem State.length_readRegion (s : State) (k : Nat) (r : Region) : (s.readRegion k r).length = r.len := by
  simp [State.readRegion]

/-- A block of bytes holds iff its two halves do. -/
theorem State.holds_append (s : State) (a : Nat) (bs cs : List Byte) :
    s.Holds a (bs ++ cs) ↔ s.Holds a bs ∧ s.Holds (a + bs.length) cs := by
  constructor
  · intro h
    constructor
    · intro i hi
      have := h i (by simp; omega)
      rwa [List.getElem_append_left hi] at this
    · intro i hi
      have := h (bs.length + i) (by simp; omega)
      rw [List.getElem_append_right (by omega)] at this
      simpa [Nat.add_assoc] using this
  · rintro ⟨h1, h2⟩ i hi
    by_cases hb : i < bs.length
    · rw [List.getElem_append_left hb]; exact h1 i hb
    · rw [List.getElem_append_right (by omega)]
      have := h2 (i - bs.length) (by simp at hi; omega)
      rwa [show a + bs.length + (i - bs.length) = a + i by omega] at this

/-! The common frame of the data commands. -/

/-- What a data command can do: report a check, raise an operand error, or launch its result. -/
theorem State.runCommand_cases (s : State) (o : Operands) (pass : State → State)
    (compute : List Byte → List Byte → Except Error (List Byte)) :
    (∃ e, operandError s.cfg o = some e ∧ s.runCommand o pass compute = s.raiseError e) ∨
    (operandError s.cfg o = none ∧ ∃ e,
      compute (s.readRegion s.draws o.a) (s.readRegion (s.draws + 1) (o.b.getD ⟨0, 0⟩)) = .error e ∧
      s.runCommand o pass compute = (s.markRead o.inputs).raiseError e) ∨
    (operandError s.cfg o = none ∧ ∃ out,
      compute (s.readRegion s.draws o.a) (s.readRegion (s.draws + 1) (o.b.getD ⟨0, 0⟩)) = .ok out ∧
      s.runCommand o pass compute = (pass (s.markRead o.inputs)).launch o.d.base out) := by
  unfold State.runCommand
  split
  · rename_i e he; exact .inl ⟨e, he, rfl⟩
  · rename_i he
    split
    · rename_i e hc; exact .inr (.inl ⟨he, e, hc, rfl⟩)
    · rename_i out hc; exact .inr (.inr ⟨he, out, hc, rfl⟩)

/-- No meaning reads the scratch: a command answers the same whatever the scratch was before it (10_state.md R63). -/
theorem exec_of_scratch (i : Instr) (s : State) (x : Scratch) : exec i { s with scratch := x } = exec i s := by
  cases i <;> rfl

theorem State.runCommand_of_error (s : State) (o : Operands) (pass : State → State)
    (compute : List Byte → List Byte → Except Error (List Byte)) (e : Error) (h : operandError s.cfg o = some e) :
    s.runCommand o pass compute = s.raiseError e := by
  simp [State.runCommand, h]

/-- A data command whose checks pass, whose inputs are written and whose computation succeeds launches its result. -/
theorem State.runCommand_launch (s : State) (o : Operands) (pass : State → State)
    (compute : List Byte → List Byte → Except Error (List Byte)) (out : List Byte)
    (hc : operandError s.cfg o = none) (hw : s.InputsWritten o)
    (ho : compute (s.readRegion s.draws o.a) (s.readRegion (s.draws + 1) (o.b.getD ⟨0, 0⟩)) = .ok out) :
    s.runCommand o pass compute = (pass s).launch o.d.base out := by
  simp [State.runCommand, hc, ho, State.markRead_of_written s _ hw]

/-- A data command whose checks pass and whose inputs are written raises its operand error. -/
theorem State.runCommand_reject (s : State) (o : Operands) (pass : State → State)
    (compute : List Byte → List Byte → Except Error (List Byte)) (e : Error)
    (hc : operandError s.cfg o = none) (hw : s.InputsWritten o)
    (ho : compute (s.readRegion s.draws o.a) (s.readRegion (s.draws + 1) (o.b.getD ⟨0, 0⟩)) = .error e) :
    s.runCommand o pass compute = s.raiseError e := by
  simp [State.runCommand, hc, ho, State.markRead_of_written s _ hw]

/-! The turns of a step. -/

/-- A descriptor can be fetched iff pc is a multiple of 32 and all 32 bytes lie in OPRAM (40_sequencer.md R141). -/
theorem State.fetchError_eq_none_iff (s : State) :
    s.fetchError = none ↔ s.cmdPtr.toNat % 32 = 0 ∧ s.cmdPtr.toNat + 32 ≤ s.cfg.opramBytes := by
  have h1 := Region.aligned_iff s.descriptorRegion 32
  have h2 := Region.inRange_iff s.descriptorRegion s.cfg
  rw [State.fetchError, firstFailing_cons, firstFailing_cons, firstFailing_nil]
  cases ha : s.descriptorRegion.aligned 32 <;> cases hr : s.descriptorRegion.inRange s.cfg <;>
    simp_all [State.descriptorRegion]


/-- A marked state is stuck. -/
theorem step_of_marked (s : State) (h : ¬ s.Unmarked) : ∃ f, step s = .fault f := by
  rw [step, nextTurn]
  rcases hm : s.mfault with ⟨u, w⟩
  rw [State.Unmarked, hm] at h
  cases u <;> cases w <;> first | exact absurd rfl h | exact ⟨_, rfl⟩

/-- An unmarked state takes its next turn. -/
theorem step_of_unmarked (s : State) (h : s.Unmarked) : step s = takeTurn s s.agenda := by
  rw [step, nextTurn, h]; rfl

/-- A step that answers a next state starts unmarked. -/
theorem unmarked_of_step (s t : State) (h : step s = .next t) : s.Unmarked := by
  by_contra hm
  obtain ⟨f, hf⟩ := step_of_marked s hm
  rw [hf] at h; cases h

theorem step_of_empty (s : State) (h : s.Unmarked) (ha : s.agenda = []) : step s = engineStep s := by
  rw [step_of_unmarked s h, ha]; rfl

/-- An engine turn is the engine's step on the state without it. -/
theorem step_of_engineTurn (s : State) (h : s.Unmarked) (rest : List Turn) (hr : s.EngineTurn rest) :
    step s = engineStep { s with agenda := rest } := by
  rcases hr with ha | ⟨ha, rfl⟩
  · rw [step_of_unmarked s h, ha]; rfl
  · rw [step_of_empty s h ha, ← ha]

theorem step_of_host (s : State) (h : s.Unmarked) (a : HostAccess) (rest : List Turn)
    (ha : s.agenda = .host a :: rest) : step s = hostStep a { s with agenda := rest } := by
  rw [step_of_unmarked s h, ha]; rfl

/-- Every step that answers a next state is an idle turn, a READY step, a commit, a host access or a power-on, taken on
the state with its own turn removed from the agenda. -/
theorem step_cases (s t : State) (h : step s = .next t) :
    s.Unmarked ∧
    ((∃ rest, (s.agenda = [] ∧ rest = [] ∨ s.agenda = .engine :: rest) ∧
        engineStep { s with agenda := rest } = .next t) ∨
      (∃ a rest, s.agenda = .host a :: rest ∧ hostStep a { s with agenda := rest } = .next t) ∨
      ∃ rest, s.agenda = .powerOn :: rest ∧ t = { s with agenda := rest }.powerOn) := by
  have hm := unmarked_of_step s t h
  refine ⟨hm, ?_⟩
  rw [step_of_unmarked s hm] at h
  rcases ha : s.agenda with _ | ⟨_ | a | _, rest⟩
  · refine .inl ⟨[], .inl ⟨rfl, rfl⟩, ?_⟩
    rw [ha] at h
    have : { s with agenda := [] } = s := by cases s; simp_all
    rw [this]; exact h
  · rw [ha] at h; exact .inl ⟨rest, .inr rfl, h⟩
  · rw [ha] at h; exact .inr (.inl ⟨a, rest, rfl, h⟩)
  · rw [ha] at h
    refine .inr (.inr ⟨rest, rfl, ?_⟩)
    simp only [takeTurn, Host.Outcome.next.injEq] at h
    exact h.symm

/-- An engine turn that answers a next state: idle, a READY step, or a commit. -/
theorem engineStep_cases (s t : State) (h : engineStep s = .next t) :
    (s.phase = .idle ∧ t = s) ∨ (s.phase = .ready ∧ readyStep s = .next t) ∨
      ∃ r, s.phase = .inflight r ∧ t = s.commit r := by
  unfold engineStep at h
  split at h
  · rename_i hp; cases h; exact .inl ⟨hp, rfl⟩
  · rename_i hp; exact .inr (.inl ⟨hp, h⟩)
  · rename_i r hp; cases h; exact .inr (.inr ⟨r, hp, rfl⟩)

/-- A READY step: a fetch error, a decode error after the fetch, or the decoded command after the fetch. -/
theorem readyStep_cases (s t : State) (h : readyStep s = .next t) :
    (∃ e, s.fetchError = some e ∧ t = s.raiseError e) ∨
    (s.fetchError = none ∧ ∃ e, decode s.fetchedDescriptor = .error e ∧
      t = (s.markRead [s.descriptorRegion]).raiseError (decodeErrorReport e)) ∨
    (s.fetchError = none ∧ ∃ i, decode s.fetchedDescriptor = .ok i ∧
      exec i (s.markRead [s.descriptorRegion]) = .next t) := by
  unfold readyStep at h
  split at h
  · rename_i e he; cases h; exact .inl ⟨e, he, rfl⟩
  · rename_i he
    split at h
    · rename_i e hd; cases h; exact .inr (.inl ⟨he, e, hd, rfl⟩)
    · rename_i i hd; exact .inr (.inr ⟨he, i, hd, h⟩)

/-- At a written, fetchable descriptor the engine reports the decoder's error or runs the decoded command. -/
theorem engineStep_of_atDescriptor (s : State) (hd : s.AtDescriptor) :
    engineStep s = match decode s.fetchedDescriptor with
      | .error e => .next (s.raiseError (decodeErrorReport e))
      | .ok i => exec i s := by
  have hw : s.markRead [s.descriptorRegion] = s :=
    State.markRead_of_written s _ (by simp [hd.written])
  cases hx : decode s.fetchedDescriptor <;> simp only [engineStep, hd.ready, readyStep, hd.fetchable, hx, hw]

/-- The agenda does not matter to the fetch. -/
theorem State.AtDescriptor.with_agenda {s : State} (hd : s.AtDescriptor) (rest : List Turn) :
    ({ s with agenda := rest } : State).AtDescriptor :=
  ⟨hd.ready, hd.fetchable, hd.written⟩

end Sys2Proof.Machine
end

