-- ==== Sys2Proof/Laws/HostPort.lean ====
section
/-! SUPPORT. The register map as an injective table, CSR writes as steps, and the bytes of a host access. -/

namespace Sys2Proof.Machine

/-- The offset of a register (10_state.md R43). -/
def Csr.offset : Csr → Nat
  | .id => 0x000
  | .version => 0x004
  | .caps => 0x008
  | .ctrl => 0x00C
  | .status => 0x010
  | .cmdPtr => 0x014
  | .cmdCount => 0x018
  | .errCode => 0x01C
  | .errPtr => 0x020
  | .errInfo => 0x024
  | .msmWindowCfg => 0x028
  | .msmLastW => 0x02C

@[simp] theorem csrAt_offset (r : Csr) : csrAt r.offset = some r := by cases r <;> rfl

/-- A register answers at its own offset and nowhere else. -/
theorem csrAt_eq_some_iff (off : Nat) (r : Csr) : csrAt off = some r ↔ off = r.offset := by
  constructor
  · intro h
    have hlt : off < 0x030 := by
      by_contra hc
      unfold csrAt at h
      repeat' rw [if_neg (by omega)] at h
      cases h
    interval_cases off <;> cases h <;> rfl
  · rintro rfl; exact csrAt_offset r

/-- Beyond the last register every offset is reserved (10_state.md R57). -/
theorem csrAt_of_le (off : Nat) (h : 0x030 ≤ off) : csrAt off = none := by
  cases hc : csrAt off with
  | none => rfl
  | some r =>
    rw [csrAt_eq_some_iff] at hc
    cases r <;> simp only [Csr.offset] at hc <;> omega

/-- A CSR write of the supported shape is a step that performs it (20_memory.md R99). -/
theorem step_of_csrWrite (s : State) (rest : List Turn) (off : Nat) (v : Word) (hm : s.Unmarked) (ho : off % 4 = 0)
    (hl : off < 0x1000) (ha : s.agenda = .host (.csrWrite .b4 off v) :: rest) :
    step s = .next (({ s with agenda := rest } : State).csrWrite off v) := by
  have : csrShape .b4 off = true := by
    simp only [csrShape, decide_true, Bool.true_and, Bool.and_eq_true, beq_iff_eq, decide_eq_true_eq]
    exact ⟨ho, hl⟩
  rw [step_of_host s hm _ rest ha]
  simp only [hostStep, this, if_true]

/-- Byte i of a little-endian integer. -/
theorem leInt_div (bs : List Byte) (i : Nat) (hi : i < bs.length) : leInt bs / 256 ^ i % 256 = bs[i].toNat := by
  induction bs generalizing i with
  | nil => simp at hi
  | cons b bs ih =>
    have := b.isLt
    cases i with
    | zero => simp; omega
    | succ i =>
      rw [leInt_cons, Nat.pow_succ, Nat.mul_comm (256 ^ i), ← Nat.div_div_eq_div_mul,
        show (b.toNat + 256 * leInt bs) / 256 = leInt bs by omega]
      exact ih i (by simpa using hi)

theorem getElem_leBytes (k v i : Nat) (h : i < (leBytes k v).length) :
    (leBytes k v)[i] = BitVec.ofNat 8 (v / 256 ^ i) := by
  induction k generalizing v i with
  | zero => simp [leBytes] at h
  | succ k ih =>
    cases i with
    | zero => simp [leBytes]
    | succ i =>
      simp only [leBytes, List.getElem_cons_succ, ih]
      rw [Nat.div_div_eq_div_mul, Nat.pow_succ, Nat.mul_comm 256]

end Sys2Proof.Machine
end

