-- ==== Sys2Proof/Laws/PerInstr.lean ====
section
/-! SUPPORT. Statements made for every command, one lemma per constructor. -/

namespace Sys2Proof.Laws.EncodeReserved

open Sys2Proof

/-- The encoding of a well-formed command carries the command's OPCODE, and every field its opcode does not use is 0, so
that the decoder's reserved-field check finds nothing (30_encoding.md R123, R125, R127, R132). -/
def Statement (i : Instr) : Prop :=
  i.WellFormed → (encode i).opcode = i.opcode.code ∧ (encode i).firstReserved i.opcode = none

/-- The fields of a word 0 built from an OPCODE and a WIN that fit. -/
theorem word0_fields (o : Opcode) (win : Nat) (hw : win < 16) (a b d n m : Nat) :
    (assembleFields o win a b d n m).opcode = o.code ∧ (assembleFields o win a b d n m).win = win ∧
      (assembleFields o win a b d n m).rsv0 = 0 := by
  simp only [Descriptor.opcode, Descriptor.win, Descriptor.rsv0, assembleFields]
  cases o <;> interval_cases win <;> decide

/-- Fields that fit, with those the opcode does not use 0, leave nothing for the reserved-field check to find. -/
theorem firstReserved_assembleFields (o : Opcode) (win a b d n m : Nat) (hw : win < 16)
    (h0 : o.uses .win = true ∨ win = 0) (h1 : o.uses .a = true ∨ a = 0) (h2 : o.uses .b = true ∨ b = 0)
    (h3 : o.uses .d = true ∨ d = 0) (h4 : o.uses .n = true ∨ n = 0) (h5 : o.uses .m = true ∨ m = 0) :
    (assembleFields o win a b d n m).firstReserved o = none := by
  obtain ⟨-, hwin, hrsv⟩ := word0_fields o win hw a b d n m
  have hz (f : Field) (v : Nat) (h : o.uses f = true ∨ v = 0) :
      (!o.uses f && BitVec.ofNat 32 v != 0) = false := by
    rcases h with h | h <;> simp [h]
  have hz0 : (!o.uses .win && win != 0) = false := by rcases h0 with h | h <;> simp [h]
  rw [Descriptor.firstReserved, Descriptor.reservedWords, hwin, hrsv, hz0]
  simp only [assembleFields, hz _ _ h1, hz _ _ h2, hz _ _ h3, hz _ _ h4, hz _ _ h5]
  rfl

theorem halt : Statement .halt :=
  fun _ => ⟨(word0_fields .halt 0 (by omega) 0 0 0 0 0).1,
    firstReserved_assembleFields .halt 0 0 0 0 0 0 (by omega) (by decide) (by simp [Opcode.uses])
      (by simp [Opcode.uses]) (by simp [Opcode.uses]) (by simp [Opcode.uses]) (by simp [Opcode.uses])⟩

theorem nop : Statement .nop :=
  fun _ => ⟨(word0_fields .nop 0 (by omega) 0 0 0 0 0).1,
    firstReserved_assembleFields .nop 0 0 0 0 0 0 (by omega) (by decide) (by simp [Opcode.uses])
      (by simp [Opcode.uses]) (by simp [Opcode.uses]) (by simp [Opcode.uses]) (by simp [Opcode.uses])⟩

theorem decompress (d a : Nat) : Statement (.decompress d a) :=
  fun _ => ⟨(word0_fields .decompress 0 (by omega) a 0 d 0 0).1,
    firstReserved_assembleFields .decompress 0 a 0 d 0 0 (by omega) (by decide) (by simp [Opcode.uses])
      (by simp [Opcode.uses]) (by simp [Opcode.uses]) (by simp [Opcode.uses]) (by simp [Opcode.uses])⟩

theorem compress (d a : Nat) : Statement (.compress d a) :=
  fun _ => ⟨(word0_fields .compress 0 (by omega) a 0 d 0 0).1,
    firstReserved_assembleFields .compress 0 a 0 d 0 0 (by omega) (by decide) (by simp [Opcode.uses])
      (by simp [Opcode.uses]) (by simp [Opcode.uses]) (by simp [Opcode.uses]) (by simp [Opcode.uses])⟩

theorem scalarMul (d a b : Nat) : Statement (.scalarMul d a b) :=
  fun _ => ⟨(word0_fields .scalarMul 0 (by omega) a b d 0 0).1,
    firstReserved_assembleFields .scalarMul 0 a b d 0 0 (by omega) (by decide) (by simp [Opcode.uses])
      (by simp [Opcode.uses]) (by simp [Opcode.uses]) (by simp [Opcode.uses]) (by simp [Opcode.uses])⟩

theorem batchNormalize (d a n : Nat) : Statement (.batchNormalize d a n) :=
  fun _ => ⟨(word0_fields .batchNormalize 0 (by omega) a 0 d n 0).1,
    firstReserved_assembleFields .batchNormalize 0 a 0 d n 0 (by omega) (by decide) (by simp [Opcode.uses])
      (by simp [Opcode.uses]) (by simp [Opcode.uses]) (by simp [Opcode.uses]) (by simp [Opcode.uses])⟩

theorem msm (d a b n m win : Nat) : Statement (.msm d a b n m win) :=
  fun ⟨_, _, _, _, _, hw⟩ => ⟨(word0_fields .msm win hw a b d n m).1,
    firstReserved_assembleFields .msm win a b d n m hw (.inl rfl) (.inl rfl) (.inl rfl) (.inl rfl) (.inl rfl) (.inl rfl)⟩

end Sys2Proof.Laws.EncodeReserved
end

