-- ==== Sys2Proof/Machine/Assembler.lean ====
section
/-! DEFINITION. The assembler of 30_encoding.md R130 to R132: mnemonics and pseudo-instructions, operands, labels,
directives, and the source text. No step of the machine uses it; what R130 leaves open is log 20. -/

namespace Sys2Proof.Machine

/-- Why the assembler refuses a source (30_encoding.md R132; log 20). -/
inductive AsmError where
  /-- No command, pseudo-instruction or directive has this name. -/
  | unknownName (name : List Char)
  /-- The name does not take this number of operands. -/
  | operandCount (name : List Char)
  /-- An operand is neither a number nor a name. -/
  | badOperand (text : List Char)
  /-- A label operand that no line defines (for `.org` and `.align`: no earlier line). -/
  | undefinedLabel (name : List Char)
  /-- A label defined twice. -/
  | duplicateLabel (name : List Char)
  /-- A value that does not fit its field, word or byte (R132). -/
  | doesNotFit (v : Nat)
  /-- `.align 0`. -/
  | badAlign
deriving DecidableEq, Repr

/-- An operand: a number or a label (R130). -/
inductive Arg where
  | num (v : Nat)
  | label (name : List Char)
deriving DecidableEq, Repr

/-- A directive (R130). -/
inductive Directive where
  | org | desc | bytes | align
deriving DecidableEq, Repr

/-- One item of a source: a label definition, a directive, or a command or pseudo-instruction line (R130, R131). -/
inductive Item where
  | label (name : List Char)
  | directive (d : Directive) (args : List Arg)
  | command (name : List Char) (args : List Arg)
deriving DecidableEq, Repr

/-- The commands and pseudo-instructions by name, destination first (R130, R131): the command of a list of operand values
where the number of operands is right. WIN defaults to 0. -/
def mnemonicTable : List (List Char × (List Nat → Option Instr)) :=
  [("HALT".toList, fun | [] => some .halt | _ => none),
   ("NOP".toList, fun | [] => some .nop | _ => none),
   ("DECOMPRESS".toList, fun | [d, a] => some (.decompress d a) | _ => none),
   ("COMPRESS".toList, fun | [d, a] => some (.compress d a) | _ => none),
   ("SCALAR_MUL".toList, fun | [d, a, b] => some (.scalarMul d a b) | _ => none),
   ("BATCH_NORMALIZE".toList, fun | [d, a, n] => some (.batchNormalize d a n) | _ => none),
   ("MSM".toList, fun
      | [d, a, b, n, m] => some (.msm d a b n m 0)
      | [d, a, b, n, m, win] => some (.msm d a b n m win)
      | _ => none),
   ("DECODE".toList, fun | [d, a] => some (Pseudo.decode d a).expand | _ => none),
   ("ENCODE".toList, fun | [d, a] => some (Pseudo.encode d a).expand | _ => none),
   ("NORMALIZE".toList, fun | [d, a, n] => some (Pseudo.normalize d a n).expand | _ => none),
   ("MSMZ".toList, fun | [d, a, b, n] => some (Pseudo.msmz d a b n).expand | _ => none),
   ("MSMW".toList, fun | [d, a, b, n, w] => some (Pseudo.msmw d a b n w).expand | _ => none)]

/-- The operand values of a command in the order of its fields. -/
def Instr.operandValues : Instr → List Nat
  | .halt => []
  | .nop => []
  | .decompress d a => [d, a]
  | .compress d a => [d, a]
  | .scalarMul d a b => [d, a, b]
  | .batchNormalize d a n => [d, a, n]
  | .msm d a b n m win => [d, a, b, n, m, win]

/-- The first operand value that does not fit its field (R132). -/
def misfit : Instr → Option Nat
  | .msm d a b n m win =>
    if 2 ^ 4 ≤ win then some win else [d, a, b, n, m].find? (fun v => decide (2 ^ 32 ≤ v))
  | i => (Instr.operandValues i).find? (fun v => decide (2 ^ 32 ≤ v))

/-- The command a line assembles to (R130 to R132). -/
def assembleCommand (name : List Char) (vs : List Nat) : Except AsmError Instr :=
  match mnemonicTable.find? (fun row => row.1 == name) with
  | none => .error (.unknownName name)
  | some row =>
    match row.2 vs with
    | none => .error (.operandCount name)
    | some i =>
      match misfit i with
      | some v => .error (.doesNotFit v)
      | none => .ok i

/-- The offsets the labels stand for (R130). -/
abbrev Labels := List (List Char × Nat)

/-- The value of an operand. -/
def Arg.value (ls : Labels) : Arg → Except AsmError Nat
  | .num v => .ok v
  | .label name =>
    match ls.find? (fun l => l.1 == name) with
    | some l => .ok l.2
    | none => .error (.undefinedLabel name)

/-- The values of a list of operands. -/
def argValues (ls : Labels) : List Arg → Except AsmError (List Nat)
  | [] => .ok []
  | a :: rest =>
    match a.value ls with
    | .error e => .error e
    | .ok v => (argValues ls rest).map (fun vs => v :: vs)

/-- The one operand of `.org` or `.align`: a number, or a label that an earlier line defines (DESIGN CHOICE, log 20). -/
def oneValue (ls : Labels) (name : List Char) : List Arg → Except AsmError Nat
  | [a] => a.value ls
  | _ => .error (.operandCount name)

/-- How many zero bytes bring the offset to a multiple of k (R130). -/
def padding (k off : Nat) : Nat := (k - off % k) % k

/-- The offset after an item at offset `off`: a descriptor occupies 32 bytes (R130). -/
def Item.next (ls : Labels) (off : Nat) : Item → Except AsmError Nat
  | .label _ => .ok off
  | .command _ _ => .ok (off + 32)
  | .directive .desc _ => .ok (off + 32)
  | .directive .bytes args => .ok (off + args.length)
  | .directive .org args => oneValue ls ".org".toList args
  | .directive .align args =>
    match oneValue ls ".align".toList args with
    | .error e => .error e
    | .ok k => if k = 0 then .error .badAlign else .ok (off + padding k off)

/-- First pass: the offset of every label, so that a command, `.desc` or `.bytes` may name a label of a later line; a label
defined twice is refused (DESIGN CHOICE, log 20). -/
def collectLabels (ls : Labels) (off : Nat) : List Item → Except AsmError Labels
  | [] => .ok ls
  | it :: rest =>
    match it.next ls off with
    | .error e => .error e
    | .ok off' =>
      match it with
      | .label name =>
        if ls.any (fun l => l.1 == name) then .error (.duplicateLabel name)
        else collectLabels ((name, off) :: ls) off' rest
      | .directive _ _ => collectLabels ls off' rest
      | .command _ _ => collectLabels ls off' rest

/-- The descriptor of eight word values. -/
def rawDescriptor : List Nat → Option Descriptor
  | [w0, w1, w2, w3, w4, w5, w6, w7] =>
    some ⟨.ofNat 32 w0, .ofNat 32 w1, .ofNat 32 w2, .ofNat 32 w3, .ofNat 32 w4, .ofNat 32 w5, .ofNat 32 w6,
      .ofNat 32 w7⟩
  | _ => none

/-- The bytes an item emits at offset `off` (R130, R132). -/
def Item.emit (ls : Labels) (off : Nat) : Item → Except AsmError (List Byte)
  | .label _ => .ok []
  | .command name args =>
    match argValues ls args with
    | .error e => .error e
    | .ok vs => (assembleCommand name vs).map (fun i => (encode i).toBytes)
  | .directive .org _ => .ok []
  | .directive .align args => (oneValue ls ".align".toList args).map (fun k => zeroBytes (padding k off))
  | .directive .bytes args =>
    match argValues ls args with
    | .error e => .error e
    | .ok vs =>
      match vs.find? (fun v => decide (2 ^ 8 ≤ v)) with
      | some v => .error (.doesNotFit v)
      | none => .ok (vs.map (fun v => BitVec.ofNat 8 v))
  | .directive .desc args =>
    match argValues ls args with
    | .error e => .error e
    | .ok vs =>
      match vs.find? (fun v => decide (2 ^ 32 ≤ v)) with
      | some v => .error (.doesNotFit v)
      | none =>
        match rawDescriptor vs with
        | some x => .ok x.toBytes
        | none => .error (.operandCount ".desc".toList)

/-- Second pass: the bytes of every item at its offset. R130 does not say what two items that emit bytes at one offset
(after a `.org` backwards) assemble to: none is refused, and the bytes of the later item stand (DESIGN CHOICE, log 20). -/
def emitItems (ls : Labels) (off : Nat) (m : Memory) : List Item → Except AsmError Memory
  | [] => .ok m
  | it :: rest =>
    match it.emit ls off with
    | .error e => .error e
    | .ok bs =>
      match it.next ls off with
      | .error e => .error e
      | .ok off' => emitItems ls off' (m.writeBytes off bs) rest

/-- The OPRAM image of a list of items, assembled from offset 0 (DESIGN CHOICE, log 20). -/
def assembleItems (items : List Item) : Except AsmError Memory :=
  match collectLabels [] 0 items with
  | .error e => .error e
  | .ok ls => emitItems ls 0 [] items

/-! The source text. -/

/-- Split at every occurrence of a character. -/
def splitChars (c : Char) : List Char → List (List Char)
  | [] => [[]]
  | x :: xs =>
    if x = c then [] :: splitChars c xs
    else
      match splitChars c xs with
      | [] => [[x]]
      | w :: ws => (x :: w) :: ws

/-- A blank: a space, a tab or a carriage return (DESIGN CHOICE, log 20). -/
def isBlank (c : Char) : Bool := c == ' ' || c == '\t' || c == '\r'

/-- Drop blanks on both sides. -/
def trimChars (cs : List Char) : List Char := ((cs.dropWhile isBlank).reverse.dropWhile isBlank).reverse

/-- The value of a digit, decimal or hexadecimal; R130 does not say in which case the letters stand, and both are read
(DESIGN CHOICE, log 20). -/
def digitValue (c : Char) : Option Nat :=
  if '0' ≤ c ∧ c ≤ '9' then some (c.toNat - '0'.toNat)
  else if 'a' ≤ c ∧ c ≤ 'f' then some (c.toNat - 'a'.toNat + 10)
  else if 'A' ≤ c ∧ c ≤ 'F' then some (c.toNat - 'A'.toNat + 10)
  else none

/-- The value of a digit string in a base. -/
def digitsValue (base acc : Nat) : List Char → Option Nat
  | [] => some acc
  | c :: cs =>
    match digitValue c with
    | none => none
    | some v => if v < base then digitsValue base (base * acc + v) cs else none

/-- A number: decimal, or hexadecimal after `0x` (R130). -/
def parseNumber : List Char → Option Nat
  | [] => none
  | '0' :: 'x' :: c :: cs => digitsValue 16 0 (c :: cs)
  | c :: cs => digitsValue 10 0 (c :: cs)

/-- A character that may begin a name (DESIGN CHOICE, log 20). -/
def nameStart (c : Char) : Bool := c.isAlpha || c == '_' || c == '.'

/-- A name: a letter, an underscore or a dot, then letters, digits, underscores and dots. R130 does not say which
characters a label name may hold; any other text is refused (DESIGN CHOICE, log 20). -/
def isName : List Char → Bool
  | [] => false
  | c :: cs => nameStart c && cs.all (fun x => nameStart x || x.isDigit)

/-- An operand's text (R130): what reads as a number is one, any other name a label. -/
def parseArg (cs : List Char) : Except AsmError Arg :=
  match parseNumber cs with
  | some v => .ok (.num v)
  | none => if isName cs then .ok (.label cs) else .error (.badOperand cs)

/-- The operands of a line, separated by commas (R130); none where the text is blank, and an empty operand between or
after commas is refused (DESIGN CHOICE, log 20). -/
def parseArgs (cs : List Char) : Except AsmError (List Arg) :=
  if trimChars cs = [] then .ok [] else ((splitChars ',' cs).map trimChars).mapM parseArg

/-- The item of a name with its operands. -/
def itemOf (name : List Char) (args : List Arg) : Item :=
  if name = ".org".toList then .directive .org args
  else if name = ".desc".toList then .directive .desc args
  else if name = ".bytes".toList then .directive .bytes args
  else if name = ".align".toList then .directive .align args
  else .command name args

/-- A line without label definitions: a name up to the first blank, matched as it is written, then its operands (DESIGN
CHOICE, log 20); a blank line assembles to nothing. -/
def parseStatement (cs : List Char) : Except AsmError (List Item) :=
  let t := trimChars cs
  if t = [] then .ok []
  else
    let name := t.takeWhile (fun c => !isBlank c)
    (parseArgs (t.dropWhile (fun c => !isBlank c))).map (fun args => [itemOf name args])

/-- The label definitions `name:` at the head of a line, any number of them, then its statement: R130 does not say how a
label is defined (DESIGN CHOICE, log 20). -/
def parseLabels : List (List Char) → Except AsmError (List Item)
  | [] => .ok []
  | [last] => parseStatement last
  | name :: rest =>
    if isName (trimChars name) then (parseLabels rest).map (fun items => .label (trimChars name) :: items)
    else .error (.badOperand name)

/-- One source line: `;` starts a comment (R130). -/
def parseLine (cs : List Char) : Except AsmError (List Item) :=
  parseLabels (splitChars ':' (cs.takeWhile (fun c => c != ';')))

/-- Assemble a source text to its OPRAM image (R130 to R132). -/
def assemble (source : String) : Except AsmError Memory :=
  match (splitChars '\n' source.toList).mapM parseLine with
  | .error e => .error e
  | .ok items => assembleItems items.flatten

end Sys2Proof.Machine
end

