-- ==== Sys2Proof/Tests/Slice0.lean ====
section
/-! SUPPORT. Tests: the WellFormed smoke, words written out from the encoding tables, one or two small tests per command
with expected values from 95_test_vectors.md or from hand calculation, and for every statement with hypotheses a witness
that meets them. -/

set_option Elab.async false

namespace Sys2Proof.Tests

open Sys2Proof Sys2Proof.Machine

/-! WellFormed: an ill-formed term for each check (30_encoding.md R132). -/

theorem test_wf_d_too_large : ¬ (Instr.decompress (2 ^ 32) 0).WellFormed := by decide
theorem test_wf_a_too_large : ¬ (Instr.compress 0 (2 ^ 32)).WellFormed := by decide
theorem test_wf_b_too_large : ¬ (Instr.scalarMul 0 0 (2 ^ 32)).WellFormed := by decide
theorem test_wf_n_too_large : ¬ (Instr.batchNormalize 0 0 (2 ^ 32)).WellFormed := by decide
theorem test_wf_m_too_large : ¬ (Instr.msm 0 0 0 0 (2 ^ 32) 0).WellFormed := by decide
theorem test_wf_win_too_large : ¬ (Instr.msm 0 0 0 0 0 16).WellFormed := by decide
theorem test_wf_largest : (Instr.msm (2 ^ 32 - 1) (2 ^ 32 - 1) (2 ^ 32 - 1) (2 ^ 32 - 1) (2 ^ 32 - 1) 15).WellFormed := by
  decide

/-! Words written out bit by bit from 30_encoding.md R121, R122, R125 (word 0: OPCODE [7:0], WIN [11:8]; words 1 to 5:
A, B, D, N, M). The bytes of the MSM are the worked example of R132, those of HALT and NOP the examples of 40_sequencer.md
R144 and R145. -/

/-- The command the decoder reads from 32 bytes. -/
def decoded (bs : List Byte) : Except DecodeError Instr := decode (Descriptor.ofBytes bs)

theorem test_decode_halt : decoded ([0x01, 0, 0, 0] ++ zeroBytes 28) = .ok .halt := by decide
theorem test_decode_nop : decoded ([0x02, 0, 0, 0] ++ zeroBytes 28) = .ok .nop := by decide
theorem test_decode_decompress :
    decoded ([0x10, 0, 0, 0, 0x00, 0x01, 0, 0, 0, 0, 0, 0, 0x00, 0x02, 0, 0] ++ zeroBytes 16) =
      .ok (.decompress 0x200 0x100) := by decide
theorem test_decode_compress :
    decoded ([0x11, 0, 0, 0, 0x80, 0x02, 0, 0, 0, 0, 0, 0, 0x78, 0x56, 0x34, 0x12] ++ zeroBytes 16) =
      .ok (.compress 0x12345678 0x280) := by decide
theorem test_decode_scalarMul :
    decoded ([0x20, 0, 0, 0, 0x00, 0x02, 0, 0, 0x40, 0x01, 0, 0, 0x80, 0x02, 0, 0] ++ zeroBytes 16) =
      .ok (.scalarMul 0x280 0x200 0x140) := by decide
theorem test_decode_batchNormalize :
    decoded ([0x30, 0, 0, 0, 0x00, 0x02, 0, 0, 0, 0, 0, 0, 0x00, 0x04, 0, 0, 3, 0, 0, 0] ++ zeroBytes 12) =
      .ok (.batchNormalize 0x400 0x200 3) := by decide
theorem test_decode_msm :
    decoded [0x40, 0, 0, 0, 0, 0x10, 0, 0, 0, 0x20, 0, 0, 0, 0x30, 0, 0, 2, 0, 0, 0, 2, 0, 0, 0, 0, 0, 0, 0, 0, 0, 0, 0] =
      .ok (.msm 0x3000 0x1000 0x2000 2 2 0) := by decide
theorem test_decode_msm_win :
    decoded ([0x40, 0x0f, 0, 0, 0, 0x10, 0, 0, 0, 0x20, 0, 0, 0, 0x30, 0, 0, 2, 0, 0, 0, 3, 0, 0, 0] ++ zeroBytes 8) =
      .ok (.msm 0x3000 0x1000 0x2000 2 3 15) := by decide
theorem test_decode_illegal_zero : decoded (zeroBytes 32) = .error (.illegalOpcode 0) := by decide
theorem test_decode_illegal_subgroup_check : decoded (0x50 :: zeroBytes 31) = .error (.illegalOpcode 0x50) := by decide
theorem test_decode_nop_win : decoded ([0x02, 0x01] ++ zeroBytes 30) = .error (.reservedNonzero 0) := by decide
theorem test_decode_nop_word6 :
    decoded ([0x02] ++ zeroBytes 23 ++ [1] ++ zeroBytes 7) = .error (.reservedNonzero 6) := by decide
theorem test_table_word_msm :
    decodeTableWord 256 (0x40 + 0x7 * 2 ^ 8 + 0x400 * 2 ^ 32 + 0x300 * 2 ^ 64 + 0x500 * 2 ^ 96 + 2 * 2 ^ 128 + 2 * 2 ^ 160) =
      some (.msm 0x500 0x400 0x300 2 2 7) := by decide +kernel

/-! The assembler (30_encoding.md R130 to R132). -/

theorem test_assemble_worked_example :
    (match assemble "MSM 0x3000, 0x1000, 0x2000, 2, 2 ; the example of R132" with
      | .ok m => m.map (·.2)
      | .error _ => []) =
      [0x40, 0, 0, 0, 0, 0x10, 0, 0, 0, 0x20, 0, 0, 0, 0x30, 0, 0, 2, 0, 0, 0, 2, 0, 0, 0, 0, 0, 0, 0, 0, 0, 0, 0] := by
  decide +kernel
theorem test_assemble_pseudo : assembleCommand "MSMW".toList [5, 4, 3, 2, 7] = .ok (.msm 5 4 3 2 2 7) := by decide +kernel
theorem test_assemble_refuses_win : assembleCommand "MSM".toList [0, 0, 0, 1, 1, 16] = .error (.doesNotFit 16) := by
  decide +kernel

/-! Reference values: the points of 95_test_vectors.md section 2 on the default curve. -/

/-- G. -/
def pointG : Point := .fin Curve.bls12381.gx Curve.bls12381.gy

/-- The x-coordinate of 2G. -/
def x2G : Nat :=
  0x0572cbea904d67468808c8eb50a9450c9721db309128012543902d0ac358a62ae28f75bb8f1c7c42c39a8c5529bf0f4e

/-- The y-coordinate of 2G. -/
def y2G : Nat :=
  0x166a9d8cabc673a322fda673779d8e3822ba3ecb8670e461f73bb9021d5fd76a4c56d9d4cd16bd1bba86881979749d28

/-- V-C1: DECOMPRESS of C(G). -/
theorem test_decompress_generator :
    decompressBytes Curve.bls12381 (beBytes 48
      0x97f1d3a73197d7942695638c4fa9ac0fc3688c4f9774b905a14e3a3f171bac586c55e83ff97a1aeffb3af00adb22c6bb) =
      .ok (affBytes pointG) := by decide +kernel

/-- V-C7: x = 1 has no square root. -/
theorem test_decompress_no_root :
    decompressBytes Curve.bls12381 (0x80 :: zeroBytes 46 ++ [0x01]) = .error ⟨.decodeError, 4⟩ := by decide +kernel

/-- V-C4: COMPRESS of AffBytes(2G). -/
theorem test_compress_2G :
    compressBytes Curve.bls12381 (affBytes (.fin x2G y2G)) = .ok (beBytes 48
      0xa572cbea904d67468808c8eb50a9450c9721db309128012543902d0ac358a62ae28f75bb8f1c7c42c39a8c5529bf0f4e) := by
  decide +kernel

/-- V-C18: COMPRESS of AffBytes((1, 1)). -/
theorem test_compress_off_curve :
    compressBytes Curve.bls12381 (affBytes (.fin 1 1)) = .error ⟨.notOnCurve, 0⟩ := by decide +kernel

/-- V-S3 rests on 2G = PointDbl(G). -/
theorem test_double_generator : pointDbl Curve.bls12381 pointG = .fin x2G y2G := by decide +kernel

/-- V-B2: the example of 43_batch_normalize.md R190, records (4 Gx, 8 Gy, 2) and (1, 1, 0). -/
theorem test_batch_two_records :
    batchBytes Curve.bls12381 2
      (jacobianBytes ⟨4 * Curve.bls12381.gx % Curve.bls12381.p, 8 * Curve.bls12381.gy % Curve.bls12381.p, 2⟩ ++
        jacobianBytes ⟨1, 1, 0⟩) = .ok (affBytes pointG ++ affBytes .inf) := by decide +kernel

/-! A small curve for the other tests and the witnesses, by hand: y^2 = x^3 + 4 over F_7 has the points O, (0, 2) and
(0, 5), a group of order 3 in which 2 * (0, 2) = (0, 5). -/

/-- y^2 = x^3 + 4 over F_7. -/
def tiny : Curve := ⟨7, 3, 4, 1, 0, 2⟩

/-- The smallest OPRAM, 4 KiB, with the small curve. -/
def tinyConfig : Config := ⟨12, 12, tiny⟩

theorem test_tiny_elliptic : tiny.Elliptic := ⟨by decide, by decide, by decide, by decide⟩

/-- The point (0, 2). -/
def pointT : Point := .fin 0 2

/-- An idle machine with OPRAM `m`. -/
def idleWith (m : Memory) : State := { State.reset with cfg := tinyConfig, opram := m }

/-- A machine READY at pc with OPRAM `m`. -/
def readyAt (pc : Word) (m : Memory) : State := { idleWith m with phase := .ready, cmdPtr := pc }

/-- OPRAM that holds the bytes `bs` from offset a on. -/
def held (a : Nat) (bs : List Byte) : Memory := Memory.writeBytes [] a bs

/-- OPRAM that holds two blocks of bytes. -/
def held2 (a : Nat) (bs : List Byte) (b : Nat) (cs : List Byte) : Memory := (held a bs).writeBytes b cs

/-- A block just written is held. -/
theorem holds_held (pc : Word) (a : Nat) (bs : List Byte) : (readyAt pc (held a bs)).Holds a bs :=
  fun _ h => Memory.read_writeBytes_inside _ _ _ _ h

theorem holds_held2_right (pc : Word) (a b : Nat) (bs cs : List Byte) : (readyAt pc (held2 a bs b cs)).Holds b cs :=
  fun _ h => Memory.read_writeBytes_inside _ _ _ _ h

theorem holds_held2_left (pc : Word) (a b : Nat) (bs cs : List Byte) (h : a + bs.length ≤ b) :
    (readyAt pc (held2 a bs b cs)).Holds a bs := by
  intro i hi
  show Memory.read (Memory.writeBytes _ b cs) (a + i) = _
  rw [Memory.read_writeBytes_outside _ _ _ _ (.inl (by omega))]
  exact Memory.read_writeBytes_inside _ _ _ _ hi

/-- Does the outcome answer this next state? -/
def answers (o : Host.Outcome State Fault Refusal) (t : State) : Bool :=
  match o with
  | .next u => decide (u = t)
  | .fault _ => false
  | .refused _ => false

theorem answers_next {o : Host.Outcome State Fault Refusal} {t : State} (h : answers o t = true) : o = .next t := by
  cases o <;> simp_all [answers]

theorem pointT_on_curve : pointOnCurve tiny pointT := by
  refine ⟨?_, ?_, ?_⟩ <;> decide +kernel

/-- HALT retires, sets DONE and goes idle (40_sequencer.md R144, its example at pc = 0x40). -/
theorem test_halt : step (readyAt 0x40 (held 0x40 (0x01 :: zeroBytes 31))) =
    .next { idleWith (held 0x40 (0x01 :: zeroBytes 31)) with
      cmdPtr := 0x60, cmdCount := 1, done := true, scratch := Config.freeScratch 0, draws := 1 } := by rfl

/-- NOP retires (R145, its example at pc = 0). -/
theorem test_nop : step (readyAt 0 (held 0 (0x02 :: zeroBytes 31))) =
    .next { readyAt 0x20 (held 0 (0x02 :: zeroBytes 31)) with
      cmdCount := 1, scratch := Config.freeScratch 0, draws := 1 } := by rfl

/-- 2 * (0, 2) = (0, 5), bit 255 of the scalar being ignored (42_scalar_mul.md R186). -/
theorem test_scalarMul : scalarMulBytes tiny (affBytes pointT) (2 :: zeroBytes 30 ++ [0x80]) =
    .ok (affBytes (.fin 0 5)) := by decide +kernel

/-- 4 * (0, 2) + 1 * (0, 5) = (0, 2) + (0, 5) = O, for two windows (44_msm.md R206). -/
theorem test_msm : msmBytes tiny 1 2 (affBytes pointT ++ affBytes (.fin 0 5)) (leBytes 32 4 ++ leBytes 32 1) =
    .ok (affBytes .inf) ∧
    msmBytes tiny 3 2 (affBytes pointT ++ affBytes (.fin 0 5)) (leBytes 32 4 ++ leBytes 32 1) =
    .ok (affBytes .inf) := by decide +kernel

/-- The host starts a run (10_state.md R48). -/
theorem test_start : step { idleWith [] with agenda := [.host (.csrWrite .b4 0x00C 5)] } =
    .next { readyAt 0 [] with irqEn := true } := answers_next (by decide +kernel)

/-! What the host's interface asks: the fetch of a loaded word. -/

theorem test_withFetchWord_halt : (match step (State.reset.withFetchWord 256 1) with
    | .next t => decide (t.done = true ∧ t.cmdPtr = 32)
    | .fault _ => false
    | .refused _ => false) = true := by decide +kernel

/-! Witnesses: for every statement with hypotheses a concrete state and operands that meet them all. -/

theorem test_hyp_DecodeOfEncodeIsIdentity : (Instr.msm 0 (2 ^ 32 - 1) 0 1 1 15).WellFormed := by decide

theorem test_hyp_DecodedDescriptorIsItsEncoding : decode ⟨0x740, 0x400, 0x300, 0x500, 2, 2, 0, 0⟩ =
    .ok (.msm 0x500 0x400 0x300 2 2 7) := by decide

theorem test_hyp_DescriptorBytesRoundTrip : (zeroBytes 32).length = 32 := by decide

/-- A machine READY at a written descriptor at 0. -/
def atBytes (bs : List Byte) : State := readyAt 0 (held 0 bs)

/-- An engine turn with a host turn still to come, and the empty agenda. -/
theorem test_hyp_EngineTurn :
    ({ atBytes [] with agenda := [.engine, .host (.csrRead .b4 0)] } : State).EngineTurn [.host (.csrRead .b4 0)] ∧
    (atBytes []).EngineTurn [] := ⟨.inl rfl, .inr ⟨rfl, rfl⟩⟩

theorem test_hyp_IllegalOpcodeRaises : (atBytes (zeroBytes 32)).Unmarked ∧ (atBytes (zeroBytes 32)).EngineTurn [] ∧
    (atBytes (zeroBytes 32)).AtDescriptor ∧
    decode (atBytes (zeroBytes 32)).fetchedDescriptor = .error (.illegalOpcode 0) :=
  ⟨rfl, .inr ⟨rfl, rfl⟩, ⟨rfl, by decide +kernel, by decide +kernel⟩, by decide +kernel⟩

/-- The descriptor bytes of a NOP with a nonzero word 7. -/
def nopWord7 : List Byte := [0x02] ++ zeroBytes 27 ++ [1] ++ zeroBytes 3

theorem test_hyp_ReservedNonzeroRaises : (atBytes nopWord7).Unmarked ∧ (atBytes nopWord7).EngineTurn [] ∧
    (atBytes nopWord7).AtDescriptor ∧ decode (atBytes nopWord7).fetchedDescriptor = .error (.reservedNonzero 7) :=
  ⟨rfl, .inr ⟨rfl, rfl⟩, ⟨rfl, by decide +kernel, by decide +kernel⟩, by decide +kernel⟩

/-- The bytes of a HALT. -/
def haltBytes : List Byte := 0x01 :: zeroBytes 31

theorem test_hyp_StepRunsDecodedCommand : (atBytes haltBytes).Unmarked ∧ (atBytes haltBytes).phase = .ready ∧
    (atBytes haltBytes).fetchError = none ∧ haltBytes.length = 32 ∧
    (atBytes haltBytes).Holds (atBytes haltBytes).cmdPtr.toNat haltBytes ∧
    decode (Descriptor.ofBytes haltBytes) = .ok .halt ∧ (atBytes haltBytes).agenda = [] := by decide +kernel

theorem test_hyp_StepRunsDecodedCommand_turn :
    ({ atBytes haltBytes with agenda := [.engine, .powerOn] } : State).agenda = .engine :: [.powerOn] := rfl

/-- One state for each clause of FetchCheck: the least and greatest misaligned pc, the first pc beyond OPRAM, and the last
descriptor of OPRAM, unwritten. -/
theorem test_hyp_FetchChecksRaise :
    (∀ s ∈ [readyAt 1 [], readyAt 0xFFFFFFFF [], readyAt 0x1000 [], readyAt 0xFE0 []],
      s.Unmarked ∧ s.EngineTurn [] ∧ s.phase = .ready) ∧
    (readyAt 1 []).cmdPtr.toNat % 32 ≠ 0 ∧ (readyAt 0xFFFFFFFF []).cmdPtr.toNat % 32 ≠ 0 ∧
    ((readyAt 0x1000 []).cmdPtr.toNat % 32 = 0 ∧
      (readyAt 0x1000 []).cfg.opramBytes < (readyAt 0x1000 []).cmdPtr.toNat + 32) ∧
    ((readyAt 0xFE0 []).cmdPtr.toNat % 32 = 0 ∧
      (readyAt 0xFE0 []).cmdPtr.toNat + 32 ≤ (readyAt 0xFE0 []).cfg.opramBytes ∧
      (readyAt 0xFE0 []).regionWritten (readyAt 0xFE0 []).descriptorRegion = false) := by decide +kernel

theorem test_hyp_HaltStopsTheRun : exec .halt (atBytes haltBytes) =
    .next (atBytes haltBytes).scrambleScratch.halt := rfl

theorem test_hyp_NopRetires : (1 : Word) ≠ 0 := by decide

/-- Two output regions of one byte that share their byte. -/
def twoOutputs : Inflight := ⟨0, [⟨16, [1]⟩, ⟨16, [2]⟩]⟩

theorem test_hyp_CommitWritesTheOutput : ∃ s : State, s.Unmarked ∧ s.EngineTurn [.powerOn] ∧ s.phase = .inflight twoOutputs ∧
    twoOutputs.outputs = [⟨16, [1]⟩] ++ (⟨16, [2]⟩ : Output) :: [] :=
  ⟨{ readyAt 0 [] with phase := .inflight twoOutputs, agenda := [.engine, .powerOn] }, rfl, .inl rfl, rfl, rfl⟩

theorem test_hyp_CommandFrame :
    exec .nop (readyAt 0 []) = .next (readyAt 0 []).scrambleScratch.retire ∧
    commandOperands (.decompress 0 0x100) = some (decompressOperands 0 0x100) ∧
    (readyAt 0 (held 0x100 (zeroBytes 48))).InputsWritten (decompressOperands 0 0x100) := by
  refine ⟨rfl, rfl, ?_⟩
  simpa [Operands.inputs, decompressOperands] using
    State.regionWritten_of_holds _ 0x100 48 _ (by decide) (holds_held 0 0x100 (zeroBytes 48))

/-- For each kind of check a command that fails it first, at a boundary value. -/
theorem test_hyp_FirstFailingCheckIsReported :
    FirstFails (commandChecks tinyConfig 4096 (.msm 0 0 0 1 2 13)) ⟨.badWindow, 13⟩ ∧
    FirstFails (commandChecks tinyConfig 4096 (.msm 1 1 1 1 2 12)) ⟨.lengthMismatch, 0⟩ ∧
    FirstFails (commandChecks tinyConfig 4096 (.batchNormalize 0 15 0)) ⟨.misaligned, 1⟩ ∧
    FirstFails (commandChecks tinyConfig 4096 (.scalarMul 0 0x100 0x90)) ⟨.misaligned, 2⟩ ∧
    FirstFails (commandChecks tinyConfig 4096 (.compress 1 0)) ⟨.misaligned, 3⟩ ∧
    FirstFails (commandChecks tinyConfig 4096 (.decompress 0 4064)) ⟨.outOfRange, 1⟩ ∧
    FirstFails (commandChecks tinyConfig 4096 (.scalarMul 0 0x100 4096)) ⟨.outOfRange, 2⟩ ∧
    FirstFails (commandChecks tinyConfig 4096 (.decompress 3984 0)) ⟨.outOfRange, 3⟩ ∧
    FirstFails (commandChecks tinyConfig 4096 (.decompress 32 0)) ⟨.overlap, 1⟩ ∧
    FirstFails (commandChecks tinyConfig 4096 (.scalarMul 0x440 0x400 0x500)) ⟨.overlap, 1⟩ ∧
    FirstFails (commandChecks tinyConfig 4096 (.scalarMul 0x4F0 0x400 0x500)) ⟨.overlap, 2⟩ := by
  simp [FirstFails, commandChecks, tinyConfig]

/-- A misaligned pc stops the run. -/
theorem test_hyp_ErrorsArePrecise : (readyAt 1 []).EngineTurn [] ∧ (readyAt 1 []).busy = true ∧
    (readyAt 1 []).error = false ∧ step (readyAt 1 []) = .next ((readyAt 1 []).raiseError ⟨.misaligned, 0⟩) ∧
    ((readyAt 1 []).raiseError ⟨.misaligned, 0⟩).error = true :=
  ⟨.inr ⟨rfl, rfl⟩, rfl, rfl, answers_next (by decide +kernel), rfl⟩

theorem test_hyp_UnwrittenReadIsMarked : commandOperands (.decompress 0 128) = some (decompressOperands 0 128) ∧
    AllPass (commandChecks (readyAt 0 []).cfg (readyAt 0 []).cfg.opramBytes (.decompress 0 128)) ∧
    ¬ (readyAt 0 []).InputsWritten (decompressOperands 0 128) := by
  refine ⟨rfl, ?_, by decide +kernel⟩
  simp [AllPass, commandChecks, readyAt, idleWith, tinyConfig, Config.opramBytes]

/-- The compressed encoding of (0, 2) on either curve: 80 and 47 zero bytes (V-C20). -/
def compressedT : List Byte := 0x80 :: zeroBytes 47

/-- OPRAM with one record at 256. -/
def atRecord (bs : List Byte) : State := readyAt 0 (held 256 bs)

/-- The checks of DECOMPRESS D = 0, A = 256 pass. -/
theorem decompress_checks (bs : List Byte) :
    AllPass (commandChecks (atRecord bs).cfg (atRecord bs).cfg.opramBytes (.decompress 0 256)) := by
  simp [AllPass, commandChecks, atRecord, readyAt, idleWith, tinyConfig, Config.opramBytes]

/-- The checks of COMPRESS D = 0, A = 256 pass. -/
theorem compress_checks (bs : List Byte) :
    AllPass (commandChecks (atRecord bs).cfg (atRecord bs).cfg.opramBytes (.compress 0 256)) := by
  simp [AllPass, commandChecks, atRecord, readyAt, idleWith, tinyConfig, Config.opramBytes]

theorem test_hyp_DecompressComputesItsRecord :
    AllPass (commandChecks (atRecord compressedT).cfg (atRecord compressedT).cfg.opramBytes (.decompress 0 256)) ∧
    compressedT.length = 48 ∧ (atRecord compressedT).Holds 256 compressedT ∧
    decodePoint (atRecord compressedT).cfg.curve (beInt compressedT) = .ok pointT :=
  ⟨decompress_checks _, by decide, holds_held _ _ _, by decide +kernel⟩

theorem test_hyp_DecompressRaisesDecodeError :
    AllPass (commandChecks (atRecord (zeroBytes 48)).cfg (atRecord (zeroBytes 48)).cfg.opramBytes (.decompress 0 256)) ∧
    (zeroBytes 48).length = 48 ∧ (atRecord (zeroBytes 48)).Holds 256 (zeroBytes 48) ∧
    decodePoint (atRecord (zeroBytes 48)).cfg.curve (beInt (zeroBytes 48)) = .error ⟨.decodeError, 1⟩ :=
  ⟨decompress_checks _, by decide, holds_held _ _ _, by decide +kernel⟩

/-- A value for each clause of Decode on the small curve, x = 7 = p and x = 1 (no root) among them. -/
theorem test_hyp_DecodeReasonsInOrder : tiny.p.Prime ∧ tiny.p % 4 = 3 ∧ tiny.p < 2 ^ 381 ∧
    (2 ^ 383 - 1).testBit 383 = false ∧
    ((2 ^ 383 + 2 ^ 382 + 2 ^ 381).testBit 383 = true ∧ (2 ^ 383 + 2 ^ 382 + 2 ^ 381).testBit 382 = true ∧
      (2 ^ 383 + 2 ^ 382 + 2 ^ 381).testBit 381 = true) ∧
    ((2 ^ 383 + 2 ^ 382).testBit 381 = false ∧ (2 ^ 383 + 2 ^ 382) % 2 ^ 381 = 0) ∧
    ((2 ^ 383 + 7).testBit 382 = false ∧ tiny.p ≤ (2 ^ 383 + 7) % 2 ^ 381) ∧
    ((2 ^ 383 + 1) % 2 ^ 381 < tiny.p ∧ ∀ y < tiny.p, onCurve tiny ((2 ^ 383 + 1) % 2 ^ 381) y = false) ∧
    (2 < tiny.p ∧ onCurve tiny (2 ^ 383 % 2 ^ 381) 2 = true ∧ sgn tiny.p 2 = ((2 ^ 383).testBit 381).toNat) := by
  refine ⟨by decide, by decide, by decide +kernel, by decide +kernel, by decide +kernel, by decide +kernel,
    by decide +kernel, by decide +kernel, by decide +kernel⟩

theorem test_hyp_DecodedPointsAreOnCurve : 0 < tiny.p ∧ decodePoint tiny (2 ^ 383) = .ok pointT := by decide +kernel

/-- The record (0, 2) and the record with INF = 1 and other bytes 0xaa, 0x55 (V-C19). -/
theorem test_hyp_CompressComputesItsBytes :
    (AllPass (commandChecks tinyConfig 4096 (.compress 0 256)) ∧ (zeroBytes 31).length = 31 ∧
      (atRecord (affineRecord 0 2 0 (zeroBytes 31))).Holds 256 (affineRecord 0 2 0 (zeroBytes 31)) ∧
      0 < tiny.p ∧ 2 < tiny.p ∧ onCurve tiny 0 2 = true) ∧
    ((List.replicate 31 (0x55 : Byte)).length = 31 ∧
      (atRecord (affineRecord (2 ^ 384 - 1) (2 ^ 384 - 1) 1 (List.replicate 31 0x55))).Holds 256
        (affineRecord (2 ^ 384 - 1) (2 ^ 384 - 1) 1 (List.replicate 31 0x55))) :=
  ⟨⟨compress_checks [], by decide, holds_held _ _ _, by decide, by decide, by decide +kernel⟩, by decide,
    holds_held _ _ _⟩

/-- INF = 2; Y = p; the point (1, 1) off the curve. -/
theorem test_hyp_BadAffineOperandIsRejected :
    AllPass (commandChecks tinyConfig 4096 (.compress 0 256)) ∧
    (∀ r ∈ [affineRecord 0 2 2 (zeroBytes 31), affineRecord 0 7 0 (zeroBytes 31), affineRecord 1 1 0 (zeroBytes 31)],
      (atRecord r).Holds 256 r) ∧ tiny.p ≤ 7 ∧ 1 < tiny.p ∧ onCurve tiny 1 1 = false :=
  ⟨compress_checks [], fun _ _ => holds_held _ _ _, by decide, by decide, by decide +kernel⟩

theorem test_hyp_CodecIsABijection : tiny.p.Prime ∧ tiny.p % 4 = 3 ∧ tiny.p < 2 ^ 381 ∧ pointOnCurve tiny pointT ∧
    pointOnCurve tiny .inf ∧ 2 ^ 383 < 2 ^ 384 ∧ decodePoint tiny (2 ^ 383) = .ok pointT :=
  ⟨by decide, by decide, by decide +kernel, pointT_on_curve, trivial, by decide +kernel, by decide +kernel⟩

theorem test_hyp_InfinityPattern : (0xe0 :: zeroBytes 47).length = 48 ∧
    (beInt (0xe0 :: zeroBytes 47)).testBit 382 = true ∧ 0xe0 :: zeroBytes 47 ≠ 0xc0 :: zeroBytes 47 := by
  decide +kernel

theorem test_hyp_AffineRecordRoundTrip : tiny.p < 2 ^ 384 ∧ pointOnCurve tiny pointT ∧ (zeroBytes 31).length = 31 :=
  ⟨by decide +kernel, pointT_on_curve, by decide⟩

theorem test_hyp_FieldInverseIsUnique : (7 : Nat).Prime ∧ 2 < 7 ∧ 0 < 3 ∧ 3 < 7 ∧ 5 < 7 ∧ fpMul 7 3 5 = 1 := by decide

theorem test_hyp_SquareRootsComeInPairs : (7 : Nat).Prime ∧ 7 % 4 = 3 ∧ 4 < 7 ∧ fpIsSquare 7 4 = true ∧
    fpSqr 7 2 = 4 ∧ fpSqr 7 0 = 0 := by decide

theorem test_hyp_PointsFormAnAbelianGroup : tiny.Elliptic ∧ pointOnCurve tiny pointT ∧ pointOnCurve tiny .inf ∧
    pointOnCurve tiny (.fin 0 5) := 
  ⟨test_tiny_elliptic, pointT_on_curve, trivial, by decide, by decide, by decide +kernel⟩

/-- OPRAM with the record (0, 2) at 256 and the scalar 2^256 - 1 at 512. -/
def smulState : State := readyAt 0 (held2 256 (affBytes pointT) 512 (leBytes 32 (2 ^ 256 - 1)))

theorem test_hyp_ScalarMulComputesItsRecord :
    AllPass (commandChecks smulState.cfg smulState.cfg.opramBytes (.scalarMul 0 256 512)) ∧
    (affBytes pointT).length = 128 ∧ smulState.Holds 256 (affBytes pointT) ∧
    readAffine smulState.cfg.curve 0 (affBytes pointT) = .ok pointT ∧ 2 ^ 256 - 1 < 2 ^ 256 ∧
    smulState.Holds 512 (leBytes 32 (2 ^ 256 - 1)) := by
  refine ⟨?_, by decide +kernel, holds_held2_left _ _ _ _ _ (by decide +kernel), by decide +kernel, by decide +kernel,
    holds_held2_right _ _ _ _ _⟩
  simp [AllPass, commandChecks, smulState, readyAt, idleWith, tinyConfig, Config.opramBytes]

theorem test_hyp_WindowedMultiplierIsTheMultiple : tiny.Elliptic ∧ pointOnCurve tiny pointT ∧
    (List.replicate 32 (0xff : Byte)).length = 32 := ⟨test_tiny_elliptic, pointT_on_curve, by decide⟩

theorem test_hyp_BitwiseMultiplierAgrees : tiny.Elliptic ∧ pointOnCurve tiny pointT ∧ 2 ^ 255 - 1 < 2 ^ 255 :=
  ⟨test_tiny_elliptic, pointT_on_curve, by decide +kernel⟩

/-- The small group has order r = 3. -/
theorem test_hyp_ScalarMulCornerCases : tiny.Elliptic ∧ pointOnCurve tiny pointT ∧ 1 + 2 < 2 ^ 255 ∧ 0 < tiny.r ∧
    tiny.r < 2 ^ 255 ∧ pointMul tiny tiny.r pointT = .inf :=
  ⟨test_tiny_elliptic, pointT_on_curve, by decide +kernel, by decide, by decide +kernel, by decide +kernel⟩

/-- Two canonical triples, one with Z = 0. -/
def twoTriples : List Jacobian := [⟨0, 2, 6⟩, ⟨6, 6, 0⟩]

/-- OPRAM with a Jacobian array at 0. -/
def batchState (js : List Jacobian) : State := readyAt 0x800 (held 0 (js.map jacobianBytes).flatten)

theorem test_hyp_BatchNormalizeComputesItsArray :
    AllPass (commandChecks (batchState twoTriples).cfg (batchState twoTriples).cfg.opramBytes
      (.batchNormalize 0x400 0 twoTriples.length)) ∧ (batchState twoTriples).cfg.curve.p < 2 ^ 384 ∧
    (batchState twoTriples).Holds 0 (twoTriples.map jacobianBytes).flatten ∧
    ∀ j ∈ twoTriples, j.x < 7 ∧ j.y < 7 ∧ j.z < 7 := by
  refine ⟨?_, by decide +kernel, holds_held _ _ _, by decide⟩
  simp [AllPass, commandChecks, batchState, twoTriples, readyAt, idleWith, tinyConfig, Config.opramBytes]

/-- A good triple before one with Z = p. -/
def badTriple : List Jacobian := [⟨0, 2, 6⟩, ⟨6, 6, 7⟩]

theorem test_hyp_BatchNormalizeRejectsLowestIndex :
    1 < badTriple.length ∧ AllPass (commandChecks (batchState badTriple).cfg (batchState badTriple).cfg.opramBytes
      (.batchNormalize 0x400 0 badTriple.length)) ∧
    (batchState badTriple).Holds 0 (badTriple.map jacobianBytes).flatten ∧
    (∀ j ∈ badTriple, j.x < 2 ^ 384 ∧ j.y < 2 ^ 384 ∧ j.z < 2 ^ 384) ∧
    (∀ l (_ : l < 1), (badTriple.getD l ⟨7, 7, 7⟩).x < 7 ∧ (badTriple.getD l ⟨7, 7, 7⟩).y < 7 ∧ (badTriple.getD l ⟨7, 7, 7⟩).z < 7) ∧ 7 ≤ (badTriple.getD 1 ⟨0, 0, 0⟩).z := by
  refine ⟨by decide, ?_, holds_held _ _ _, by decide +kernel, by decide, by decide⟩
  simp [AllPass, commandChecks, batchState, badTriple, readyAt, idleWith, tinyConfig, Config.opramBytes]

theorem test_hyp_SharedInversionNormalizesEachRecord : tiny.p.Prime ∧ 2 < tiny.p ∧ ∀ j ∈ twoTriples, j.z < tiny.p := by
  decide

/-- The checks of MSM D = 1024, A = 0, B = 512, N = M = 2 pass. -/
theorem msm_checks (m : Memory) :
    AllPass (commandChecks (readyAt 0x800 m).cfg (readyAt 0x800 m).cfg.opramBytes (.msm 1024 0 512 2 2 12)) := by
  simp [AllPass, commandChecks, readyAt, idleWith, tinyConfig, Config.opramBytes]

/-- A finite record with nonzero reserved bytes, and one with INF = 1 and coordinates that are not canonical. -/
def oddRecords : List (List Byte) :=
  [affineRecord 0 2 0 (List.replicate 31 0xff), affineRecord 9 8 1 (List.replicate 31 1)]

/-- OPRAM with the odd records at 0 and the scalars 3 and 2^256 - 1 at 512. -/
def oddMsmState : State := readyAt 0x800 (held2 0 oddRecords.flatten 512 ([3, 2 ^ 256 - 1].map (leBytes 32)).flatten)

theorem test_hyp_MsmComputesItsRecord :
    oddRecords.length = [pointT, Point.inf].length ∧ [3, 2 ^ 256 - 1].length = [pointT, Point.inf].length ∧
    AllPass (commandChecks oddMsmState.cfg oddMsmState.cfg.opramBytes (.msm 1024 0 512 2 2 12)) ∧
    (∀ rec ∈ oddRecords, rec.length = 128) ∧ oddMsmState.Holds 0 oddRecords.flatten ∧
    readAffine oddMsmState.cfg.curve 0 oddRecords[0]! = .ok pointT ∧
    readAffine oddMsmState.cfg.curve 1 oddRecords[1]! = .ok .inf ∧
    oddMsmState.Holds 512 ([3, 2 ^ 256 - 1].map (leBytes 32)).flatten ∧ ∀ k ∈ [3, 2 ^ 256 - 1], k < 2 ^ 256 :=
  ⟨rfl, rfl, msm_checks _, by decide +kernel, holds_held2_left _ _ _ _ _ (by decide +kernel), by decide +kernel,
    by decide +kernel, holds_held2_right _ _ _ _ _, by decide +kernel⟩

/-- A good record before one with INF = 2. -/
def badRecords : List (List Byte) := [affBytes pointT, affineRecord 0 0 2 (zeroBytes 31)]

/-- OPRAM with the bad records at 0 and two scalars at 512. -/
def badMsmState : State := readyAt 0x800 (held2 0 badRecords.flatten 512 (zeroBytes 64))

theorem test_hyp_MsmRejectsFirstBadPoint :
    badRecords.length = 2 ∧ (∀ rec ∈ badRecords, rec.length = 128) ∧
    AllPass (commandChecks badMsmState.cfg badMsmState.cfg.opramBytes (.msm 1024 0 512 2 2 12)) ∧
    badMsmState.Holds 0 badRecords.flatten ∧ badMsmState.regionWritten ⟨512, 64⟩ = true ∧
    readAffine badMsmState.cfg.curve 0 badRecords[0]! = .ok pointT ∧
    readAffine badMsmState.cfg.curve 1 badRecords[1]! = .error ⟨.notCanonical, 1⟩ ∧
    badRecords[1]? = some (affineRecord 0 0 2 (zeroBytes 31)) ∧
    (∀ x ∈ [(7, 0), (0, 7)], readAffine tiny 1 (affineRecord x.1 x.2 0 (zeroBytes 31)) = .error ⟨.notCanonical, 1⟩) ∧
    readAffine tiny 1 (affineRecord 6 6 0 (zeroBytes 31)) = .error ⟨.notOnCurve, 1⟩ := by
  exact ⟨by decide, by decide +kernel, msm_checks _, holds_held2_left _ _ _ _ _ (by decide +kernel),
    State.regionWritten_of_holds _ 512 64 _ (by decide) (holds_held2_right _ _ _ _ _), by decide +kernel,
    by decide +kernel, rfl, by decide +kernel, by decide +kernel⟩

theorem test_hyp_BucketSumIsTheSumOfMultiples : tiny.Elliptic ∧ 1 ≤ 1 ∧
    ∀ x ∈ [(pointT, 2 ^ 255 - 1)], pointOnCurve tiny x.1 ∧ x.2 < 2 ^ 255 := by
  refine ⟨test_tiny_elliptic, by decide, fun x hx => ?_⟩
  rw [List.mem_singleton] at hx
  subst hx
  exact ⟨pointT_on_curve, by decide +kernel⟩

/-- Each case of the effective window, W_AUTO at n = 15, 16 and 31 among them. -/
theorem test_hyp_EffectiveWindowIsInRange : (idleWith []).cfg.Valid ∧ (idleWith []).WindowsOk ∧ 12 ≤ (idleWith []).cfg.wmax ∧
    (idleWith []).window = 0 ∧ ({ idleWith [] with window := 12 } : State).window ≠ 0 ∧ 15 < 16 ∧
    (2 ^ 4 ≤ 16 ∧ 31 < 2 ^ 5) := by decide +kernel

theorem test_hyp_DigitsRecomposeTheScalar : 1 ≤ 15 ∧ 2 ^ 255 - 1 < 2 ^ 255 := by decide +kernel

theorem test_hyp_StepKeepsTheStateLegal : (idleWith []).Inv ∧ step (idleWith []) = .next (idleWith []) := by
  refine ⟨⟨by decide +kernel, by decide +kernel, by decide +kernel, by decide +kernel, by decide +kernel, ?_⟩,
    answers_next (by decide +kernel)⟩
  intro r hr
  cases hr

/-- Each reason by itself, and both: the host's write is the one reported. -/
theorem test_hyp_ModelFaultIsSticky :
    step { idleWith [] with mfault := ⟨true, false⟩ } = .fault .unwrittenRead ∧
    step { idleWith [] with mfault := ⟨false, true⟩ } = .fault .hostWriteWhileBusy ∧
    step { idleWith [] with mfault := ⟨true, true⟩ } = .fault .hostWriteWhileBusy := ⟨rfl, rfl, rfl⟩

theorem test_hyp_BuildParametersAreConstant : step (idleWith []) = .next (idleWith []) :=
  answers_next (by decide +kernel)

/-- An engine turn that runs, and an idle one with a host turn after it. -/
theorem test_hyp_PcAdvancesWithCount : (atBytes haltBytes).EngineTurn [] ∧
    step (atBytes haltBytes) = .next (atBytes haltBytes).scrambleScratch.halt ∧
    ({ idleWith [] with agenda := [.engine, .powerOn] } : State).Unmarked ∧
    ({ idleWith [] with agenda := [.engine, .powerOn] } : State).EngineTurn [.powerOn] ∧
    ({ idleWith [] with agenda := [.engine, .powerOn] } : State).phase = .idle :=
  ⟨.inr ⟨rfl, rfl⟩, rfl, rfl, .inl rfl, rfl⟩

/-- A busy legal state. -/
theorem test_hyp_EveryRunEnds : (readyAt 0 []).Inv ∧ (readyAt 0 []).Unmarked ∧ (readyAt 0 []).agenda = [] ∧
    (readyAt 0 []).busy = true := by
  refine ⟨⟨by decide +kernel, by decide +kernel, by decide +kernel, by decide +kernel, by decide +kernel, ?_⟩, rfl, rfl,
    rfl⟩
  intro r hr
  cases hr

theorem test_hyp_ScratchDoesNotMatter : step (idleWith []) = .next (idleWith []) :=
  answers_next (by decide +kernel)

/-- DECOMPRESS D = 128, A = 256 at pc = 0 over the bytes of (0, 2), written out from 30_encoding.md R121, R122. -/
def decompressState : State :=
  readyAt 0 (held2 0 ([0x10, 0, 0, 0, 0x00, 0x01, 0, 0, 0, 0, 0, 0, 0x80, 0, 0, 0] ++ zeroBytes 16) 256 compressedT)

theorem test_hyp_DataCommandTakesTwoSteps : decompressState.Unmarked ∧ decompressState.EngineTurn [] ∧
    decompressState.AtDescriptor ∧ decode decompressState.fetchedDescriptor = .ok (.decompress 128 256) ∧
    commandOperands (.decompress 128 256) = some (decompressOperands 128 256) ∧
    decompressState.InputsWritten (decompressOperands 128 256) ∧
    step decompressState = .next (decompressState.scrambleScratch.launch 128 (affBytes pointT)) ∧
    (decompressState.scrambleScratch.launch 128 (affBytes pointT)).busy = true ∧
    (decompressState.scrambleScratch.launch 128 (affBytes pointT)).EngineTurn [] :=
  ⟨rfl, .inr ⟨rfl, rfl⟩, ⟨rfl, by decide +kernel, by decide +kernel⟩, by decide +kernel, rfl, by decide +kernel, rfl, rfl,
    .inr ⟨rfl, rfl⟩⟩

/-- An idle and a busy state with a host turn, for the statements about the host's ports. -/
def hostTurn (busy : Bool) (h : HostAccess) : State :=
  { idleWith [] with phase := if busy then .ready else .idle, agenda := [.host h] }

theorem test_hyp_ResetValues : State.reset.inflightOutputs = [] ∧ State.reset.EngineTurn [] ∧
    State.reset.phase = .idle ∧ step State.reset = .next State.reset := by
  exact ⟨rfl, .inr ⟨rfl, rfl⟩, rfl, rfl⟩

theorem test_hyp_PowerOnResetsEverything : ({ readyAt 0 [] with agenda := [.powerOn] } : State).Unmarked ∧
    ({ readyAt 0 [] with agenda := [.powerOn] } : State).agenda = .powerOn :: [] := by decide

theorem test_hyp_SoftResetAborts : (hostTurn true (.csrWrite .b4 0x00C 2)).Unmarked ∧ (2 : Word).getLsbD 1 = true ∧
    (hostTurn true (.csrWrite .b4 0x00C 2)).agenda = .host (.csrWrite .b4 0x00C 2) :: [] := by decide

/-- START with IRQ_EN 0, and the plain write of IRQ_EN 1 and of IRQ_EN 0, idle and busy. -/
theorem test_hyp_StartBeginsARun : (∀ b v, (hostTurn b (.csrWrite .b4 0x00C v)).Unmarked ∧
      (hostTurn b (.csrWrite .b4 0x00C v)).busy = b) ∧
    ((1 : Word).getLsbD 0 = true ∧ (1 : Word).getLsbD 1 = false) ∧
    ((4 : Word).getLsbD 0 = false ∧ (4 : Word).getLsbD 1 = false ∧ (4 : Word).getLsbD 2 = true) ∧
    (0 : Word).getLsbD 0 = false ∧ (0 : Word).getLsbD 1 = false ∧ (0 : Word).getLsbD 2 = false :=
  ⟨fun b v => ⟨rfl, by cases b <;> rfl⟩, by decide, by decide, by decide⟩

theorem test_hyp_StatusIsWriteOneToClear : (hostTurn false (.csrWrite .b4 0x010 6)).Unmarked ∧
    (hostTurn false (.csrWrite .b4 0x010 6)).agenda = .host (.csrWrite .b4 0x010 6) :: [] := by decide

theorem test_hyp_CmdPtrWritesWhileIdle : ∀ b, (hostTurn b (.csrWrite .b4 0x014 1)).Unmarked ∧
    (hostTurn b (.csrWrite .b4 0x014 1)).busy = b := by decide

theorem test_hyp_WindowWritesAreLegal : (∀ b, (hostTurn b (.csrWrite .b4 0x028 12)).Unmarked ∧
    (hostTurn b (.csrWrite .b4 0x028 12)).busy = b) ∧ (12 : Word).toNat % 16 ≤ tinyConfig.wmax ∧
    tinyConfig.wmax < (13 : Word).toNat % 16 := by decide

theorem test_hyp_CsrReadsHaveNoSideEffect : (hostTurn false (.csrRead .b4 0xFFC)).Unmarked ∧ 0xFFC % 4 = 0 ∧
    0xFFC < 0x1000 ∧ 0x030 ≤ 0xFFC ∧ 0x02C ∉ [0x00C, 0x010, 0x014, 0x028] := by decide

theorem test_hyp_MisshapenCsrAccessHasNoStep : (hostTurn false (.csrRead .b8 0)).Unmarked ∧
    (Width.b8 ≠ .b4 ∧ 0x011 % 4 ≠ 0) := by decide

/-- A read of the last byte of OPRAM and the first beyond it, and of a written byte. -/
theorem test_hyp_HostReadsItsByteLanes : (hostTurn false (.opramRead .b2 0xFFF)).Unmarked ∧
    (hostTurn false (.opramRead .b2 0xFFF)).agenda = .host (.opramRead .b2 0xFFF) :: [] ∧ 1 < Width.b2.bytes ∧
    tinyConfig.opramBytes ≤ 0xFFF + 1 ∧ 0xFFF + 0 < tinyConfig.opramBytes ∧
    (idleWith (held 0xFFF [7])).inflightOutputs = [] ∧ (idleWith (held 0xFFF [7])).opram.read 0xFFF = some 7 := by
  decide +kernel

theorem test_hyp_HostWritesItsByteLanes : (hostTurn true (.opramWrite .b2 0xFFF 0x0201)).Unmarked ∧
    (hostTurn true (.opramWrite .b2 0xFFF 0x0201)).agenda = .host (.opramWrite .b2 0xFFF 0x0201) :: [] := by decide

end Sys2Proof.Tests
end

section
/-! The field: the inverse, the square roots and their signs (00_scope.md R20 to R22). -/

namespace Sys2Proof.Machine

variable {p : Nat}

/-- FpNeg of a canonical element, case by case (00_scope.md R19). -/
theorem fpNeg_of_lt {y : Nat} (hy : y < p) : fpNeg p y = if y = 0 then 0 else p - y := by
  rw [fpNeg, Nat.mod_eq_of_lt hy]
  split
  · next h => simp [h]
  · exact Nat.mod_eq_of_lt (by omega)

/-- In an odd field only 0 is its own negative. -/
theorem eq_fpNeg_iff {y : Nat} (hodd : p % 2 = 1) (hy : y < p) : y = fpNeg p y ↔ y = 0 := by
  rw [fpNeg_of_lt hy]
  split <;> omega

/-- The canonical inverse of a nonzero element (00_scope.md R20). -/
theorem fpMul_eq_one_iff [Fact p.Prime] (h2 : 2 < p) {a b : Nat} (ha : 0 < a) (hap : a < p) (hb : b < p) :
    fpMul p a b = 1 ↔ b = fpInv p a := by
  have ha0 : (a : ZMod p) ≠ 0 := mt (cast_eq_zero_of_lt hap).1 (by omega)
  calc fpMul p a b = 1
      ↔ (a : ZMod p) * b = 1 := by
        rw [← cast_inj_of_lt (fpMul_lt a b (by omega)) (by omega), cast_fpMul, Nat.cast_one]
    _ ↔ (b : ZMod p) = (a : ZMod p)⁻¹ := by rw [mul_comm, mul_eq_one_iff_eq_inv₀ ha0]
    _ ↔ b = fpInv p a := by rw [← cast_fpInv a h2, cast_inj_of_lt hb (fpInv_lt a (by omega))]

/-- Settles O26: `fpMul_eq_one_iff` gives the inverse and its uniqueness. -/
theorem fieldInverseIsUnique : Obligations.FieldInverseIsUnique := by
  intro p a hp h2 ha hap
  have : Fact p.Prime := ⟨hp⟩
  have hlt : fpInv p a < p := fpInv_lt a (by omega)
  exact ⟨hlt, (fpMul_eq_one_iff h2 ha hap hlt).2 rfl, fun b hb h => (fpMul_eq_one_iff h2 ha hap hb).1 h,
    powMod_eq p a (p - 2)⟩

/-- Two elements have one square iff they are equal or opposite (00_scope.md R21). -/
theorem fpSqr_eq_fpSqr_iff [Fact p.Prime] {y z : Nat} (hy : y < p) (hz : z < p) :
    fpSqr p z = fpSqr p y ↔ z = y ∨ z = fpNeg p y := by
  have hp : 0 < p := by omega
  have : NeZero p := ⟨by omega⟩
  rw [fpSqr_eq_iff_cast z _ hp (fpSqr_lt y hp), cast_fpSqr, sq_eq_sq_iff_eq_or_eq_neg, ← cast_fpNeg,
    cast_inj_of_lt hz hy, cast_inj_of_lt hz (fpNeg_lt y hp)]

/-- Only 0 has the square 0. -/
theorem fpSqr_eq_zero_iff [Fact p.Prime] {y : Nat} (hy : y < p) : fpSqr p y = 0 ↔ y = 0 := by
  rw [fpSqr_eq_iff_cast y 0 (by omega) (by omega), Nat.cast_zero, sq_eq_zero_iff, cast_eq_zero_of_lt hy]

theorem sgn_eq_one_iff (y : Nat) : sgn p y = 1 ↔ (p - 1) / 2 < y := by
  unfold sgn
  split <;> simp_all

theorem sgn_eq_one_or_zero (y : Nat) : sgn p y = 1 ∨ sgn p y = 0 := by
  unfold sgn
  split <;> simp

/-- In an odd field y and p - y lie on different sides of (p - 1) / 2 (00_scope.md R22). -/
theorem sgn_ne_sgn_sub {y : Nat} (hodd : p % 2 = 1) (hy : y < p) : sgn p y ≠ sgn p (p - y) := by
  unfold sgn
  split <;> split <;> omega

/-- Settles O27: opposite roots from `fpSqr_eq_fpSqr_iff`, opposite signs from `sgn_ne_sgn_sub`. -/
theorem squareRootsComeInPairs : Obligations.SquareRootsComeInPairs := by
  intro p a hp h4 ha
  have : Fact p.Prime := ⟨hp⟩
  have hodd : p % 2 = 1 := by omega
  refine ⟨fpIsSquare_iff h4 a ha, fun hs => ?_, fun y hy z hz h => ?_, fun y hy h => ?_, fun y hy => ?_⟩
  · rw [← powMod_eq]
    simpa [fpIsSquare, fpRoot] using hs
  · rw [← h]
    exact fpSqr_eq_fpSqr_iff hy hz
  · rw [← h, eq_fpNeg_iff hodd hy, fpSqr_eq_zero_iff hy]
  · exact ⟨sgn_eq_one_iff y, sgn_eq_one_or_zero y, fun _ => sgn_ne_sgn_sub hodd hy⟩

end Sys2Proof.Machine
end

section
/-! The group: the laws of Mathlib's Weierstrass curve, carried over to the points of the model by `Stands`
(00_scope.md R23 to R25). -/

namespace Sys2Proof.Machine

variable {cv : Curve} {q t u : Point}

/-- The curve equation in the numbers of the spec (00_scope.md R23). -/
theorem onCurve_iff_mod (cv : Curve) (x y : Nat) :
    onCurve cv x y = true ↔ y * y % cv.p = (x * x * x + cv.b) % cv.p := by
  simp [onCurve, curveRhs, fpAdd, fpSqr, fpMul]

@[simp] theorem pointAdd_inf_left (cv : Curve) (q : Point) : pointAdd cv .inf q = q := rfl

@[simp] theorem pointAdd_inf_right (cv : Curve) (q : Point) : pointAdd cv q .inf = q := by cases q <;> rfl

section Laws

variable [Fact cv.p.Prime]

theorem pointAdd_onCurve (h : cv.Elliptic) (hq : pointOnCurve cv q) (ht : pointOnCurve cv t) :
    pointOnCurve cv (pointAdd cv q t) := by
  obtain ⟨_, hq'⟩ := Stands.of_onCurve h hq
  obtain ⟨_, ht'⟩ := Stands.of_onCurve h ht
  exact (hq'.add h ht').onCurve h

theorem pointNeg_onCurve (h : cv.Elliptic) (hq : pointOnCurve cv q) : pointOnCurve cv (pointNeg cv q) := by
  obtain ⟨_, hq'⟩ := Stands.of_onCurve h hq
  exact (hq'.neg h).onCurve h

theorem pointAdd_pointNeg (h : cv.Elliptic) (hq : pointOnCurve cv q) : pointAdd cv q (pointNeg cv q) = .inf := by
  obtain ⟨q', hq'⟩ := Stands.of_onCurve h hq
  have hadd := hq'.add h (hq'.neg h)
  rw [add_neg_cancel] at hadd
  exact hadd.injective .zero

theorem pointAdd_comm (h : cv.Elliptic) (hq : pointOnCurve cv q) (ht : pointOnCurve cv t) :
    pointAdd cv q t = pointAdd cv t q := by
  obtain ⟨q', hq'⟩ := Stands.of_onCurve h hq
  obtain ⟨t', ht'⟩ := Stands.of_onCurve h ht
  have hadd := ht'.add h hq'
  rw [add_comm] at hadd
  exact (hq'.add h ht').injective hadd

theorem pointAdd_assoc (h : cv.Elliptic) (hq : pointOnCurve cv q) (ht : pointOnCurve cv t)
    (hu : pointOnCurve cv u) : pointAdd cv (pointAdd cv q t) u = pointAdd cv q (pointAdd cv t u) := by
  obtain ⟨q', hq'⟩ := Stands.of_onCurve h hq
  obtain ⟨t', ht'⟩ := Stands.of_onCurve h ht
  obtain ⟨u', hu'⟩ := Stands.of_onCurve h hu
  have hadd := hq'.add h (ht'.add h hu')
  rw [← add_assoc] at hadd
  exact ((hq'.add h ht').add h hu').injective hadd

end Laws

/-- Settles O28: the group laws one by one. -/
theorem pointsFormAnAbelianGroup : Obligations.PointsFormAnAbelianGroup := by
  intro cv q t u h hq ht hu
  have : Fact cv.p.Prime := ⟨h.prime⟩
  exact ⟨onCurve_iff_mod cv, pointAdd_onCurve h hq ht, pointNeg_onCurve h hq, pointAdd_inf_left cv q,
    pointAdd_inf_right cv q, pointAdd_pointNeg h hq, pointAdd_comm h hq ht, pointAdd_assoc h hq ht hu⟩

end Sys2Proof.Machine
end

section
/-! Legal results: what a computation may deliver, an output of the region's length or an error with a code, for each
data command. -/

namespace Sys2Proof.Machine

/-- The result is a value with the property, or an error whose code is not NONE (60_exceptions.md R221). -/
def Delivers {α : Type} (P : α → Prop) : Except Error α → Prop
  | .ok x => P x
  | .error e => e.code ≠ .none

@[simp] theorem delivers_ok {α : Type} (P : α → Prop) (x : α) : Delivers P (.ok x) ↔ P x := Iff.rfl

@[simp] theorem delivers_error {α : Type} (P : α → Prop) (e : Error) : Delivers P (.error e) ↔ e.code ≠ .none :=
  Iff.rfl

theorem Delivers.map {α β : Type} {P : α → Prop} {Q : β → Prop} {r : Except Error α} (h : Delivers P r)
    (f : α → β) (hf : ∀ x, P x → Q (f x)) : Delivers Q (r.map f) := by
  cases r with
  | ok x => exact hf x h
  | error e => exact h

theorem collect_delivers {α : Type} (l : List (Except Error α)) (h : ∀ r ∈ l, Delivers (fun _ => True) r) :
    Delivers (fun xs => xs.length = l.length) (collect l) := by
  cases hc : collect l with
  | ok xs => exact collect_length l xs hc
  | error e =>
    obtain ⟨xs, rest, hl⟩ := (collect_eq_error_iff l e).1 hc
    exact h (.error e) (by simp [hl])

theorem readElements_delivers {α : Type} (n size : Nat) (bs : List Byte) (read : Nat → List Byte → Except Error α)
    (h : ∀ i rec, Delivers (fun _ => True) (read i rec)) :
    Delivers (fun xs => xs.length = n) (readElements n size bs read) := by
  have hl := collect_delivers ((List.range n).map (fun i => read i (element bs size i))) (by simp [h])
  simpa [readElements] using hl

theorem readAffine_delivers (cv : Curve) (i : Nat) (rec : List Byte) :
    Delivers (fun _ => True) (readAffine cv i rec) := by
  unfold readAffine
  split
  · simp
  · split <;> simp

theorem readJacobian_delivers (p i : Nat) (rec : List Byte) : Delivers (fun _ => True) (readJacobian p i rec) := by
  unfold readJacobian
  split <;> simp

theorem decodePoint_delivers (cv : Curve) (c : Nat) : Delivers (fun _ => True) (decodePoint cv c) := by
  simp only [decodePoint]
  repeat' split
  all_goals simp

/-- The shared inversion answers one point per record (43_batch_normalize.md R192). -/
@[simp] theorem length_placeInverses (p : Nat) (js : List Jacobian) (invs : List Nat) :
    (placeInverses p js invs).length = js.length := by
  induction js generalizing invs with
  | nil => rfl
  | cons j js ih =>
    unfold placeInverses
    split <;> simp [ih]

theorem length_flatten_affBytes (qs : List Point) : ((qs.map affBytes).flatten).length = 128 * qs.length := by
  induction qs with
  | nil => rfl
  | cons q qs ih =>
    simp only [List.map_cons, List.flatten_cons, List.length_append, length_affBytes, List.length_cons, ih]
    omega

theorem decompressBytes_delivers (cv : Curve) (rec : List Byte) :
    Delivers (fun out => out.length = 128) (decompressBytes cv rec) :=
  (decodePoint_delivers cv _).map _ (by simp)

theorem compressBytes_delivers (cv : Curve) (rec : List Byte) :
    Delivers (fun out => out.length = 48) (compressBytes cv rec) :=
  (readAffine_delivers cv 0 rec).map _ (by simp)

theorem scalarMulBytes_delivers (cv : Curve) (rec scalar : List Byte) :
    Delivers (fun out => out.length = 128) (scalarMulBytes cv rec scalar) :=
  (readAffine_delivers cv 0 rec).map _ (by simp)

theorem batchBytes_delivers (cv : Curve) (n : Nat) (records : List Byte) :
    Delivers (fun out => out.length = 128 * n) (batchBytes cv n records) :=
  (readElements_delivers n 144 records _ (readJacobian_delivers cv.p)).map _
    (fun js hn => by rw [length_flatten_affBytes, sharedInversion, length_placeInverses, hn])

theorem msmBytes_delivers (cv : Curve) (w n : Nat) (points scalars : List Byte) :
    Delivers (fun out => out.length = 128) (msmBytes cv w n points scalars) :=
  (readElements_delivers n 128 points _ (readAffine_delivers cv)).map _ (by simp)

/-! The errors of the checks have codes too, and what a passing operand check says of the output region. -/

theorem firstFailing_mem {checks : List (Bool × Error)} {e : Error} (h : firstFailing checks = some e) :
    e ∈ checks.map (·.2) := by
  obtain ⟨k, hk, rfl⟩ := Option.map_eq_some_iff.1 h
  exact List.mem_map_of_mem (List.mem_of_find?_eq_some hk)

theorem State.fetchError_code {s : State} {e : Error} (h : s.fetchError = some e) : e.code ≠ .none := by
  have hm := firstFailing_mem h
  simp only [List.map_cons, List.map_nil, List.mem_cons, List.not_mem_nil, or_false] at hm
  rcases hm with rfl | rfl <;> simp

theorem decodeErrorReport_code (e : DecodeError) : (decodeErrorReport e).code ≠ .none := by
  cases e <;> simp [decodeErrorReport]

theorem operandError_code {c : Config} {o : Operands} {e : Error} (h : operandError c o = some e) :
    e.code ≠ .none := by
  have hm := firstFailing_mem h
  simp only [operandChecks, List.map_cons, List.map_nil, List.mem_cons, List.not_mem_nil, or_false] at hm
  rcases hm with rfl | rfl | rfl | rfl | rfl | rfl | rfl | rfl <;> simp

theorem msmError_code {c : Config} {n m win : Nat} {e : Error} (h : msmError c n m win = some e) :
    e.code ≠ .none := by
  have hm := firstFailing_mem h
  simp only [List.map_cons, List.map_nil, List.mem_cons, List.not_mem_nil, or_false] at hm
  rcases hm with rfl | rfl <;> simp

/-- The output region of a command that passed its operand checks is 16-byte aligned and in range
(20_memory.md R87, R88). -/
theorem output_ok_of_operandError {c : Config} {o : Operands} (h : operandError c o = none) :
    o.d.aligned 16 = true ∧ o.d.inRange c = true := by
  have hp := (firstFailing_eq_none_iff _).1 h
  simp only [operandChecks, List.forall_mem_cons, Bool.not_eq_false'] at hp
  obtain ⟨-, -, haligned, -, -, hrange, -⟩ := hp
  exact ⟨haligned, hrange⟩

/-- WIN of an MSM that passed its own checks does not exceed WMAX (30_encoding.md R128). -/
theorem win_le_of_msmError {c : Config} {n m win : Nat} (h : msmError c n m win = none) : win ≤ c.wmax := by
  have hp := (firstFailing_eq_none_iff _).1 h
  simpa using hp (decide (c.wmax < win), ⟨.badWindow, win⟩) List.mem_cons_self

/-- The effective window does not exceed WMAX (44_msm.md R203). -/
theorem effectiveWindow_le {wmax win cfg : Nat} (n : Nat) (hpos : 1 ≤ wmax) (hwin : win ≤ wmax)
    (hcfg : cfg ≤ wmax) : effectiveWindow wmax win cfg n ≤ wmax := by
  unfold effectiveWindow wAuto
  repeat' split
  all_goals omega

/-! The bound of OPRAM through the block writes. -/

/-- Output regions in range keep every listed byte below OPRAM_BYTES (20_memory.md R88). -/
theorem Memory.below_writeOutputs (c : Config) (m : Memory) (os : List Output) (h : m.below c.opramBytes = true)
    (ho : ∀ o ∈ os, o.region.inRange c = true) : (m.writeOutputs os).below c.opramBytes = true := by
  induction os generalizing m with
  | nil => exact h
  | cons o os ih =>
    obtain ⟨hfirst, hrest⟩ := List.forall_mem_cons.1 ho
    have hin : o.bytes = [] ∨ o.base + o.bytes.length ≤ c.opramBytes := by
      rw [← List.length_eq_zero_iff]
      exact (Region.inRange_iff _ _).1 hfirst
    exact ih _ (Memory.below_writeBytes m o.base _ o.bytes h hin) hrest

@[simp] theorem Output.region_scrambled (k : Nat) (o : Output) : (o.scrambled k).region = o.region := by
  simp [Output.scrambled, Output.region]

end Sys2Proof.Machine
end

section
/-! The invariant of the state (10_state.md R50 to R62): which fields it speaks of, and how each operation keeps it. -/

namespace Sys2Proof.Machine

variable {s t : State}

/-- The part of the state that the invariant speaks of, every other field as at reset. -/
def State.legalPart (s : State) : State :=
  { s with irqEn := false, cmdCount := 0, scratch := Scratch.blank, mfault := MFault.none, draws := 0, agenda := []
           replies := [] }

theorem State.inv_legalPart_iff : s.legalPart.Inv ↔ s.Inv :=
  ⟨fun ⟨hc, ho, hf, he, hw, hi⟩ => ⟨hc, ho, hf, he, hw, hi⟩,
    fun ⟨hc, ho, hf, he, hw, hi⟩ => ⟨hc, ho, hf, he, hw, hi⟩⟩

/-- A change of other fields keeps a legal state legal. -/
theorem State.Inv.of_legalPart_eq (h : s.Inv) (e : t.legalPart = s.legalPart) : t.Inv :=
  State.inv_legalPart_iff.1 (e ▸ State.inv_legalPart_iff.2 h)

theorem State.legalPart_markRead (rs : List Region) : (s.markRead rs).legalPart = s.legalPart := by
  unfold State.markRead
  split <;> rfl

/-- Outside phase INFLIGHT no condition on a record is left. -/
theorem State.inflightOk_of_ne (h : ∀ r, s.phase ≠ .inflight r) : s.InflightOk := fun r hr => absurd hr (h r)

/-- A busy legal state has no flag set and its error registers hold zero (10_state.md R50, R54). -/
theorem State.Inv.of_busy (h : s.Inv) (hb : s.busy = true) :
    (s.done = false ∧ s.error = false) ∧ s.errCode = .none ∧ s.errPtr = 0 ∧ s.errInfo = 0 :=
  ⟨h.flags.2 hb, h.errors.1 (by simp [hb])⟩

/-- The output regions in flight of a legal state are in range (10_state.md R62). -/
theorem State.Inv.inflightOutputs_inRange (h : s.Inv) : ∀ o ∈ s.inflightOutputs, o.region.inRange s.cfg = true := by
  intro o ho
  cases hp : s.phase with
  | idle => simp [State.inflightOutputs, hp] at ho
  | ready => simp [State.inflightOutputs, hp] at ho
  | inflight r =>
    obtain ⟨-, -, hout⟩ := h.inflight r hp
    exact (hout o (by simpa [State.inflightOutputs, hp] using ho)).2

/-! The engine's operations. -/

@[simp] theorem State.raiseError_busy (s : State) (e : Error) : (s.raiseError e).busy = false := rfl

@[simp] theorem State.halt_busy (s : State) : s.halt.busy = false := rfl

theorem State.Inv.raiseError (h : s.Inv) (hb : s.busy = true) {e : Error} (he : e.code ≠ .none) :
    (s.raiseError e).Inv := by
  obtain ⟨⟨hdone, -⟩, -⟩ := h.of_busy hb
  exact
    { config := h.config
      opram := h.opram
      flags := by simp [State.FlagsOk, hdone]
      errors := by simp [State.ErrorsOk, hdone, he]
      windows := h.windows
      inflight := State.inflightOk_of_ne (by simp) }

theorem State.Inv.halt (h : s.Inv) (hb : s.busy = true) : s.halt.Inv := by
  obtain ⟨⟨-, herror⟩, hregs⟩ := h.of_busy hb
  exact
    { config := h.config
      opram := h.opram
      flags := by simp [State.FlagsOk, herror]
      errors := by simp [State.ErrorsOk, herror, hregs]
      windows := h.windows
      inflight := State.inflightOk_of_ne (by simp) }

theorem State.Inv.commit (h : s.Inv) {r : Inflight} (hp : s.phase = .inflight r) : (s.commit r).Inv := by
  obtain ⟨⟨hdone, herror⟩, hregs⟩ := h.of_busy (State.busy_of_inflight s r hp)
  obtain ⟨-, -, hout⟩ := h.inflight r hp
  exact
    { config := h.config
      opram := ⟨s.commit_opram_wf r h.opram.1, Memory.below_writeOutputs _ _ _ h.opram.2 fun o ho => (hout o ho).2⟩
      flags := by simp [State.FlagsOk, hdone, herror]
      errors := by simp [State.ErrorsOk, herror, hregs]
      windows := h.windows
      inflight := State.inflightOk_of_ne (by simp) }

/-! Resets. -/

/-- An abort writes only inside the output regions in flight (70_reset_and_hazards.md R253). -/
theorem State.Inv.opramOk_softReset (h : s.Inv) : s.softReset.OpramOk := by
  refine ⟨s.softReset_opram_wf h.opram.1, Memory.below_writeOutputs _ _ _ h.opram.2 ?_⟩
  simpa using h.inflightOutputs_inRange

theorem State.Inv.softReset (h : s.Inv) : s.softReset.Inv where
  config := h.config
  opram := h.opramOk_softReset
  flags := by simp [State.FlagsOk]
  errors := by simp [State.ErrorsOk]
  windows := by simp [State.WindowsOk]
  inflight := State.inflightOk_of_ne (by simp)

theorem State.Inv.powerOn (h : s.Inv) : s.powerOn.Inv where
  config := h.config
  opram := ⟨rfl, rfl⟩
  flags := by simp [State.FlagsOk]
  errors := by simp [State.ErrorsOk]
  windows := by simp [State.WindowsOk]
  inflight := State.inflightOk_of_ne (by simp)

/-! The host's writes. -/

theorem State.Inv.start (h : s.Inv) : s.start.Inv where
  config := h.config
  opram := h.opram
  flags := by simp [State.FlagsOk]
  errors := by simp [State.ErrorsOk]
  windows := h.windows
  inflight := State.inflightOk_of_ne (by simp)

theorem State.Inv.writeCtrl (h : s.Inv) (v : Word) : (s.writeCtrl v).Inv := by
  unfold State.writeCtrl
  split
  · exact h.softReset.of_legalPart_eq rfl
  · split
    · exact h.start.of_legalPart_eq rfl
    · exact h.of_legalPart_eq rfl

/-- Clearing a flag meets every condition on the flags (10_state.md R51). -/
theorem State.Inv.clearStatus (h : s.Inv) (v : Word) : (s.clearStatus v).Inv where
  config := h.config
  opram := h.opram
  flags := by
    obtain ⟨hone, hbusy⟩ := h.flags
    refine ⟨?_, fun hb => ?_⟩
    · cases hd : s.done <;> simp_all
    · simp [hbusy hb]
  errors := by
    obtain ⟨hzero, hcode⟩ := h.errors
    refine ⟨fun hb => hzero ?_, fun he => hcode ?_⟩
    · simp only [State.clearStatus_done, Bool.or_eq_true, Bool.and_eq_true] at hb ⊢
      exact hb.imp id And.left
    · simp only [State.clearStatus_error, Bool.and_eq_true] at he
      exact he.1
  windows := h.windows
  inflight := h.inflight

theorem State.Inv.writeCmdPtr (h : s.Inv) (v : Word) : (s.writeCmdPtr v).Inv := by
  unfold State.writeCmdPtr
  split
  · exact h
  · rename_i hb
    have hp : s.phase = .idle := s.busy_eq_false_iff.1 (by simpa using hb)
    exact
      { config := h.config
        opram := h.opram
        flags := h.flags
        errors := h.errors
        windows := h.windows
        inflight := State.inflightOk_of_ne (by simp [hp]) }

theorem State.Inv.writeWindow (h : s.Inv) (v : Word) : (s.writeWindow v).Inv := by
  unfold State.writeWindow
  split
  · exact h
  · rename_i hc
    have hle : (v.setWidth 4).toNat ≤ s.cfg.wmax := by
      simp only [Bool.or_eq_true, decide_eq_true_eq, not_or, not_lt] at hc
      exact hc.2
    exact
      { config := h.config
        opram := h.opram
        flags := h.flags
        errors := h.errors
        windows := ⟨hle, h.windows.2⟩
        inflight := h.inflight }

theorem State.Inv.csrWrite (h : s.Inv) (off : Nat) (v : Word) : (s.csrWrite off v).Inv := by
  unfold State.csrWrite
  split
  · rename_i r _
    cases r with
    | ctrl => exact h.writeCtrl v
    | status => exact h.clearStatus v
    | cmdPtr => exact h.writeCmdPtr v
    | msmWindowCfg => exact h.writeWindow v
    | id | version | caps | cmdCount | errCode | errPtr | errInfo | msmLastW => exact h
  · exact h

theorem State.Inv.opramStore (h : s.Inv) (w : Width) (a : Nat) (v : BitVec 64) : (s.opramStore w a v).Inv where
  config := h.config
  opram := ⟨Memory.wf_hostStore _ _ _ _ h.opram.1, Memory.below_hostStore _ _ _ _ h.opram.2⟩
  flags := h.flags
  errors := h.errors
  windows := h.windows
  inflight := h.inflight

theorem State.Inv.hostStep (h : s.Inv) (a : HostAccess) (hs : hostStep a s = .next t) : t.Inv := by
  cases a with
  | csrRead w off =>
    simp only [Machine.hostStep] at hs
    split at hs <;> cases hs
    exact h.of_legalPart_eq rfl
  | csrWrite w off v =>
    simp only [Machine.hostStep] at hs
    split at hs <;> cases hs
    exact h.csrWrite off v
  | opramRead w a => cases hs; exact h.of_legalPart_eq rfl
  | opramWrite w a v => cases hs; exact h.opramStore w a v

end Sys2Proof.Machine
end

section
/-! The commands keep the invariant: they run in legal READY states at a descriptor that could be fetched. -/

namespace Sys2Proof.Machine

variable {s : State}

/-- A state in which a command executes: legal, READY, at a descriptor that could be fetched (40_sequencer.md R140). -/
structure State.Executing (s : State) : Prop where
  inv : s.Inv
  ready : s.phase = .ready
  fetchable : s.fetchError = none

theorem State.Executing.busy (h : s.Executing) : s.busy = true := State.busy_of_ready s h.ready

theorem State.Executing.scrambleScratch (h : s.Executing) : s.scrambleScratch.Executing :=
  ⟨h.inv.of_legalPart_eq rfl, h.ready, h.fetchable⟩

theorem State.Executing.markRead (h : s.Executing) (rs : List Region) : (s.markRead rs).Executing where
  inv := h.inv.of_legalPart_eq (State.legalPart_markRead rs)
  ready := by simp [h.ready]
  fetchable := by
    have hf := (State.fetchError_eq_none_iff s).1 h.fetchable
    simpa [State.fetchError_eq_none_iff] using hf

theorem State.Executing.setLastW (h : s.Executing) {w : BitVec 4} (hw : w.toNat ≤ s.cfg.wmax) :
    ({ s with lastW := w } : State).Executing where
  inv :=
    { config := h.inv.config
      opram := h.inv.opram
      flags := h.inv.flags
      errors := h.inv.errors
      windows := ⟨h.inv.windows.1, hw⟩
      inflight := h.inv.inflight }
  ready := h.ready
  fetchable := h.fetchable

theorem State.Executing.retire_inv (h : s.Executing) : s.retire.Inv where
  config := h.inv.config
  opram := h.inv.opram
  flags := h.inv.flags
  errors := h.inv.errors
  windows := h.inv.windows
  inflight := State.inflightOk_of_ne (by simp [h.ready])

/-- A launch keeps the invariant: the record is that of the descriptor at pc and its region is a checked one
(10_state.md R62). -/
theorem State.Executing.launch_inv (h : s.Executing) {d : Nat} {out : List Byte}
    (halign : (⟨d, out.length⟩ : Region).aligned 16 = true)
    (hrange : (⟨d, out.length⟩ : Region).inRange s.cfg = true) : (s.launch d out).Inv := by
  obtain ⟨⟨hdone, herror⟩, hregs⟩ := h.inv.of_busy h.busy
  exact
    { config := h.inv.config
      opram := h.inv.opram
      flags := by simp [State.FlagsOk, hdone, herror]
      errors := by simp [State.ErrorsOk, herror, hregs]
      windows := h.inv.windows
      inflight := by
        intro r hr
        cases hr
        exact ⟨rfl, h.fetchable, by simpa using ⟨halign, hrange⟩⟩ }

/-- The common frame of the data commands keeps the invariant. -/
theorem State.Executing.runCommand_inv (h : s.Executing) (o : Operands) {pass : State → State}
    {compute : List Byte → List Byte → Except Error (List Byte)}
    (hpass : (pass (s.markRead o.inputs)).Executing) (hcfg : (pass (s.markRead o.inputs)).cfg = s.cfg)
    (hc : ∀ a b, Delivers (fun out => out.length = o.d.len) (compute a b)) :
    (s.runCommand o pass compute).Inv := by
  rcases State.runCommand_cases s o pass compute with
    ⟨e, he, heq⟩ | ⟨-, e, he, heq⟩ | ⟨hnone, out, hout, heq⟩
  · rw [heq]
    exact h.inv.raiseError h.busy (operandError_code he)
  · rw [heq]
    have hm := h.markRead o.inputs
    have hdel := hc (s.readRegion s.draws o.a) (s.readRegion (s.draws + 1) (o.b.getD ⟨0, 0⟩))
    rw [he] at hdel
    exact hm.inv.raiseError hm.busy hdel
  · rw [heq]
    have hlen := hc (s.readRegion s.draws o.a) (s.readRegion (s.draws + 1) (o.b.getD ⟨0, 0⟩))
    rw [hout, delivers_ok] at hlen
    obtain ⟨halign, hrange⟩ := output_ok_of_operandError hnone
    exact hpass.launch_inv (by rw [hlen]; exact halign) (by rw [hlen, hcfg]; exact hrange)

/-- The commands other than MSM: nothing is written besides the launch. -/
theorem State.Executing.runCommand_id_inv (h : s.Executing) (o : Operands)
    {compute : List Byte → List Byte → Except Error (List Byte)}
    (hc : ∀ a b, Delivers (fun out => out.length = o.d.len) (compute a b)) : (s.runCommand o id compute).Inv :=
  h.runCommand_inv o (h.markRead o.inputs) (by simp) hc

/-- The window width an MSM runs with fits MSM_LAST_W (10_state.md R55). -/
theorem State.Inv.msmWindow_le (h : s.Inv) (n : Nat) {win : Nat} (hw : win ≤ s.cfg.wmax) :
    (BitVec.ofNat 4 (s.msmWindow n win)).toNat ≤ s.cfg.wmax := by
  obtain ⟨-, -, hpos, -⟩ := h.config
  have hle : s.msmWindow n win ≤ s.cfg.wmax := effectiveWindow_le n hpos hw h.windows.1
  rw [BitVec.toNat_ofNat]
  exact (Nat.mod_le _ _).trans hle

/-- MSM that passed its own checks, 3 and 4 (44_msm.md R200, R201). -/
theorem State.Executing.runMsm_inv (h : s.Executing) (d a b n m win : Nat) (hw : win ≤ s.cfg.wmax) :
    (s.runCommand (msmOperands d a b n m) (fun t => { t with lastW := BitVec.ofNat 4 (s.msmWindow n win) })
      (msmBytes s.cfg.curve (s.msmWindow n win) n)).Inv := by
  refine h.runCommand_inv _ ((h.markRead _).setLastW ?_) (by simp) (fun _ _ => msmBytes_delivers _ _ _ _ _)
  simpa using h.inv.msmWindow_le n hw

/-- Every command answers a legal state. -/
theorem State.Executing.exec_inv (h : s.Executing) (i : Instr) : ∃ t, exec i s = .next t ∧ t.Inv := by
  have hx := h.scrambleScratch
  cases i with
  | halt => exact ⟨_, rfl, hx.inv.halt hx.busy⟩
  | nop => exact ⟨_, rfl, hx.retire_inv⟩
  | decompress d a => exact ⟨_, rfl, hx.runCommand_id_inv _ (fun _ _ => decompressBytes_delivers _ _)⟩
  | compress d a => exact ⟨_, rfl, hx.runCommand_id_inv _ (fun _ _ => compressBytes_delivers _ _)⟩
  | scalarMul d a b => exact ⟨_, rfl, hx.runCommand_id_inv _ (fun _ _ => scalarMulBytes_delivers _ _ _)⟩
  | batchNormalize d a n => exact ⟨_, rfl, hx.runCommand_id_inv _ (fun _ _ => batchBytes_delivers _ _ _)⟩
  | msm d a b n m win =>
    refine ⟨_, rfl, ?_⟩
    split
    · rename_i e he
      exact hx.inv.raiseError hx.busy (msmError_code he)
    · rename_i hnone
      exact hx.runMsm_inv d a b n m win (win_le_of_msmError hnone)

/-- A READY step keeps the invariant (40_sequencer.md R140). -/
theorem State.Inv.readyStep {t : State} (h : s.Inv) (hp : s.phase = .ready) (hs : readyStep s = .next t) : t.Inv := by
  have hb := State.busy_of_ready s hp
  rcases readyStep_cases s t hs with ⟨e, he, rfl⟩ | ⟨hf, e, -, rfl⟩ | ⟨hf, i, -, hexec⟩
  · exact h.raiseError hb (State.fetchError_code he)
  · have hm := State.Executing.markRead ⟨h, hp, hf⟩ [s.descriptorRegion]
    exact hm.inv.raiseError hm.busy (decodeErrorReport_code e)
  · obtain ⟨u, hu, hinv⟩ := (State.Executing.markRead ⟨h, hp, hf⟩ [s.descriptorRegion]).exec_inv i
    rw [hu] at hexec
    cases hexec
    exact hinv

theorem State.Inv.engineStep {t : State} (h : s.Inv) (hs : engineStep s = .next t) : t.Inv := by
  rcases engineStep_cases s t hs with ⟨-, rfl⟩ | ⟨hp, hr⟩ | ⟨r, hp, rfl⟩
  · exact h
  · exact h.readyStep hp hr
  · exact h.commit hp

/-- Settles O42: the turns of a step one by one, each on the state with that turn taken off the agenda. -/
theorem stepKeepsTheStateLegal : Obligations.StepKeepsTheStateLegal := by
  intro s t h hs
  have hrest (rest : List Turn) : ({ s with agenda := rest } : State).Inv := h.of_legalPart_eq rfl
  obtain ⟨-, ⟨rest, -, he⟩ | ⟨a, rest, -, hh⟩ | ⟨rest, -, rfl⟩⟩ := step_cases s t hs
  · exact (hrest rest).engineStep he
  · exact (hrest rest).hostStep a hh
  · exact (hrest rest).powerOn

end Sys2Proof.Machine
end

section
/-! What a command writes and what it leaves unchanged (40_sequencer.md R143 to R146). -/

namespace Sys2Proof.Machine

variable {s t u : State} {o : Operands} {i : Instr}

/-- The part of the state that no data command writes, every other field as at reset; of the mark only
HOST_WRITE_WHILE_BUSY. -/
def State.dataPart (s : State) : State :=
  { s with error := false, errCode := .none, errPtr := 0, errInfo := 0, lastW := 0, phase := .idle
           mfault := ⟨false, s.mfault.hostWriteWhileBusy⟩, draws := 0 }

/-- The part of the state that no command writes, HALT and NOP included. -/
def State.commandPart (s : State) : State :=
  { s.dataPart with done := false, cmdPtr := 0, cmdCount := 0, scratch := Scratch.blank }

theorem State.dataPart_markRead (s : State) (rs : List Region) : (s.markRead rs).dataPart = s.dataPart := by
  unfold State.markRead
  split <;> rfl

/-- The run has stopped on an error of the descriptor at pc (60_exceptions.md R222). -/
def State.StopsOnError (s t : State) : Prop :=
  t.phase = .idle ∧ t.error = true ∧ t.errPtr = s.cmdPtr ∧ t.errCode ≠ .none ∧ t.lastW = s.lastW

/-- The command at pc is in flight with one output region, the error registers untouched (10_state.md R62). -/
def State.GoesInflight (s t : State) (d : Region) : Prop :=
  ∃ out, out.length = d.len ∧ t.phase = .inflight ⟨s.cmdPtr, [⟨d.base, out⟩]⟩ ∧ t.error = s.error ∧
    t.errCode = s.errCode ∧ t.errPtr = s.errPtr ∧ t.errInfo = s.errInfo

/-- What a data command with the regions `o` does to the state it runs in. -/
structure State.DataCommand (s t : State) (o : Operands) : Prop where
  kept : t.dataPart = s.dataPart
  mfault : s.InputsWritten o → t.mfault = s.mfault
  outcome : s.StopsOnError t ∨ s.GoesInflight t o.d

theorem State.DataCommand.of_raiseError {e : Error} (hkept : u.dataPart = s.dataPart)
    (hmark : s.InputsWritten o → u.mfault = s.mfault) (hlast : u.lastW = s.lastW) (he : e.code ≠ .none) :
    s.DataCommand (u.raiseError e) o :=
  ⟨hkept, hmark, .inl ⟨rfl, rfl, (congrArg State.cmdPtr hkept :), he, hlast⟩⟩

/-- The common frame of the data commands, `pass` writing MSM_LAST_W at most. -/
theorem State.runCommand_dataCommand (s : State) (o : Operands) {pass : State → State}
    {compute : List Byte → List Byte → Except Error (List Byte)}
    (hpass : ∀ u : State, ∃ w, pass u = { u with lastW := w })
    (hc : ∀ a b, Delivers (fun out => out.length = o.d.len) (compute a b)) :
    s.DataCommand (s.runCommand o pass compute) o := by
  have hmark (hw : s.InputsWritten o) : (s.markRead o.inputs).mfault = s.mfault := by
    rw [State.markRead_of_written s _ hw]
  have hdel := hc (s.readRegion s.draws o.a) (s.readRegion (s.draws + 1) (o.b.getD ⟨0, 0⟩))
  rcases State.runCommand_cases s o pass compute with
    ⟨e, he, heq⟩ | ⟨-, e, he, heq⟩ | ⟨-, out, hout, heq⟩
  · rw [heq]
    exact .of_raiseError rfl (fun _ => rfl) rfl (operandError_code he)
  · rw [he] at hdel
    rw [heq]
    exact .of_raiseError (s.dataPart_markRead _) hmark (by simp) hdel
  · rw [hout] at hdel
    obtain ⟨w, hw⟩ := hpass (s.markRead o.inputs)
    rw [heq, hw]
    exact ⟨s.dataPart_markRead _, hmark, .inr ⟨out, hdel, by simp, by simp, by simp, by simp, by simp⟩⟩

/-- The data commands other than MSM write nothing besides the error or the launch. -/
theorem State.runCommand_id_dataCommand (s : State) (o : Operands)
    {compute : List Byte → List Byte → Except Error (List Byte)}
    (hc : ∀ a b, Delivers (fun out => out.length = o.d.len) (compute a b)) :
    s.DataCommand (s.runCommand o id compute) o ∧ (s.runCommand o id compute).lastW = s.lastW := by
  refine ⟨s.runCommand_dataCommand o (fun u => ⟨u.lastW, rfl⟩) hc, ?_⟩
  rcases State.runCommand_cases s o id compute with ⟨e, -, heq⟩ | ⟨-, e, -, heq⟩ | ⟨-, out, -, heq⟩ <;>
    simp [heq]

/-- Every data command, from the state with its scratch released (10_state.md R63). -/
theorem exec_dataCommand (ho : commandOperands i = some o) (h : exec i s = .next t) :
    s.scrambleScratch.DataCommand t o ∧ (i.opcode ≠ .msm → t.lastW = s.lastW) := by
  cases i with
  | halt | nop => cases ho
  | decompress d a =>
    cases ho; cases h
    exact (State.runCommand_id_dataCommand _ _ fun _ _ => decompressBytes_delivers _ _).imp_right fun hl _ => hl
  | compress d a =>
    cases ho; cases h
    exact (State.runCommand_id_dataCommand _ _ fun _ _ => compressBytes_delivers _ _).imp_right fun hl _ => hl
  | scalarMul d a b =>
    cases ho; cases h
    exact (State.runCommand_id_dataCommand _ _ fun _ _ => scalarMulBytes_delivers _ _ _).imp_right fun hl _ => hl
  | batchNormalize d a n =>
    cases ho; cases h
    exact (State.runCommand_id_dataCommand _ _ fun _ _ => batchBytes_delivers _ _ _).imp_right fun hl _ => hl
  | msm d a b n m win =>
    cases ho; cases h
    refine ⟨?_, fun hne => absurd rfl hne⟩
    split
    · rename_i e he
      exact .of_raiseError rfl (fun _ => rfl) rfl (msmError_code he)
    · exact State.runCommand_dataCommand _ _ (fun _ => ⟨_, rfl⟩) fun _ _ => msmBytes_delivers _ _ _ _ _

/-- A command is HALT, NOP or a data command. -/
theorem exec_cases (h : exec i s = .next t) :
    (i = .halt ∧ t = s.scrambleScratch.halt) ∨ (i = .nop ∧ t = s.scrambleScratch.retire) ∨
      ∃ o, commandOperands i = some o ∧ i.opcode ≠ .halt ∧ i.opcode ≠ .nop ∧
        s.scrambleScratch.DataCommand t o := by
  cases i with
  | halt => cases h; exact .inl ⟨rfl, rfl⟩
  | nop => cases h; exact .inr (.inl ⟨rfl, rfl⟩)
  | decompress | compress | scalarMul | batchNormalize | msm =>
    exact .inr (.inr ⟨_, rfl, nofun, nofun, (exec_dataCommand rfl h).1⟩)

theorem exec_commandPart (h : exec i s = .next t) : t.commandPart = s.commandPart := by
  obtain ⟨-, rfl⟩ | ⟨-, rfl⟩ | ⟨o, -, -, -, hd⟩ := exec_cases h
  · rfl
  · rfl
  · exact (congrArg State.commandPart hd.kept :)

/-- Settles O13: `exec_commandPart` for every command, then HALT, NOP and the data commands one by one. -/
theorem commandFrame : Obligations.CommandFrame := by
  intro i s t h
  have hk := exec_commandPart h
  refine ⟨⟨(congrArg State.cfg hk :), (congrArg State.irqEn hk :), (congrArg State.window hk :),
    (congrArg State.opram hk :), (congrArg State.agenda hk :), (congrArg State.replies hk :),
    (congrArg (·.mfault.hostWriteWhileBusy) hk :)⟩, ?_⟩
  obtain ⟨rfl, rfl⟩ | ⟨rfl, rfl⟩ | ⟨o, ho, hhalt, hnop, hd⟩ := exec_cases h
  · exact ⟨fun _ => rfl, fun hne => absurd rfl hne, fun _ => ⟨rfl, rfl, rfl, rfl, rfl, rfl⟩, rfl, nofun⟩
  · exact ⟨fun _ => rfl, fun _ => rfl, fun _ => ⟨rfl, rfl, rfl, rfl, rfl, rfl⟩, rfl, nofun⟩
  · refine ⟨(exec_dataCommand ho h).2, fun _ => (congrArg State.done hd.kept :), fun hi => ?_,
      (congrArg State.scratch hd.kept :), fun o' ho' => ?_⟩
    · exact absurd hi (not_or.2 ⟨hhalt, hnop⟩)
    · obtain rfl : o = o' := Option.some.inj (ho.symm.trans ho')
      exact ⟨(congrArg State.cmdPtr hd.kept :), (congrArg State.cmdCount hd.kept :), hd.mfault, hd.outcome⟩

end Sys2Proof.Machine
end

section
/-! The register map: what a read of each register returns and what a write to each register does (10_state.md R43 to
R57). -/

namespace Sys2Proof.Machine

variable {s : State} {rest : List Turn} {v : Word}

@[simp] theorem State.csrRead_offset (s : State) (r : Csr) : s.csrRead r.offset = s.csrValue r := by
  simp [State.csrRead]

theorem State.csrRead_of_reserved {off : Nat} (s : State) (h : csrAt off = none) : s.csrRead off = 0 := by
  simp [State.csrRead, h]

@[simp] theorem State.csrWrite_offset (s : State) (r : Csr) (v : Word) : s.csrWrite r.offset v = s.csrWriteTo v r := by
  simp [State.csrWrite]

theorem State.csrWrite_of_reserved {off : Nat} (s : State) (v : Word) (h : csrAt off = none) :
    s.csrWrite off v = s := by
  simp [State.csrWrite, h]

/-- An offset is that of a register, or reserved (10_state.md R57). -/
theorem csrAt_cases (off : Nat) : (∃ r : Csr, off = r.offset) ∨ csrAt off = none := by
  cases h : csrAt off with
  | none => exact .inr rfl
  | some r => exact .inl ⟨r, (csrAt_eq_some_iff off r).1 h⟩

theorem csrShape_of_aligned {off : Nat} (ho : off % 4 = 0) (hl : off < 0x1000) : csrShape .b4 off = true := by
  simp [csrShape, ho, hl]

/-- A CSR read of the supported shape is a step that logs its reply (20_memory.md R99). -/
theorem step_of_csrRead (hm : s.Unmarked) {off : Nat} (ho : off % 4 = 0) (hl : off < 0x1000)
    (ha : s.agenda = .host (.csrRead .b4 off) :: rest) :
    step s = .next { s with replies := .csr (s.csrRead off) :: s.replies, agenda := rest } := by
  rw [step_of_host s hm _ rest ha, hostStep, if_pos (csrShape_of_aligned ho hl)]
  rfl

theorem Csr.offset_supported (r : Csr) : r.offset % 4 = 0 ∧ r.offset < 0x1000 := by
  cases r <;> decide

/-- A write to a register at its offset is a step. -/
theorem step_of_csrWriteTo (r : Csr) (hm : s.Unmarked) (ha : s.agenda = .host (.csrWrite .b4 r.offset v) :: rest) :
    step s = .next (({ s with agenda := rest } : State).csrWriteTo v r) := by
  obtain ⟨haligned, hlt⟩ := r.offset_supported
  rw [step_of_csrWrite s rest _ v hm haligned hlt ha, State.csrWrite_offset]

/-! CTRL, CMD_PTR and MSM_WINDOW_CFG, case by case. -/

theorem State.writeCtrl_of_softReset (s : State) (h : v.getLsbD 1 = true) :
    s.writeCtrl v = { s.softReset with irqEn := v.getLsbD 2 } := by
  simp [State.writeCtrl, h]

theorem State.writeCtrl_of_start (h1 : v.getLsbD 1 = false) (h0 : v.getLsbD 0 = true) (hb : s.busy = false) :
    s.writeCtrl v = { s.start with irqEn := v.getLsbD 2 } := by
  simp only [State.writeCtrl, h1, h0, hb, Bool.false_eq_true, Bool.not_false, Bool.and_self, reduceIte]

/-- Without SOFT_RESET, and without a START that acts, a CTRL write stores IRQ_EN (10_state.md R47, R48). -/
theorem State.writeCtrl_of_plain (h1 : v.getLsbD 1 = false) (h : v.getLsbD 0 = false ∨ s.busy = true) :
    s.writeCtrl v = { s with irqEn := v.getLsbD 2 } := by
  have hstart : (v.getLsbD 0 && !s.busy) = false := by
    rcases h with h | h <;> rw [h] <;> simp only [Bool.false_and, Bool.not_true, Bool.and_false]
  simp only [State.writeCtrl, h1, hstart, Bool.false_eq_true, reduceIte]

theorem State.writeCmdPtr_of_idle (v : Word) (hb : s.busy = false) : s.writeCmdPtr v = { s with cmdPtr := v } := by
  simp [State.writeCmdPtr, hb]

theorem State.writeCmdPtr_of_busy (v : Word) (hb : s.busy = true) : s.writeCmdPtr v = s := by
  simp [State.writeCmdPtr, hb]

theorem State.writeWindow_of_legal (hb : s.busy = false) (hv : v.toNat % 16 ≤ s.cfg.wmax) :
    s.writeWindow v = { s with window := v.setWidth 4 } := by
  simp [State.writeWindow, hb, hv]

theorem State.writeWindow_of_ignored (h : s.busy = true ∨ s.cfg.wmax < v.toNat % 16) : s.writeWindow v = s := by
  rcases h with h | h <;> simp [State.writeWindow, h]

/-- Settles O52: the cases of a CTRL write without SOFT_RESET. -/
theorem startBeginsARun : Obligations.StartBeginsARun := by
  intro s rest v hm h1 ha
  have hstep : step s = .next (({ s with agenda := rest } : State).writeCtrl v) := step_of_csrWriteTo .ctrl hm ha
  rw [hstep]
  exact ⟨fun h0 hb => congrArg _ (State.writeCtrl_of_start h1 h0 hb),
    fun _ hb => congrArg _ (State.writeCtrl_of_plain h1 (.inr hb)),
    fun h0 => congrArg _ (State.writeCtrl_of_plain h1 (.inl h0))⟩

/-- Settles O53: the write is `State.clearStatus`, whose flags are the old ones where a 0 is written. -/
theorem statusIsWriteOneToClear : Obligations.StatusIsWriteOneToClear := by
  intro s rest v hm ha
  have hstep : step s = .next (({ s with agenda := rest } : State).clearStatus v) := step_of_csrWriteTo .status hm ha
  have hflag (old written : Bool) : (old && !written) = if written then false else old := by cases written <;> simp
  rw [hstep, State.clearStatus, hflag, hflag]

/-- Settles O54: CMD_PTR is written while idle only. -/
theorem cmdPtrWritesWhileIdle : Obligations.CmdPtrWritesWhileIdle := by
  intro s rest v hm ha
  have hstep : step s = .next (({ s with agenda := rest } : State).writeCmdPtr v) := step_of_csrWriteTo .cmdPtr hm ha
  rw [hstep]
  exact ⟨fun hb => congrArg _ (State.writeCmdPtr_of_idle v hb),
    fun hb => congrArg _ (State.writeCmdPtr_of_busy v hb)⟩

/-- Settles O55: WINDOW is written while idle and with a legal value only. -/
theorem windowWritesAreLegal : Obligations.WindowWritesAreLegal := by
  intro s rest v hm ha
  have hstep : step s = .next (({ s with agenda := rest } : State).writeWindow v) :=
    step_of_csrWriteTo .msmWindowCfg hm ha
  rw [hstep]
  exact ⟨fun hb hv => congrArg _ (State.writeWindow_of_legal hb hv),
    fun h => congrArg _ (State.writeWindow_of_ignored h)⟩

/-! The fields of the words a read returns. -/

theorem ite_eq_mul_toNat (b : Bool) (n : Nat) : (if b then n else 0) = n * b.toNat := by cases b <;> simp

theorem State.toNat_ctrlWord (s : State) : s.ctrlWord.toNat = if s.irqEn then 4 else 0 := by
  have := Bool.toNat_lt s.irqEn
  rw [ite_eq_mul_toNat, State.ctrlWord, BitVec.toNat_ofNat]
  omega

theorem State.toNat_statusWord (s : State) : s.statusWord.toNat =
    (if s.busy then 1 else 0) + (if s.done then 2 else 0) + (if s.error then 4 else 0) := by
  have := Bool.toNat_lt s.busy
  have := Bool.toNat_lt s.done
  have := Bool.toNat_lt s.error
  rw [ite_eq_mul_toNat, ite_eq_mul_toNat, ite_eq_mul_toNat, State.statusWord, BitVec.toNat_ofNat]
  omega

/-- CAPS holds the build parameters as they are, each within its field (10_state.md R46). -/
theorem toNat_capsWord {c : Config} (h : c.Valid) : (capsWord c).toNat = c.wmax + 16 * 4 + 256 * c.opramLog2 := by
  obtain ⟨-, hlog, -, hwmax, -⟩ := h
  rw [capsWord, BitVec.toNat_ofNat, Config.smulW]
  omega

theorem errCode_mem_errCodeTable (c : ErrCode) : (c, (BitVec.ofNat 32 c.value).toNat) ∈ errCodeTable := by
  cases c <;> decide

/-- A write to a reserved offset or to a read-only register is ignored (10_state.md R43, R57). -/
theorem State.csrWrite_of_readOnly {off : Nat} (s : State) (v : Word) (h : off ∉ [0x00C, 0x010, 0x014, 0x028]) :
    s.csrWrite off v = s := by
  rcases csrAt_cases off with ⟨r, rfl⟩ | hr
  · rw [State.csrWrite_offset]
    cases r with
    | ctrl | status | cmdPtr | msmWindowCfg => exact absurd (by decide) h
    | id | version | caps | cmdCount | errCode | errPtr | errInfo | msmLastW => rfl
  · exact s.csrWrite_of_reserved v hr

/-- Settles O56: the read as a step, the value of each register, and the writes that are ignored. -/
theorem csrReadsHaveNoSideEffect : Obligations.CsrReadsHaveNoSideEffect := by
  intro s rest off hm ho hl
  refine ⟨step_of_csrRead hm ho hl, fun hoff => s.csrRead_of_reserved (csrAt_of_le off hoff), toNat_capsWord,
    s.toNat_ctrlWord, s.toNat_statusWord, rfl, rfl, rfl, rfl, errCode_mem_errCodeTable s.errCode, rfl, rfl, ?_, ?_,
    fun v hoff ha => ?_⟩
  · exact BitVec.toNat_setWidth_of_le (by decide)
  · exact BitVec.toNat_setWidth_of_le (by decide)
  · rw [step_of_csrWrite s rest off v hm ho hl ha, State.csrWrite_of_readOnly _ v hoff]

end Sys2Proof.Machine
end

section
/-! What every step keeps: the build parameters (00_scope.md R9), the pace of pc and CMD_COUNT at the engine's turns
(10_state.md R59), the independence from the scratch (10_state.md R63). -/

namespace Sys2Proof.Machine

variable {s t : State} {rest : List Turn} {i : Instr}

theorem engineStep_of_idle (h : s.phase = .idle) : engineStep s = .next s := by
  simp [engineStep, h]

theorem engineStep_of_ready (h : s.phase = .ready) : engineStep s = readyStep s := by
  simp [engineStep, h]

theorem engineStep_of_inflight {r : Inflight} (h : s.phase = .inflight r) : engineStep s = .next (s.commit r) := by
  simp [engineStep, h]

/-! The build parameters. -/

theorem exec_cfg (h : exec i s = .next t) : t.cfg = s.cfg :=
  (congrArg State.cfg (exec_commandPart h) :)

theorem engineStep_cfg (h : engineStep s = .next t) : t.cfg = s.cfg := by
  rcases engineStep_cases s t h with ⟨-, rfl⟩ | ⟨-, hr⟩ | ⟨r, -, rfl⟩
  · rfl
  · rcases readyStep_cases s t hr with ⟨e, -, rfl⟩ | ⟨-, e, -, rfl⟩ | ⟨-, i, -, hexec⟩
    · rfl
    · simp
    · simpa using exec_cfg hexec
  · rfl

@[simp] theorem State.writeCtrl_cfg (s : State) (v : Word) : (s.writeCtrl v).cfg = s.cfg := by
  unfold State.writeCtrl
  split
  · rfl
  · split <;> rfl

@[simp] theorem State.writeCmdPtr_cfg (s : State) (v : Word) : (s.writeCmdPtr v).cfg = s.cfg := by
  unfold State.writeCmdPtr
  split <;> rfl

@[simp] theorem State.writeWindow_cfg (s : State) (v : Word) : (s.writeWindow v).cfg = s.cfg := by
  unfold State.writeWindow
  split <;> rfl

@[simp] theorem State.csrWriteTo_cfg (s : State) (v : Word) (r : Csr) : (s.csrWriteTo v r).cfg = s.cfg := by
  cases r <;> simp [State.csrWriteTo]

@[simp] theorem State.csrWrite_cfg (s : State) (off : Nat) (v : Word) : (s.csrWrite off v).cfg = s.cfg := by
  rcases csrAt_cases off with ⟨r, rfl⟩ | hr
  · simp
  · rw [s.csrWrite_of_reserved v hr]

/-- What a host access that answers a next state does (20_memory.md R99, R105). -/
theorem hostStep_cases {a : HostAccess} (h : hostStep a s = .next t) :
    (∃ w off, a = .csrRead w off ∧ csrShape w off = true ∧
      t = { s with replies := .csr (s.csrRead off) :: s.replies }) ∨
    (∃ w off v, a = .csrWrite w off v ∧ csrShape w off = true ∧ t = s.csrWrite off v) ∨
    (∃ w b, a = .opramRead w b ∧
      t = { s with replies := .opram (s.opramValue w b) :: s.replies, draws := s.draws + 1 }) ∨
    ∃ w b v, a = .opramWrite w b v ∧ t = s.opramStore w b v := by
  cases a with
  | csrRead w off =>
    simp only [hostStep] at h
    split at h <;> cases h
    rename_i hs
    exact .inl ⟨w, off, rfl, hs, rfl⟩
  | csrWrite w off v =>
    simp only [hostStep] at h
    split at h <;> cases h
    rename_i hs
    exact .inr (.inl ⟨w, off, v, rfl, hs, rfl⟩)
  | opramRead w b => cases h; exact .inr (.inr (.inl ⟨w, b, rfl, rfl⟩))
  | opramWrite w b v => cases h; exact .inr (.inr (.inr ⟨w, b, v, rfl, rfl⟩))

theorem hostStep_cfg {a : HostAccess} (h : hostStep a s = .next t) : t.cfg = s.cfg := by
  obtain ⟨w, off, -, -, rfl⟩ | ⟨w, off, v, -, -, rfl⟩ | ⟨w, b, -, rfl⟩ | ⟨w, b, v, -, rfl⟩ :=
    hostStep_cases h
  · rfl
  · exact s.csrWrite_cfg off v
  · rfl
  · rfl

theorem step_cfg (h : step s = .next t) : t.cfg = s.cfg := by
  obtain ⟨-, ⟨rest, -, he⟩ | ⟨a, rest, -, hh⟩ | ⟨rest, -, rfl⟩⟩ := step_cases s t h
  · exact (engineStep_cfg he :)
  · exact (hostStep_cfg hh :)
  · rfl

/-- Settles O44: `step_cfg`, and CAPS reads the build parameters only. -/
theorem buildParametersAreConstant : Obligations.BuildParametersAreConstant := by
  intro s t h
  have hcfg := step_cfg h
  exact ⟨hcfg, rfl, rfl, congrArg capsWord hcfg⟩

/-! The pace of pc and CMD_COUNT. -/

/-- One descriptor has retired, or pc and CMD_COUNT stand (10_state.md R59). -/
def State.Advances (s t : State) : Prop :=
  (t.cmdPtr = s.cmdPtr + 32 ∧ t.cmdCount = s.cmdCount + 1) ∨ (t.cmdPtr = s.cmdPtr ∧ t.cmdCount = s.cmdCount)

theorem exec_advances (h : exec i s = .next t) : s.Advances t := by
  obtain ⟨-, rfl⟩ | ⟨-, rfl⟩ | ⟨o, -, -, -, hd⟩ := exec_cases h
  · exact .inl ⟨rfl, rfl⟩
  · exact .inl ⟨rfl, rfl⟩
  · exact .inr ⟨(congrArg State.cmdPtr hd.kept :), (congrArg State.cmdCount hd.kept :)⟩

theorem engineStep_advances (h : engineStep s = .next t) : s.Advances t := by
  rcases engineStep_cases s t h with ⟨-, rfl⟩ | ⟨-, hr⟩ | ⟨r, -, rfl⟩
  · exact .inr ⟨rfl, rfl⟩
  · rcases readyStep_cases s t hr with ⟨e, -, rfl⟩ | ⟨-, e, -, rfl⟩ | ⟨-, i, -, hexec⟩
    · exact .inr ⟨rfl, rfl⟩
    · exact .inr ⟨by simp, by simp⟩
    · simpa [State.Advances] using exec_advances hexec
  · exact .inl ⟨rfl, rfl⟩

/-- An idle engine's turn is a stutter (60_exceptions.md R238). -/
theorem step_of_idle (hm : s.Unmarked) (hturn : s.EngineTurn rest) (hp : s.phase = .idle) :
    step s = .next { s with agenda := rest } := by
  rw [step_of_engineTurn s hm rest hturn]
  exact engineStep_of_idle hp

/-- Settles O45: `engineStep_advances`, and `step_of_idle`. -/
theorem pcAdvancesWithCount : Obligations.PcAdvancesWithCount := by
  refine ⟨fun s t rest hturn h => ?_, fun s rest hm hturn hp => step_of_idle hm hturn hp⟩
  rw [step_of_engineTurn s (unmarked_of_step s t h) rest hturn] at h
  exact (engineStep_advances h :)

/-! The scratch. -/

/-- The same state but for the scratch. -/
def State.withScratch (s : State) (x : Scratch) : State := { s with scratch := x }

theorem State.markRead_withScratch (s : State) (x : Scratch) (rs : List Region) :
    (s.withScratch x).markRead rs = (s.markRead rs).withScratch x := by
  rw [State.markRead, State.markRead, apply_ite (State.withScratch · x)]
  rfl

theorem State.writeCmdPtr_withScratch (s : State) (x : Scratch) (v : Word) :
    (s.withScratch x).writeCmdPtr v = (s.writeCmdPtr v).withScratch x := by
  rw [State.writeCmdPtr, State.writeCmdPtr, apply_ite (State.withScratch · x)]
  rfl

theorem State.writeWindow_withScratch (s : State) (x : Scratch) (v : Word) :
    (s.withScratch x).writeWindow v = (s.writeWindow v).withScratch x := by
  rw [State.writeWindow, State.writeWindow, apply_ite (State.withScratch · x)]
  rfl

/-- The scratch that a CTRL write leaves is a free value after a SOFT_RESET, and the one before it otherwise. -/
theorem State.writeCtrl_withScratch (s : State) (x : Scratch) (v : Word) :
    ∃ y, (s.withScratch x).writeCtrl v = (s.writeCtrl v).withScratch y := by
  unfold State.writeCtrl
  split
  · exact ⟨Config.freeScratch s.draws, rfl⟩
  · refine ⟨x, ?_⟩
    rw [apply_ite (State.withScratch · x)]
    rfl

theorem State.csrWrite_withScratch (s : State) (x : Scratch) (off : Nat) (v : Word) :
    ∃ y, (s.withScratch x).csrWrite off v = (s.csrWrite off v).withScratch y := by
  rcases csrAt_cases off with ⟨r, rfl⟩ | hr
  · simp only [State.csrWrite_offset]
    cases r with
    | ctrl => exact s.writeCtrl_withScratch x v
    | status => exact ⟨x, rfl⟩
    | cmdPtr => exact ⟨x, s.writeCmdPtr_withScratch x v⟩
    | msmWindowCfg => exact ⟨x, s.writeWindow_withScratch x v⟩
    | id | version | caps | cmdCount | errCode | errPtr | errInfo | msmLastW => exact ⟨x, rfl⟩
  · simp only [State.csrWrite_of_reserved _ v hr]
    exact ⟨x, rfl⟩

/-- A READY step passes the scratch on where it ends in an error before a command, and no command reads it. -/
theorem readyStep_withScratch (x : Scratch) (h : readyStep s = .next t) :
    ∃ y, readyStep (s.withScratch x) = .next (t.withScratch y) := by
  have hfetch : (s.withScratch x).fetchError = s.fetchError := rfl
  have hdesc : (s.withScratch x).fetchedDescriptor = s.fetchedDescriptor := rfl
  have hregion : (s.withScratch x).descriptorRegion = s.descriptorRegion := rfl
  rw [readyStep, hfetch, hdesc, hregion, State.markRead_withScratch]
  rcases readyStep_cases s t h with ⟨e, he, rfl⟩ | ⟨hnone, e, hd, rfl⟩ | ⟨hnone, i, hd, hexec⟩
  · exact ⟨x, by rw [he]; rfl⟩
  · exact ⟨x, by rw [hnone, hd]; rfl⟩
  · refine ⟨t.scratch, ?_⟩
    rw [hnone, hd]
    exact (exec_of_scratch i _ x).trans hexec

theorem engineStep_withScratch (x : Scratch) (h : engineStep s = .next t) :
    ∃ y, engineStep (s.withScratch x) = .next (t.withScratch y) := by
  rcases engineStep_cases s t h with ⟨hp, rfl⟩ | ⟨hp, hr⟩ | ⟨r, hp, rfl⟩
  · exact ⟨x, engineStep_of_idle hp⟩
  · obtain ⟨y, hy⟩ := readyStep_withScratch x hr
    exact ⟨y, (engineStep_of_ready (s := s.withScratch x) hp).trans hy⟩
  · exact ⟨Config.freeScratch s.draws, engineStep_of_inflight hp⟩

theorem hostStep_withScratch {a : HostAccess} (x : Scratch) (h : hostStep a s = .next t) :
    ∃ y, hostStep a (s.withScratch x) = .next (t.withScratch y) := by
  obtain ⟨w, off, rfl, hs, rfl⟩ | ⟨w, off, v, rfl, hs, rfl⟩ | ⟨w, b, rfl, rfl⟩ | ⟨w, b, v, rfl, rfl⟩ :=
    hostStep_cases h
  · exact ⟨x, if_pos hs⟩
  · obtain ⟨y, hy⟩ := s.csrWrite_withScratch x off v
    exact ⟨y, (if_pos hs).trans (congrArg _ hy)⟩
  · exact ⟨x, rfl⟩
  · exact ⟨x, rfl⟩

/-- Settles O47: turn by turn. -/
theorem scratchDoesNotMatter : Obligations.ScratchDoesNotMatter := by
  intro s t x h
  obtain ⟨hm, ⟨rest, hturn, he⟩ | ⟨a, rest, ha, hh⟩ | ⟨rest, ha, rfl⟩⟩ := step_cases s t h
  · obtain ⟨y, hy⟩ := engineStep_withScratch x he
    exact ⟨y, (step_of_engineTurn (s.withScratch x) hm rest hturn.symm).trans hy⟩
  · obtain ⟨y, hy⟩ := hostStep_withScratch x hh
    exact ⟨y, (step_of_host (s.withScratch x) hm a rest ha).trans hy⟩
  · exact ⟨Config.freeScratch s.draws, (step_of_unmarked (s.withScratch x) hm).trans (by
      rw [show (s.withScratch x).agenda = .powerOn :: rest from ha]; rfl)⟩

end Sys2Proof.Machine
end

section
/-! Resets, the mark and the interrupt line (10_state.md R64 to R66, 70_reset_and_hazards.md R250 to R253). -/

namespace Sys2Proof.Machine

variable {s t : State} {rest : List Turn}

/-- The default build is in range (00_scope.md R9, R10, R14). -/
theorem Config.standard_valid : Config.standard.Valid := by decide +kernel

/-- Settles O41: the clauses of the invariant one by one. -/
theorem resetIsLegal : Obligations.ResetIsLegal where
  config := Config.standard_valid
  opram := ⟨rfl, rfl⟩
  flags := ⟨rfl, nofun⟩
  errors := ⟨nofun, nofun⟩
  windows := ⟨Nat.zero_le _, Nat.zero_le _⟩
  inflight := State.inflightOk_of_ne nofun

/-! The mark. -/

theorem step_of_fault {f : Fault} (h : s.mfault.fault = some f) : step s = .fault f := by
  rw [step, nextTurn, h]

theorem MFault.eq_none_iff (m : MFault) :
    m = MFault.none ↔ m.hostWriteWhileBusy = false ∧ m.unwrittenRead = false := by
  cases m
  simp [MFault.none, and_comm]

/-- Settles O43: `MFault.fault` reports the host's write first. -/
theorem modelFaultIsSticky : Obligations.ModelFaultIsSticky := by
  refine ⟨fun s hw => step_of_fault ?_, fun s hw hu => step_of_fault ?_, fun s => s.mfault.eq_none_iff,
    fun s => ⟨rfl, rfl⟩⟩
  · simp [MFault.fault, hw]
  · simp [MFault.fault, hw, hu]

/-! What a reset leaves. -/

/-- Every register but CAPS has one value after a soft reset, that of power-on (70_reset_and_hazards.md R252). -/
theorem State.softReset_csrRead {off : Nat} (s : State) (h : off ≠ 0x008) :
    s.softReset.csrRead off = State.reset.csrRead off := by
  rcases csrAt_cases off with ⟨r, rfl⟩ | hr
  · rw [State.csrRead_offset, State.csrRead_offset]
    cases r with
    | caps => exact absurd rfl h
    | id | version | ctrl | status | cmdPtr | cmdCount | errCode | errPtr | errInfo | msmWindowCfg | msmLastW => rfl
  · rw [State.csrRead_of_reserved _ hr, State.csrRead_of_reserved _ hr]

/-- ID, VERSION and CAPS are the only registers that do not reset to zero (10_state.md R66). -/
theorem State.reset_csrRead {off : Nat} (h : 0x008 < off) : State.reset.csrRead off = 0 := by
  rcases csrAt_cases off with ⟨r, rfl⟩ | hr
  · rw [State.csrRead_offset]
    cases r with
    | id | version | caps => exact absurd h (by decide)
    | ctrl | status | cmdPtr | cmdCount | errCode | errPtr | errInfo | msmWindowCfg | msmLastW => rfl
  · exact State.csrRead_of_reserved _ hr

theorem State.abortedOpram_of_nil (h : s.inflightOutputs = []) : s.abortedOpram = s.opram := by
  rw [State.abortedOpram, h]
  rfl

/-- Settles O49: the registers by `State.reset_csrRead` and `State.softReset_csrRead`, the idle engine by
`step_of_idle`. -/
theorem resetValues : Obligations.ResetValues := by
  refine ⟨rfl, rfl, rfl, fun off h => State.reset_csrRead h, rfl, rfl, rfl, fun _ => rfl, fun s =>
    ⟨fun off h => s.softReset_csrRead h, rfl, fun h => State.abortedOpram_of_nil h, fun rest hturn hp t h => ?_⟩⟩
  rw [step_of_idle (unmarked_of_step s t h) hturn hp] at h
  cases h
  exact hp

/-! The interrupt line. -/

theorem State.irq_of_stopped (h : s.done = true ∨ s.error = true) : s.irq = s.irqEn := by
  rcases h with h | h <;> simp [State.irq, h]

theorem State.irq_of_clear (hd : s.done = false) (he : s.error = false) : s.irq = false := by
  simp [State.irq, hd, he]

/-- Settles O60: HALT and an error stop with a flag set, START and a reset leave both clear. -/
theorem interruptLine : Obligations.InterruptLine :=
  ⟨State.irq_of_clear rfl rfl, fun _ => ⟨rfl, State.irq_of_stopped (.inl rfl),
    fun _ => State.irq_of_stopped (.inr rfl), State.irq_of_clear rfl rfl, State.irq_of_clear rfl rfl⟩⟩

end Sys2Proof.Machine
end

section
/-! Affine records field by field, what a read of one answers (20_memory.md R82, R92), and the first bad element of an
array of records (20_memory.md R95, 60_exceptions.md R224). -/

namespace Sys2Proof.Machine

variable {x y : Nat}

/-! The fields of a record. -/

/-- A coordinate field has 48 bytes, 384 bits. -/
theorem two_pow_384 : (2 : Nat) ^ 384 = 256 ^ 48 := by
  rw [show (256 : Nat) = 2 ^ 8 from rfl, ← pow_mul]

theorem affineX_affineRecord (inf : Byte) (reserved : List Byte) (hx : x < 2 ^ 384) :
    affineX (affineRecord x y inf reserved) = x := by
  have hfield : byteSlice (affineRecord x y inf reserved) 0 48 = beBytes 48 x := by
    simp only [affineRecord, List.append_assoc]
    exact byteSlice_append_left _ _ _ (by simp)
  rw [affineX, hfield, beInt_beBytes_of_lt 48 x (hx.trans_eq two_pow_384)]

theorem affineY_affineRecord (inf : Byte) (reserved : List Byte) (hy : y < 2 ^ 384) :
    affineY (affineRecord x y inf reserved) = y := by
  have hfield : byteSlice (affineRecord x y inf reserved) 48 48 = beBytes 48 y := by
    simp only [affineRecord, List.append_assoc]
    rw [byteSlice_append_right _ _ _ _ (by simp)]
    simpa using byteSlice_append_left (beBytes 48 y) _ 48 (by simp)
  rw [affineY, hfield, beInt_beBytes_of_lt 48 y (hy.trans_eq two_pow_384)]

@[simp] theorem affineInf_affineRecord (x y : Nat) (inf : Byte) (reserved : List Byte) :
    affineInf (affineRecord x y inf reserved) = inf.toNat := by
  have hfield : byteSlice (affineRecord x y inf reserved) 96 1 = [inf] := by
    simp only [affineRecord, List.append_assoc]
    rw [byteSlice_append_right _ _ _ _ (by simp), byteSlice_append_right _ _ _ _ (by simp)]
    simp [byteSlice]
  rw [affineInf, hfield]
  simp [beInt]

theorem affBytes_fin_eq_affineRecord (x y : Nat) : affBytes (.fin x y) = affineRecord x y 0 (zeroBytes 31) := rfl

theorem affBytes_inf_eq_affineRecord : affBytes .inf = affineRecord 0 0 1 (zeroBytes 31) := by decide

/-! What a read of a record answers. -/

theorem readAffine_info {cv : Curve} {k : Nat} {rec : List Byte} {e : Error} (h : readAffine cv k rec = .error e) :
    e.info = k := by
  unfold readAffine at h
  split at h
  · cases h; rfl
  · split at h <;> cases h
    rfl

/-- INF = 1 makes every other byte of the record a don't-care. -/
theorem readAffine_affineRecord_one (cv : Curve) (k x y : Nat) (reserved : List Byte) :
    readAffine cv k (affineRecord x y 1 reserved) = .ok .inf := by
  simp [readAffine, affineCanonical, affineValue, pointValid]

theorem readAffine_affineRecord_bad_inf (cv : Curve) (k x y : Nat) {inf : Byte} (reserved : List Byte)
    (h0 : inf ≠ 0) (h1 : inf ≠ 1) :
    readAffine cv k (affineRecord x y inf reserved) = .error ⟨.notCanonical, k⟩ := by
  have h0' : inf.toNat ≠ 0 := fun h => h0 (BitVec.eq_of_toNat_eq h)
  have h1' : inf.toNat ≠ 1 := fun h => h1 (BitVec.eq_of_toNat_eq h)
  simp [readAffine, affineCanonical, h0', h1']

theorem readAffine_affineRecord_big (cv : Curve) (k : Nat) (reserved : List Byte) (hx : x < 2 ^ 384)
    (hy : y < 2 ^ 384) (hbig : cv.p ≤ x ∨ cv.p ≤ y) :
    readAffine cv k (affineRecord x y 0 reserved) = .error ⟨.notCanonical, k⟩ := by
  have hnc : affineCanonical cv.p (affineRecord x y 0 reserved) = false := by
    simp only [affineCanonical, affineInf_affineRecord, affineX_affineRecord _ _ hx, affineY_affineRecord _ _ hy]
    rcases hbig with h | h <;> simp [Nat.not_lt.2 h]
  rw [readAffine, if_pos hnc]

/-- Canonical coordinates leave the curve equation to decide. -/
theorem readAffine_affineRecord_zero (cv : Curve) (k : Nat) (reserved : List Byte) (hx : x < 2 ^ 384)
    (hy : y < 2 ^ 384) (hxp : x < cv.p) (hyp : y < cv.p) :
    readAffine cv k (affineRecord x y 0 reserved) =
      if onCurve cv x y then .ok (.fin x y) else .error ⟨.notOnCurve, k⟩ := by
  have hvalue : affineValue (affineRecord x y 0 reserved) = .fin x y := by
    simp [affineValue, affineX_affineRecord _ _ hx, affineY_affineRecord _ _ hy]
  have hcanonical : affineCanonical cv.p (affineRecord x y 0 reserved) = true := by
    simp [affineCanonical, affineX_affineRecord _ _ hx, affineY_affineRecord _ _ hy, hxp, hyp]
  rw [readAffine, if_neg (by rw [hcanonical]; simp), hvalue, pointValid]
  cases onCurve cv x y <;> rfl

/-- The record the engine writes for a point of E(F_p) reads back as that point. -/
theorem readAffine_affBytes {cv : Curve} {q : Point} (k : Nat) (hp : cv.p < 2 ^ 384) (hq : pointOnCurve cv q) :
    readAffine cv k (affBytes q) = .ok q := by
  cases q with
  | inf => rw [affBytes_inf_eq_affineRecord, readAffine_affineRecord_one]
  | fin x y =>
    obtain ⟨hx, hy, hon⟩ := hq
    rw [affBytes_fin_eq_affineRecord, readAffine_affineRecord_zero cv k _ (hx.trans hp) (hy.trans hp) hx hy,
      if_pos hon]

/-- Settles O25: `readAffine_affBytes` and `readAffine_affineRecord_one`. -/
theorem affineRecordRoundTrip : Obligations.AffineRecordRoundTrip :=
  ⟨fun _ k q hp hq => ⟨length_affBytes q, readAffine_affBytes k hp hq⟩,
    fun cv k x y reserved _ => readAffine_affineRecord_one cv k x y reserved, affBytes_fin_eq_affineRecord, rfl⟩

/-! The first bad element of an array. -/

section Elements

variable {α : Type} {e : Error} {k : Nat}

theorem collect_of_first_error {l : List (Except Error α)}
    (hbefore : ∀ j (hj : j < l.length), j < k → ∃ a, l[j] = .ok a) (hbad : l[k]? = some (.error e)) :
    collect l = .error e := by
  induction l generalizing k with
  | nil => cases hbad
  | cons r l ih =>
    cases k with
    | zero =>
      cases hbad
      rfl
    | succ k =>
      obtain ⟨a, rfl⟩ : ∃ a, r = .ok a := hbefore 0 (by simp) (by omega)
      have hrest : collect l = .error e :=
        ih (fun j hj hjk => hbefore (j + 1) (Nat.succ_lt_succ hj) (Nat.succ_lt_succ hjk)) (by simpa using hbad)
      rw [collect, hrest]
      rfl

/-- The elements of an array are its records (20_memory.md R95). -/
theorem element_flatten {recs : List (List Byte)} {size i : Nat} (hsize : ∀ rec ∈ recs, rec.length = size)
    (hi : i < recs.length) : element recs.flatten size i = recs[i] := by
  induction recs generalizing i with
  | nil => cases hi
  | cons rec recs ih =>
    obtain ⟨hrec, hrecs⟩ := List.forall_mem_cons.1 hsize
    rw [element, List.flatten_cons]
    cases i with
    | zero => exact byteSlice_append_left rec _ size hrec
    | succ i =>
      have hle : rec.length ≤ size * (i + 1) := by rw [hrec]; exact Nat.le_mul_of_pos_right _ (by omega)
      have hoff : size * (i + 1) - rec.length = size * i := by rw [hrec, Nat.mul_succ, Nat.add_sub_cancel]
      rw [byteSlice_append_right _ _ _ _ hle, hoff]
      exact ih hrecs (by simpa using hi)

theorem length_flatten_of_forall {recs : List (List Byte)} {size : Nat} (hsize : ∀ rec ∈ recs, rec.length = size) :
    recs.flatten.length = size * recs.length := by
  rw [List.length_flatten, List.sum_eq_card_nsmul _ size (by simpa using hsize), List.length_map, smul_eq_mul,
    Nat.mul_comm]

/-- An array is rejected with the error of its first bad element in index order (60_exceptions.md R224). -/
theorem readElements_of_first_error {recs : List (List Byte)} {size : Nat} {read : Nat → List Byte → Except Error α}
    (hsize : ∀ rec ∈ recs, rec.length = size)
    (hbefore : ∀ j (_ : j < k) (hj : j < recs.length), ∃ a, read j recs[j] = .ok a)
    (hk : k < recs.length) (hbad : read k recs[k] = .error e) :
    readElements recs.length size recs.flatten read = .error e := by
  refine collect_of_first_error (k := k) (fun j hj hjk => ?_) ?_
  · have hj' : j < recs.length := by simpa using hj
    simpa [element_flatten hsize hj'] using hbefore j hjk hj'
  · simp [hk, element_flatten hsize hk, hbad]

end Elements

end Sys2Proof.Machine
end

section
/-! Data commands behind their checks: the read of the input regions (20_memory.md R86, R96), and MSM's first bad point
(44_msm.md R200). -/

namespace Sys2Proof.Machine

variable {s : State} {i : Instr} {o : Operands}

/-- Steps 5 to 7 of DecodeCheck pass where the statement's list of checks does (40_sequencer.md R142). -/
theorem operandError_of_allPass {c : Config} (ho : commandOperands i = some o)
    (h : AllPass (commandChecks c c.opramBytes i)) : operandError c o = none := by
  rw [operandError, ← allPass_iff]
  cases i with
  | halt | nop => cases ho
  | decompress | compress | scalarMul | batchNormalize | msm =>
    cases ho
    simp only [commandChecks, allPass_cons] at h
    simp only [operandChecks, decompressOperands, compressOperands, scalarMulOperands, batchOperands, msmOperands,
      List.map_cons, List.map_nil, allPass_cons, allPass_nil, Option.any_some, Option.any_none,
      Region.not_aligned_iff, Region.not_inRange_iff, Region.overlaps_iff, Bool.false_eq_true, not_false_eq_true,
      true_and, and_true]
    omega

/-- Steps 3 and 4 of DecodeCheck, which only MSM makes. -/
theorem msmError_of_allPass {c : Config} {d a b n m win : Nat}
    (h : AllPass (commandChecks c c.opramBytes (.msm d a b n m win))) : msmError c n m win = none := by
  simp only [commandChecks, allPass_cons] at h
  obtain ⟨hwin, hlen, -⟩ := h
  simp [msmError, firstFailing_cons, hwin, not_not.1 hlen]

theorem exec_msm_of_msmError {d a b n m win : Nat} (h : msmError s.cfg n m win = none) :
    exec (.msm d a b n m win) s = .next (s.scrambleScratch.runCommand (msmOperands d a b n m)
      (fun t => { t with lastW := BitVec.ofNat 4 (s.msmWindow n win) })
      (msmBytes s.cfg.curve (s.msmWindow n win) n)) := by
  rw [exec, execMsm, h]

/-- A data command whose checks pass is its common frame, `pass` writing MSM_LAST_W at most. -/
theorem exec_eq_runCommand (ho : commandOperands i = some o) (h : AllPass (commandChecks s.cfg s.cfg.opramBytes i)) :
    ∃ pass compute, exec i s = .next (s.scrambleScratch.runCommand o pass compute) ∧
      ∀ u : State, ∃ w, pass u = { u with lastW := w } := by
  cases i with
  | halt | nop => cases ho
  | decompress | compress | scalarMul | batchNormalize => cases ho; exact ⟨id, _, rfl, fun u => ⟨u.lastW, rfl⟩⟩
  | msm => cases ho; exact ⟨_, _, exec_msm_of_msmError (msmError_of_allPass h), fun _ => ⟨_, rfl⟩⟩

/-- Behind the operand checks every outcome of the frame carries the mark of the read (20_memory.md R96). -/
theorem State.runCommand_mfault {pass : State → State}
    {compute : List Byte → List Byte → Except Error (List Byte)}
    (hpass : ∀ u : State, ∃ w, pass u = { u with lastW := w }) (hc : operandError s.cfg o = none) :
    (s.runCommand o pass compute).mfault = (s.markRead o.inputs).mfault := by
  rcases State.runCommand_cases s o pass compute with ⟨e, he, -⟩ | ⟨-, e, -, heq⟩ | ⟨-, out, -, heq⟩
  · cases hc.symm.trans he
  · rw [heq, State.raiseError_mfault]
  · obtain ⟨w, hw⟩ := hpass (s.markRead o.inputs)
    rw [heq, State.launch_mfault, hw]

theorem State.markRead_unwrittenRead {rs : List Region} (h : ¬ rs.all s.regionWritten = true) :
    (s.markRead rs).mfault.unwrittenRead = true := by
  rw [State.markRead_of_unwritten s rs (Bool.eq_false_iff.2 h)]

/-- Settles O16: the command is its common frame, whose read marks the unwritten byte. -/
theorem unwrittenReadIsMarked : Obligations.UnwrittenReadIsMarked := by
  intro i s o ho hpass hunwritten
  obtain ⟨pass, compute, hexec, hwrites⟩ := exec_eq_runCommand ho hpass
  refine ⟨_, hexec, ?_⟩
  have hmark := State.runCommand_mfault (s := s.scrambleScratch) (compute := compute) hwrites
    (operandError_of_allPass ho hpass)
  rw [hmark]
  exact State.markRead_unwrittenRead (s := s.scrambleScratch) hunwritten

theorem msmBytes_of_readPoints_error {cv : Curve} {n : Nat} {points : List Byte} {e : Error}
    (h : readPoints cv n points = .error e) (w : Nat) (scalars : List Byte) :
    msmBytes cv w n points scalars = .error e := by
  rw [msmBytes, h]
  rfl

/-- Behind its checks, MSM of written scalars and points whose read fails reports that failure only. -/
theorem exec_msm_of_bad_points {d a b n win : Nat} {points : List Byte} {e : Error}
    (hpass : AllPass (commandChecks s.cfg s.cfg.opramBytes (.msm d a b n n win)))
    (hlen : points.length = 128 * n) (hpoints : s.Holds a points) (hscalars : s.regionWritten ⟨b, 32 * n⟩ = true)
    (hbad : readPoints s.cfg.curve n points = .error e) :
    exec (.msm d a b n n win) s = .next (s.scrambleScratch.raiseError e) := by
  have hinputs : s.scrambleScratch.InputsWritten (msmOperands d a b n n) := by
    have hpointsWritten : s.scrambleScratch.regionWritten ⟨a, 128 * n⟩ = true :=
      State.regionWritten_of_holds _ a _ points hlen hpoints
    have hscalarsWritten : s.scrambleScratch.regionWritten ⟨b, 32 * n⟩ = true := hscalars
    simp [State.InputsWritten, Operands.inputs, msmOperands, hpointsWritten, hscalarsWritten]
  have hread : s.scrambleScratch.readRegion s.scrambleScratch.draws ⟨a, 128 * n⟩ = points :=
    State.readRegion_of_holds _ _ a _ points hlen hpoints
  rw [exec_msm_of_msmError (msmError_of_allPass hpass)]
  refine congrArg _ (State.runCommand_reject _ _ _ _ e (operandError_of_allPass rfl hpass) hinputs ?_)
  exact (congrArg (msmBytes _ _ n · _) hread).trans (msmBytes_of_readPoints_error hbad _ _)

/-- Settles O37: the array's first bad record by `readElements_of_first_error`, its code by the reads of
`affineRecord`. -/
theorem msmRejectsFirstBadPoint : Obligations.MsmRejectsFirstBadPoint := by
  rintro s d a b n win k recs e rfl hsize hpass hpoints hscalars hbefore ⟨hk, hbad⟩
  have harray : readPoints s.cfg.curve recs.length recs.flatten = .error e :=
    readElements_of_first_error hsize hbefore hk hbad
  refine ⟨exec_msm_of_bad_points hpass (length_flatten_of_forall hsize) hpoints hscalars harray,
    readAffine_info hbad, fun x y inf reserved hrec _ hx hy => ?_⟩
  obtain ⟨_, hrecord⟩ := List.getElem?_eq_some_iff.1 hrec
  rw [hrecord] at hbad
  refine ⟨fun h0 h1 => ?_, ?_, ?_, ?_⟩
  · rw [readAffine_affineRecord_bad_inf _ _ _ _ _ h0 h1] at hbad
    cases hbad; rfl
  · rintro rfl hbig
    rw [readAffine_affineRecord_big _ _ _ hx hy hbig] at hbad
    cases hbad; rfl
  · rintro rfl hxp hyp
    rw [readAffine_affineRecord_zero _ _ _ hx hy hxp hyp] at hbad
    split at hbad <;> cases hbad
    rfl
  · rintro rfl
    rw [readAffine_affineRecord_one] at hbad
    cases hbad

end Sys2Proof.Machine
end

section
/-! The host's accesses: a misshapen CSR access (20_memory.md R99), the byte lanes of an OPRAM access (R85, R97, R98,
R104). -/

namespace Sys2Proof.Machine

variable {s : State} {a : Nat}

theorem csrShape_of_misshapen {w : Width} {off : Nat} (h : w ≠ .b4 ∨ off % 4 ≠ 0) : csrShape w off = false := by
  rcases h with h | h <;> simp [csrShape, h]

/-- Settles O57: `csrShape` refuses the access. -/
theorem misshapenCsrAccessHasNoStep : Obligations.MisshapenCsrAccessHasNoStep := by
  intro s rest w off v hm hshape
  have hrefuse : ¬ csrShape w off = true := by simp [csrShape_of_misshapen hshape]
  refine ⟨fun ha => ?_, fun ha => ?_⟩ <;> rw [step_of_host s hm _ rest ha, hostStep, if_neg hrefuse]

/-! Reads. -/

theorem State.hostByte_of_beyond (h : s.cfg.opramBytes ≤ a) : s.hostByte a = 0 := if_pos h

/-- A written byte that no output in flight covers reads as it is stored. -/
theorem State.hostByte_of_stored {b : Byte} (h : a < s.cfg.opramBytes)
    (hout : ∀ o ∈ s.inflightOutputs, ¬ (o.base ≤ a ∧ a < o.base + o.bytes.length)) (hb : s.opram.read a = some b) :
    s.hostByte a = b := by
  have hnone : ¬ s.inflightOutputs.any (fun o => o.region.contains a) = true := by
    simpa [Region.contains_iff, Output.region] using hout
  rw [State.hostByte, if_neg (Nat.not_le.2 h), if_neg hnone, State.byteAt, hb, Option.getD_some]

theorem Width.bytes_le (w : Width) : w.bytes ≤ 8 := by
  cases w <;> decide

/-- The bytes a host read of the width takes, in ascending order. -/
def State.hostBytes (s : State) (w : Width) (a : Nat) : List Byte :=
  (List.range w.bytes).map (fun i => s.hostByte (a + i))

@[simp] theorem State.length_hostBytes (s : State) (w : Width) (a : Nat) : (s.hostBytes w a).length = w.bytes := by
  simp [State.hostBytes]

/-- No lane is lost in the 64-bit reply. -/
theorem State.toNat_opramValue (s : State) (w : Width) (a : Nat) :
    (s.opramValue w a).toNat = leInt (s.hostBytes w a) := by
  have hlt : leInt (s.hostBytes w a) < 256 ^ 8 :=
    (leInt_lt _).trans_le (Nat.pow_le_pow_right (by decide) (by simpa using w.bytes_le))
  exact Nat.mod_eq_of_lt (hlt.trans_eq (by norm_num))

theorem State.opramValue_lt (s : State) (w : Width) (a : Nat) : (s.opramValue w a).toNat < 256 ^ w.bytes := by
  simpa [State.toNat_opramValue] using leInt_lt (s.hostBytes w a)

/-- Lane i of the reply is the byte at a + i (20_memory.md R85). -/
theorem State.opramValue_lane (s : State) {w : Width} (a : Nat) {i : Nat} (hi : i < w.bytes) :
    (s.opramValue w a).toNat / 256 ^ i % 256 = (s.hostByte (a + i)).toNat := by
  rw [State.toNat_opramValue, leInt_div _ _ (by simpa using hi)]
  simp [State.hostBytes]

/-- Settles O58: lane by lane, `State.opramValue_lane`. -/
theorem hostReadsItsByteLanes : Obligations.HostReadsItsByteLanes := by
  intro s rest w a hm ha
  refine ⟨s.opramValue w a, step_of_host s hm _ rest ha, s.opramValue_lt w a, fun i hi => ?_⟩
  rw [s.opramValue_lane a hi]
  refine ⟨fun hbeyond => ?_, fun hin hout b hb => ?_⟩
  · rw [State.hostByte_of_beyond hbeyond]
    rfl
  · rw [State.hostByte_of_stored hin hout hb]

/-! Writes. -/

/-- The memory after a host write, byte by byte (20_memory.md R85, R98). -/
theorem Memory.read_hostStore_leBytes (bound : Nat) (m : Memory) (a x k v : Nat) :
    (a ≤ x ∧ x < a + k ∧ x < bound →
      (hostStore bound m a (leBytes k v)).read x = some (BitVec.ofNat 8 (v / 256 ^ (x - a)))) ∧
    (¬ (a ≤ x ∧ x < a + k ∧ x < bound) → (hostStore bound m a (leBytes k v)).read x = m.read x) := by
  simp only [Memory.read_hostStore, length_leBytes, getElem_leBytes]
  exact ⟨fun h => dif_pos h, fun h => dif_neg h⟩

/-- Settles O59: `Memory.read_hostStore_leBytes`; an unmarked state has no mark but the one this write adds. -/
theorem hostWritesItsByteLanes : Obligations.HostWritesItsByteLanes := by
  intro s rest w a v hm ha
  refine ⟨hostStore s.cfg.opramBytes s.opram a (leBytes w.bytes v.toNat), ?_,
    fun x => Memory.read_hostStore_leBytes _ _ a x _ _⟩
  have hfalse : s.mfault.hostWriteWhileBusy = false := by rw [hm]; rfl
  rw [step_of_host s hm _ rest ha, hostStep, State.opramStore, hfalse, Bool.false_or]
  rfl

end Sys2Proof.Machine
end

section
/-! The decoder case by case, the opcode map, and the reserved fields as the table of 30_encoding.md R123 lists them
(R121 to R127). -/

namespace Sys2Proof

open Machine

variable {x : Descriptor} {o : Opcode} {i : Instr} {v k : Nat}

/-! The opcode map. -/

theorem Descriptor.opcode_eq (x : Descriptor) : x.opcode = x.w0.toNat % 256 := by
  simp [Descriptor.opcode, bitSlice]

theorem Opcode.ofCode_eq_some_iff : Opcode.ofCode v = some o ↔ o.code = v := by
  constructor
  · intro h
    simpa using List.find?_some h
  · rintro rfl
    cases o <;> rfl

theorem Opcode.ofCode_eq_none_iff : Opcode.ofCode v = none ↔ v ∉ [0x01, 0x02, 0x10, 0x11, 0x20, 0x30, 0x40] := by
  have hcodes : (∃ o : Opcode, o.code = v) ↔ v ∈ [0x01, 0x02, 0x10, 0x11, 0x20, 0x30, 0x40] := by
    constructor
    · rintro ⟨o, rfl⟩
      cases o <;> decide
    · intro h
      simp only [List.mem_cons, List.not_mem_nil, or_false] at h
      obtain rfl | rfl | rfl | rfl | rfl | rfl | rfl := h
      exacts [⟨.halt, rfl⟩, ⟨.nop, rfl⟩, ⟨.decompress, rfl⟩, ⟨.compress, rfl⟩, ⟨.scalarMul, rfl⟩,
        ⟨.batchNormalize, rfl⟩, ⟨.msm, rfl⟩]
  rw [← hcodes, Option.eq_none_iff_forall_ne_some, not_exists]
  exact forall_congr' fun o => not_congr Opcode.ofCode_eq_some_iff

/-! The three outcomes of the decoder (R126, R127). -/

theorem decode_of_illegal (h : Opcode.ofCode x.opcode = none) : decode x = .error (.illegalOpcode x.opcode) := by
  rw [decode, h]

theorem decode_of_reserved (ho : Opcode.ofCode x.opcode = some o) (hk : x.firstReserved o = some k) :
    decode x = .error (.reservedNonzero k) := by
  simp only [decode, ho, hk]

theorem decode_of_clear (ho : Opcode.ofCode x.opcode = some o) (hclear : x.firstReserved o = none) :
    decode x = .ok (x.instr o) := by
  simp only [decode, ho, hclear]

/-- Every descriptor has exactly one of the three outcomes. -/
theorem decode_cases (x : Descriptor) :
    (Opcode.ofCode x.opcode = none ∧ decode x = .error (.illegalOpcode x.opcode)) ∨
    (∃ o k, Opcode.ofCode x.opcode = some o ∧ x.firstReserved o = some k ∧
      decode x = .error (.reservedNonzero k)) ∨
    ∃ o, Opcode.ofCode x.opcode = some o ∧ x.firstReserved o = none ∧ decode x = .ok (x.instr o) := by
  cases ho : Opcode.ofCode x.opcode with
  | none => exact .inl ⟨rfl, decode_of_illegal ho⟩
  | some o =>
    cases hk : x.firstReserved o with
    | some k => exact .inr (.inl ⟨o, k, rfl, hk, decode_of_reserved ho hk⟩)
    | none => exact .inr (.inr ⟨o, rfl, hk, decode_of_clear ho hk⟩)

theorem decode_eq_illegalOpcode_iff :
    decode x = .error (.illegalOpcode v) ↔ Opcode.ofCode x.opcode = none ∧ v = x.opcode := by
  obtain ⟨ho, hd⟩ | ⟨o, k, ho, -, hd⟩ | ⟨o, ho, -, hd⟩ := decode_cases x <;> simp [ho, hd, eq_comm]

theorem decode_eq_reservedNonzero_iff :
    decode x = .error (.reservedNonzero k) ↔ ∃ o, Opcode.ofCode x.opcode = some o ∧ x.firstReserved o = some k := by
  obtain ⟨ho, hd⟩ | ⟨o, j, ho, hj, hd⟩ | ⟨o, ho, hnone, hd⟩ := decode_cases x
  · simp [ho, hd]
  · simp [ho, hd, hj]
  · simp [ho, hd, hnone]

theorem decode_eq_ok_iff :
    decode x = .ok i ↔ ∃ o, Opcode.ofCode x.opcode = some o ∧ x.firstReserved o = none ∧ x.instr o = i := by
  obtain ⟨ho, hd⟩ | ⟨o, j, ho, hj, hd⟩ | ⟨o, ho, hnone, hd⟩ := decode_cases x
  · simp [ho, hd]
  · simp [ho, hd, hj]
  · simp [ho, hd, hnone]

/-! Word 0 and the reserved fields. -/

theorem Descriptor.win_lt (x : Descriptor) : x.win < 16 := Nat.mod_lt _ (by decide)

theorem Descriptor.rsv0_eq (x : Descriptor) : x.rsv0 = x.w0.toNat / 4096 := by
  have hlt := x.w0.isLt
  simp only [Descriptor.rsv0, bitSlice]
  omega

/-- OPCODE, WIN and RSV0 are all the bits of word 0 (R121). -/
theorem Descriptor.word0_eq_fields (x : Descriptor) : x.w0.toNat = x.opcode + 256 * x.win + 4096 * x.rsv0 := by
  rw [x.opcode_eq, x.rsv0_eq, Descriptor.win, bitSlice]
  omega

/-- The decoder's eight flags are those of the table of R123. -/
theorem Descriptor.reservedWords_eq (x : Descriptor) (o : Opcode) :
    x.reservedWords o = (List.range 8).map (fun k => (reservedBits x o k != 0, k)) := by
  have hword (w : Word) : (w != 0) = (w.toNat != 0) := by
    rw [Bool.eq_iff_iff, bne_iff_ne, bne_iff_ne, Ne, ← BitVec.toNat_inj]
    rfl
  have hunused (f : Field) (w : Word) : (!o.uses f && w != 0) = ((if o.uses f then 0 else w.toNat) != 0) := by
    cases o.uses f with
    | true => rfl
    | false => exact hword w
  have hword0 : (x.rsv0 != 0 || (!o.uses .win && x.win != 0)) =
      ((if o.uses .win then x.w0.toNat / 2 ^ 12 else x.w0.toNat / 2 ^ 8) != 0) := by
    cases o.uses .win with
    | true => simp [x.rsv0_eq]
    | false =>
      have hfields := x.word0_eq_fields
      have hcode := x.opcode_eq
      have hiff : x.rsv0 ≠ 0 ∨ x.win ≠ 0 ↔ x.w0.toNat / 2 ^ 8 ≠ 0 := by omega
      rw [Bool.eq_iff_iff]
      simpa using hiff
  rw [Descriptor.reservedWords, hword0, hunused, hunused, hunused, hunused, hunused, hword x.w6, hword x.w7]
  cases o <;> rfl

/-- A descriptor has eight words. -/
theorem reservedBits_of_le (x : Descriptor) (o : Opcode) (h : 8 ≤ k) : reservedBits x o k = 0 := by
  obtain ⟨j, rfl⟩ := Nat.exists_eq_add_of_le' h
  rfl

/-- The check reports the lowest word with a bit that must be 0 (R127). -/
theorem Descriptor.firstReserved_eq_some_iff :
    x.firstReserved o = some k ↔ reservedBits x o k ≠ 0 ∧ ∀ j < k, reservedBits x o j = 0 := by
  have hindex : x.firstReserved o = (List.range 8).find? (fun k => reservedBits x o k != 0) := by
    rw [Descriptor.firstReserved, Descriptor.reservedWords_eq, List.find?_map, Option.map_map]
    exact congrFun Option.map_id _
  have hbound : reservedBits x o k ≠ 0 → k < 8 := fun h => Nat.not_le.1 fun hk => h (reservedBits_of_le x o hk)
  rw [hindex, List.find?_range_eq_some]
  simp only [bne_iff_ne, List.mem_range, Bool.not_eq_eq_eq_not, Bool.not_true, bne_eq_false_iff_eq]
  exact and_congr_right fun h => and_iff_right (hbound h)

/-- The check passes where every field that the opcode does not use is 0 (R123). -/
theorem Descriptor.firstReserved_eq_none_iff :
    x.firstReserved o = none ↔
      x.rsv0 = 0 ∧ (o.uses .win = true ∨ x.win = 0) ∧ (o.uses .a = true ∨ x.w1 = 0) ∧
      (o.uses .b = true ∨ x.w2 = 0) ∧ (o.uses .d = true ∨ x.w3 = 0) ∧ (o.uses .n = true ∨ x.w4 = 0) ∧
      (o.uses .m = true ∨ x.w5 = 0) ∧ x.w6 = 0 ∧ x.w7 = 0 := by
  simp only [Descriptor.firstReserved, Descriptor.reservedWords, Option.map_eq_none_iff, List.find?_eq_none,
    List.forall_mem_cons]
  simp [or_iff_not_imp_left, and_assoc]

end Sys2Proof
end

section
/-! The round trips: commands and descriptors (30_encoding.md R122 to R127, R132), descriptors and their bytes (R120,
20_memory.md R84). -/

namespace Sys2Proof

open Machine

variable {x : Descriptor} {o : Opcode} {i : Instr}

/-! Decode after encode. -/

/-- Every encoding carries its OPCODE and passes the check of reserved fields, command by command. -/
theorem encode_reserved (i : Instr) : Laws.EncodeReserved.Statement i := by
  cases i with
  | halt => exact Laws.EncodeReserved.halt
  | nop => exact Laws.EncodeReserved.nop
  | decompress d a => exact Laws.EncodeReserved.decompress d a
  | compress d a => exact Laws.EncodeReserved.compress d a
  | scalarMul d a b => exact Laws.EncodeReserved.scalarMul d a b
  | batchNormalize d a n => exact Laws.EncodeReserved.batchNormalize d a n
  | msm d a b n m win => exact Laws.EncodeReserved.msm d a b n m win

/-- A value that fits a word field is read back from it. -/
theorem FitsWord.toNat_ofNat {v : Nat} (h : FitsWord v) : (BitVec.ofNat 32 v).toNat = v := by
  rw [BitVec.toNat_ofNat, Nat.mod_eq_of_lt h]

/-- The fields of an encoding are the command's operands (R122, R124). -/
theorem instr_encode (h : i.WellFormed) : (encode i).instr i.opcode = i := by
  cases i with
  | halt | nop => rfl
  | decompress d a | compress d a =>
    obtain ⟨hd, ha⟩ := h
    simp only [encode, assembleFields, Instr.opcode, Descriptor.instr, hd.toNat_ofNat, ha.toNat_ofNat]
  | scalarMul d a b =>
    obtain ⟨hd, ha, hb⟩ := h
    simp only [encode, assembleFields, Instr.opcode, Descriptor.instr, hd.toNat_ofNat, ha.toNat_ofNat, hb.toNat_ofNat]
  | batchNormalize d a n =>
    obtain ⟨hd, ha, hn⟩ := h
    simp only [encode, assembleFields, Instr.opcode, Descriptor.instr, hd.toNat_ofNat, ha.toNat_ofNat, hn.toNat_ofNat]
  | msm d a b n m win =>
    obtain ⟨hd, ha, hb, hn, hm, hwin⟩ := h
    obtain ⟨-, hfield, -⟩ := Laws.EncodeReserved.word0_fields .msm win hwin a b d n m
    simp only [encode, Instr.opcode, Descriptor.instr, hfield]
    simp only [assembleFields, hd.toNat_ofNat, ha.toNat_ofNat, hb.toNat_ofNat, hn.toNat_ofNat, hm.toNat_ofNat]

/-- Settles O1: the encoding carries the opcode, passes the reserved check (`encode_reserved`) and holds the operands
(`instr_encode`). -/
theorem decodeOfEncodeIsIdentity : Obligations.DecodeOfEncodeIsIdentity := by
  intro i h
  obtain ⟨hcode, hclear⟩ := encode_reserved i h
  rw [decode_of_clear (Opcode.ofCode_eq_some_iff.2 hcode.symm) hclear, instr_encode h]

/-! Encode after decode. -/

/-- The encoder writes the fields the opcode uses and 0 into the others (R132). -/
theorem encode_instr (x : Descriptor) (o : Opcode) :
    encode (x.instr o) = assembleFields o (if o.uses .win then x.win else 0)
      (if o.uses .a then x.w1.toNat else 0) (if o.uses .b then x.w2.toNat else 0)
      (if o.uses .d then x.w3.toNat else 0) (if o.uses .n then x.w4.toNat else 0)
      (if o.uses .m then x.w5.toNat else 0) := by
  cases o <;> rfl

/-- Only the reserved words are lost when the fields are put together again. -/
theorem assembleFields_fields (hcode : o.code = x.opcode) (h0 : x.rsv0 = 0) (h6 : x.w6 = 0) (h7 : x.w7 = 0) :
    assembleFields o x.win x.w1.toNat x.w2.toNat x.w3.toNat x.w4.toNat x.w5.toNat = x := by
  have hw0 : o.code + 256 * x.win = x.w0.toNat := by rw [x.word0_eq_fields, hcode, h0, Nat.mul_zero, Nat.add_zero]
  simp only [assembleFields, hw0, BitVec.ofNat_toNat, BitVec.setWidth_eq]
  cases x
  cases h6
  cases h7
  rfl

theorem encode_instr_of_clear (hcode : o.code = x.opcode) (hclear : x.firstReserved o = none) :
    encode (x.instr o) = x := by
  have hfield (f : Field) (v : Nat) (h : o.uses f = true ∨ v = 0) : (if o.uses f then v else 0) = v := by
    rcases h with h | h <;> simp [h]
  have hword (f : Field) (w : Word) (h : o.uses f = true ∨ w = 0) : (if o.uses f then w.toNat else 0) = w.toNat :=
    hfield f _ (h.imp_right fun h => by rw [h]; rfl)
  obtain ⟨h0, hwin, ha, hb, hd, hn, hm, h6, h7⟩ := Descriptor.firstReserved_eq_none_iff.1 hclear
  rw [encode_instr, hfield _ _ hwin, hword _ _ ha, hword _ _ hb, hword _ _ hd, hword _ _ hn, hword _ _ hm,
    assembleFields_fields hcode h0 h6 h7]

/-- A field's value fits the field (R124). -/
theorem instr_wellFormed (x : Descriptor) (o : Opcode) : (x.instr o).WellFormed := by
  cases o with
  | halt | nop => trivial
  | decompress | compress => exact ⟨x.w3.isLt, x.w1.isLt⟩
  | scalarMul => exact ⟨x.w3.isLt, x.w1.isLt, x.w2.isLt⟩
  | batchNormalize => exact ⟨x.w3.isLt, x.w1.isLt, x.w4.isLt⟩
  | msm => exact ⟨x.w3.isLt, x.w1.isLt, x.w2.isLt, x.w4.isLt, x.w5.isLt, x.win_lt⟩

/-- Settles O2: a descriptor that decodes has its unused fields 0, so `encode_instr_of_clear` applies. -/
theorem decodedDescriptorIsItsEncoding : Obligations.DecodedDescriptorIsItsEncoding := by
  intro x i h
  obtain ⟨o, ho, hclear, rfl⟩ := decode_eq_ok_iff.1 h
  exact ⟨encode_instr_of_clear (Opcode.ofCode_eq_some_iff.1 ho) hclear, instr_wellFormed x o⟩

/-! Descriptors and bytes. -/

@[simp] theorem Descriptor.length_toBytes (x : Descriptor) : x.toBytes.length = 32 := by
  simp [Descriptor.toBytes]

/-- The word at the head of the bytes. -/
theorem descriptorWord_zero (w : Word) (bs : List Byte) : descriptorWord (leBytes 4 w.toNat ++ bs) 0 = w := by
  rw [descriptorWord, Nat.mul_zero, byteSlice_append_left _ _ 4 (length_leBytes 4 _), leInt_leBytes,
    show 256 ^ 4 = 2 ^ 32 by norm_num, Nat.mod_eq_of_lt w.isLt, BitVec.ofNat_toNat, BitVec.setWidth_eq]

/-- The words after the first are those of the bytes after it. -/
theorem descriptorWord_succ (v k : Nat) (bs : List Byte) :
    descriptorWord (leBytes 4 v ++ bs) (k + 1) = descriptorWord bs k := by
  rw [descriptorWord, byteSlice_append_right _ _ _ _ (by simp), length_leBytes, Nat.mul_succ, Nat.add_sub_cancel,
    descriptorWord]

theorem Descriptor.ofBytes_toBytes (x : Descriptor) : Descriptor.ofBytes x.toBytes = x := by
  have hlast : leBytes 4 x.w7.toNat = leBytes 4 x.w7.toNat ++ [] := (List.append_nil _).symm
  rw [Descriptor.toBytes, hlast]
  simp only [Descriptor.ofBytes, List.append_assoc, descriptorWord_succ, descriptorWord_zero]

/-- A word's bytes are the slice it was read from (R84). -/
theorem leBytes_descriptorWord {bs : List Byte} {k : Nat} (h : 4 * k + 4 ≤ bs.length) :
    leBytes 4 (descriptorWord bs k).toNat = byteSlice bs (4 * k) 4 := by
  have hlen := length_byteSlice bs (4 * k) 4 h
  have hlt := leInt_lt (byteSlice bs (4 * k) 4)
  rw [hlen] at hlt
  have hback := leBytes_leInt (byteSlice bs (4 * k) 4)
  rwa [hlen, ← FitsWord.toNat_ofNat hlt] at hback

theorem byteSlice_append_byteSlice (bs : List Byte) (off n m : Nat) :
    byteSlice bs off n ++ byteSlice bs (off + n) m = byteSlice bs off (n + m) := by
  simp [byteSlice, List.take_add]

theorem Descriptor.toBytes_ofBytes {bs : List Byte} (h : bs.length = 32) : (Descriptor.ofBytes bs).toBytes = bs := by
  have hword (k : Nat) (hk : k < 8) : leBytes 4 (descriptorWord bs k).toNat = byteSlice bs (4 * k) 4 :=
    leBytes_descriptorWord (by omega)
  have happend (n : Nat) : byteSlice bs 0 n ++ byteSlice bs n 4 = byteSlice bs 0 (n + 4) := by
    simpa using byteSlice_append_byteSlice bs 0 n 4
  simp only [Descriptor.toBytes, Descriptor.ofBytes, hword, Nat.reduceLT, Nat.reduceMul, happend, Nat.reduceAdd]
  exact byteSlice_self bs 32 h

/-- Settles O3: `Descriptor.ofBytes_toBytes` and `Descriptor.toBytes_ofBytes`. -/
theorem descriptorBytesRoundTrip : Obligations.DescriptorBytesRoundTrip :=
  ⟨fun x => ⟨x.length_toBytes, x.ofBytes_toBytes⟩, fun _ h => Descriptor.toBytes_ofBytes h⟩

/-- Settles O6: the decoder evaluated on each written-out descriptor. -/
theorem writtenWordsDecode : Obligations.WrittenWordsDecode := by
  refine ⟨?_, ?_, ?_, ?_, ?_, ?_, ?_, ?_⟩ <;> decide

end Sys2Proof
end

section
/-! A descriptor that the decoder rejects ends the engine's turn by its error (30_encoding.md R126, R127,
40_sequencer.md R142). -/

namespace Sys2Proof.Machine

variable {s : State} {rest : List Turn} {e : DecodeError}

/-- At a written descriptor the engine's turn reports the decoder's error and does nothing else. -/
theorem step_of_decode_error (hm : s.Unmarked) (hturn : s.EngineTurn rest) (hd : s.AtDescriptor)
    (he : decode s.fetchedDescriptor = .error e) :
    step s = .next { s.raiseError (decodeErrorReport e) with agenda := rest } := by
  have he' : decode ({ s with agenda := rest } : State).fetchedDescriptor = .error e := he
  rw [step_of_engineTurn s hm rest hturn, engineStep_of_atDescriptor _ (hd.with_agenda rest), he']
  rfl

/-- Settles O4: the OPCODE is outside the map iff no opcode has its value, and `step_of_decode_error`. -/
theorem illegalOpcodeRaises : Obligations.IllegalOpcodeRaises := by
  refine ⟨fun x => ?_, fun x v h => ?_, fun s rest v hm hturn hd he => step_of_decode_error hm hturn hd he⟩
  · simp only [decode_eq_illegalOpcode_iff, exists_and_left, exists_eq, and_true, Opcode.ofCode_eq_none_iff,
      x.opcode_eq]
  · rw [(decode_eq_illegalOpcode_iff.1 h).2, x.opcode_eq]

/-- Settles O5: the check of reserved fields is the first nonzero word of the table of R123
(`Descriptor.firstReserved_eq_some_iff`), and `step_of_decode_error`. -/
theorem reservedNonzeroRaises : Obligations.ReservedNonzeroRaises := by
  refine ⟨fun x k => ?_, fun s rest k hm hturn hd he => step_of_decode_error hm hturn hd he⟩
  simp only [decode_eq_reservedNonzero_iff, x.opcode_eq, Descriptor.firstReserved_eq_some_iff]

end Sys2Proof.Machine
end

section
/-! The sequencer: the fetch of a descriptor, HALT and NOP, the commit of a command in flight (40_sequencer.md R140,
R141, R144 to R146). -/

namespace Sys2Proof.Machine

variable {s : State} {rest : List Turn} {i : Instr} {e : Error}

/-! A fetched descriptor that decodes. -/

/-- The engine fetches the descriptor that OPRAM holds at pc (30_encoding.md R120). -/
theorem State.fetchedDescriptor_of_holds {bs : List Byte} (hlen : bs.length = 32) (h : s.Holds s.cmdPtr.toNat bs) :
    s.fetchedDescriptor = Descriptor.ofBytes bs :=
  congrArg Descriptor.ofBytes (s.readRegion_of_holds s.draws _ 32 bs hlen h)

theorem State.AtDescriptor.of_holds {bs : List Byte} (hp : s.phase = .ready) (hf : s.fetchError = none)
    (hlen : bs.length = 32) (h : s.Holds s.cmdPtr.toNat bs) : s.AtDescriptor :=
  ⟨hp, hf, s.regionWritten_of_holds _ 32 bs hlen h⟩

/-- At a written descriptor that decodes, the engine's turn is the decoded command. -/
theorem step_of_decode_ok (hm : s.Unmarked) (hturn : s.EngineTurn rest) (hd : s.AtDescriptor)
    (hi : decode s.fetchedDescriptor = .ok i) : step s = exec i { s with agenda := rest } := by
  have hi' : decode ({ s with agenda := rest } : State).fetchedDescriptor = .ok i := hi
  rw [step_of_engineTurn s hm rest hturn, engineStep_of_atDescriptor _ (hd.with_agenda rest), hi']

/-- Settles O7: the bytes at pc are the fetched descriptor, and `step_of_decode_ok` at either form of an engine turn. -/
theorem stepRunsDecodedCommand : Obligations.StepRunsDecodedCommand := by
  intro s bs i hm hp hf hlen hbs hi
  have hd := State.AtDescriptor.of_holds hp hf hlen hbs
  rw [← State.fetchedDescriptor_of_holds hlen hbs] at hi
  refine ⟨fun ha => ?_, fun rest ha => step_of_decode_ok hm (.inl ha) hd hi⟩
  rw [step_of_decode_ok hm (.inr ⟨ha, rfl⟩) hd hi, ← ha]

/-! HALT and NOP. -/

/-- Settles O10: HALT retires and stops with DONE set, so that irq is IRQ_EN (`State.irq_of_stopped`). -/
theorem haltStopsTheRun : Obligations.HaltStopsTheRun := by
  refine ⟨rfl, fun s => ⟨⟨Config.freeScratch s.draws, s.draws + 1, rfl⟩, fun t ht => ?_⟩⟩
  cases ht
  exact ⟨State.halt_busy _, State.irq_of_stopped (.inl rfl)⟩

/-- Word 6 is the first nonzero reserved word of a NOP that has no other (30_encoding.md R127). -/
theorem firstReserved_nop_word6 {w : Word} (h : w ≠ 0) :
    Descriptor.firstReserved ⟨2, 0, 0, 0, 0, 0, w, 0⟩ .nop = some 6 := by
  refine Descriptor.firstReserved_eq_some_iff.2 ⟨fun hw => h (BitVec.eq_of_toNat_eq hw), fun j hj => ?_⟩
  interval_cases j <;> simp [reservedBits]

/-- Settles O11: NOP retires, and `firstReserved_nop_word6`. -/
theorem nopRetires : Obligations.NopRetires :=
  ⟨rfl, fun s => ⟨Config.freeScratch s.draws, s.draws + 1, rfl⟩,
    fun _ hw => decode_of_reserved (Opcode.ofCode_eq_some_iff.2 (by simp [Descriptor.opcode_eq, Opcode.code]))
      (firstReserved_nop_word6 hw)⟩

/-! The commit. -/

theorem Memory.writeOutputs_append (m : Memory) (before later : List Output) :
    m.writeOutputs (before ++ later) = (m.writeOutputs before).writeOutputs later := by
  induction before generalizing m with
  | nil => rfl
  | cons o before ih => exact ih _

/-- A byte outside the output regions, in the terms of the statements. -/
theorem Memory.read_writeOutputs_of_outside (m : Memory) {os : List Output} {x : Nat}
    (h : ∀ o ∈ os, ¬ (o.base ≤ x ∧ x < o.base + o.bytes.length)) : (m.writeOutputs os).read x = m.read x :=
  m.read_writeOutputs_outside os x fun o ho => Bool.eq_false_iff.2 fun hc => h o ho ((Region.contains_iff _ _).1 hc)

/-- The last region that contains a byte is the one that gives it its value. -/
theorem Memory.read_writeOutputs_last (m : Memory) (before : List Output) {later : List Output} {o : Output} {x : Nat}
    (hx : o.base ≤ x ∧ x < o.base + o.bytes.length)
    (hlater : ∀ o' ∈ later, ¬ (o'.base ≤ x ∧ x < o'.base + o'.bytes.length)) :
    (m.writeOutputs (before ++ o :: later)).read x = o.bytes[x - o.base]? := by
  rw [Memory.writeOutputs_append, Memory.writeOutputs_cons, Memory.read_writeOutputs_of_outside _ hlater,
    Memory.read_writeBytes, dif_pos hx, List.getElem?_eq_getElem]

/-- The engine's turn with a command in flight is its commit. -/
theorem step_of_inflight {r : Inflight} (hm : s.Unmarked) (hturn : s.EngineTurn rest) (hp : s.phase = .inflight r) :
    step s = .next (({ s with agenda := rest } : State).commit r) := by
  rw [step_of_engineTurn s hm rest hturn]
  exact engineStep_of_inflight hp

/-- Settles O12: the turn is `State.commit`, and OPRAM after it is read region by region. -/
theorem commitWritesTheOutput : Obligations.CommitWritesTheOutput := by
  intro s rest r hm hturn hp
  refine ⟨s.opram.writeOutputs r.outputs, Config.freeScratch s.draws, s.draws + 1, step_of_inflight hm hturn hp,
    fun x hx => s.opram.read_writeOutputs_of_outside hx, fun before later o x hr hlo hhi hlater => ?_⟩
  rw [hr]
  exact s.opram.read_writeOutputs_last before ⟨hlo, hhi⟩ hlater

end Sys2Proof.Machine
end

section
/-! The checks of a command before it reads its operands, and the errors that end an engine's turn (40_sequencer.md R141
to R143, 60_exceptions.md R222 to R224). -/

namespace Sys2Proof.Machine

variable {s t : State} {rest : List Turn} {i : Instr} {e : Error}

/-! The first failing check. -/

/-- A list of checks passes or has a first failing one. -/
theorem allPass_or_firstFails (checks : List (Prop × Error)) : AllPass checks ∨ ∃ e, FirstFails checks e := by
  induction checks with
  | nil => exact .inl allPass_nil
  | cons k rest ih =>
    by_cases hk : k.1
    · exact .inr ⟨k.2, .inl ⟨hk, rfl⟩⟩
    · exact ih.imp (fun h => (allPass_cons _ _ _).2 ⟨hk, h⟩) fun ⟨e, he⟩ => ⟨e, .inr ⟨hk, he⟩⟩

/-- Steps 5 to 7 of DecodeCheck for a command with one input region, each with the condition of 20_memory.md R87 to R89
under which it fails. -/
theorem operandError_one_input_iff {c : Config} {a d : Region} :
    operandError c ⟨a, none, d⟩ = some e ↔ FirstFails
      [(a.base % 16 ≠ 0, ⟨.misaligned, 1⟩), (d.base % 16 ≠ 0, ⟨.misaligned, 3⟩),
       (0 < a.len ∧ c.opramBytes < a.base + a.len, ⟨.outOfRange, 1⟩),
       (0 < d.len ∧ c.opramBytes < d.base + d.len, ⟨.outOfRange, 3⟩),
       (0 < a.len ∧ 0 < d.len ∧ a.base < d.base + d.len ∧ d.base < a.base + a.len, ⟨.overlap, 1⟩)] e := by
  rw [operandError, ← firstFails_iff]
  simp only [operandChecks, List.map_cons, List.map_nil, Option.any_none, Bool.false_eq_true,
    firstFails_skip not_false, firstFails_cons, Region.not_aligned_iff, Region.not_inRange_iff, Region.overlaps_iff]

/-- The same for a command with two input regions. -/
theorem operandError_two_inputs_iff {c : Config} {a b d : Region} :
    operandError c ⟨a, some b, d⟩ = some e ↔ FirstFails
      [(a.base % 16 ≠ 0, ⟨.misaligned, 1⟩), (b.base % 32 ≠ 0, ⟨.misaligned, 2⟩), (d.base % 16 ≠ 0, ⟨.misaligned, 3⟩),
       (0 < a.len ∧ c.opramBytes < a.base + a.len, ⟨.outOfRange, 1⟩),
       (0 < b.len ∧ c.opramBytes < b.base + b.len, ⟨.outOfRange, 2⟩),
       (0 < d.len ∧ c.opramBytes < d.base + d.len, ⟨.outOfRange, 3⟩),
       (0 < a.len ∧ 0 < d.len ∧ a.base < d.base + d.len ∧ d.base < a.base + a.len, ⟨.overlap, 1⟩),
       (0 < b.len ∧ 0 < d.len ∧ b.base < d.base + d.len ∧ d.base < b.base + b.len, ⟨.overlap, 2⟩)] e := by
  rw [operandError, ← firstFails_iff]
  simp only [operandChecks, List.map_cons, List.map_nil, Option.any_some, firstFails_cons, Region.not_aligned_iff,
    Region.not_inRange_iff, Region.overlaps_iff]

theorem exec_msm_of_msmError_some {d a b n m win : Nat} (h : msmError s.cfg n m win = some e) :
    exec (.msm d a b n m win) s = .next (s.scrambleScratch.raiseError e) := by
  rw [exec, execMsm, h]

/-- Settles O14: the statement's list is the model's with each region's length written out, MSM's own two checks first. -/
theorem firstFailingCheckIsReported : Obligations.FirstFailingCheckIsReported := by
  intro i s e h
  cases i with
  | halt | nop => exact h.elim
  | decompress | compress | batchNormalize =>
    refine congrArg _ (State.runCommand_of_error _ _ _ _ e (operandError_one_input_iff.2 ?_))
    simpa [commandChecks] using h
  | scalarMul =>
    refine congrArg _ (State.runCommand_of_error _ _ _ _ e (operandError_two_inputs_iff.2 ?_))
    simpa [commandChecks] using h
  | msm d a b n m win =>
    rw [commandChecks, firstFails_cons, firstFails_cons] at h
    obtain ⟨hwin, rfl⟩ | ⟨hwin, ⟨hlen, rfl⟩ | ⟨hlen, hops⟩⟩ := h
    · exact exec_msm_of_msmError_some (by simp [msmError, firstFailing_cons, hwin])
    · exact exec_msm_of_msmError_some (by simp [msmError, firstFailing_cons, hwin, hlen])
    · have hnone : msmError s.cfg n m win = none := by simp [msmError, firstFailing_cons, hwin, not_not.1 hlen]
      rw [exec_msm_of_msmError hnone]
      refine congrArg _ (State.runCommand_of_error _ _ _ _ e (operandError_two_inputs_iff.2 ?_))
      simpa using hops

/-! The fetch check. -/

/-- No command clears UNWRITTEN_READ: its checks fail, its read is of written bytes, or it sets the mark itself. -/
theorem exec_keeps_unwrittenRead (h : exec i s = .next t) (hmark : s.mfault.unwrittenRead = true) :
    t.mfault.unwrittenRead = true := by
  obtain ⟨-, rfl⟩ | ⟨-, rfl⟩ | ⟨o, ho, -, -, hd⟩ := exec_cases h
  · exact hmark
  · exact hmark
  · by_cases hinputs : s.InputsWritten o
    · rw [hd.mfault hinputs]
      exact hmark
    · obtain hpass | ⟨e, hfail⟩ := allPass_or_firstFails (commandChecks s.cfg s.cfg.opramBytes i)
      · obtain ⟨u, hu, hset⟩ := unwrittenReadIsMarked i s o ho hpass hinputs
        rw [h] at hu
        cases hu
        exact hset
      · rw [firstFailingCheckIsReported i s e hfail] at h
        cases h
        exact hmark

/-- A fetch check that fails is the engine's turn. -/
theorem step_of_fetchError (hm : s.Unmarked) (hturn : s.EngineTurn rest) (hp : s.phase = .ready)
    (he : s.fetchError = some e) : step s = .next { s.raiseError e with agenda := rest } := by
  have he' : ({ s with agenda := rest } : State).fetchError = some e := he
  rw [step_of_engineTurn s hm rest hturn, engineStep_of_ready (s := { s with agenda := rest }) hp, readyStep, he']
  rfl

theorem State.fetchError_of_misaligned (h : s.cmdPtr.toNat % 32 ≠ 0) : s.fetchError = some ⟨.misaligned, 0⟩ := by
  rw [State.fetchError, firstFailing_cons, if_pos ((Region.not_aligned_iff _ _).2 h)]

theorem State.fetchError_of_outOfRange (halign : s.cmdPtr.toNat % 32 = 0)
    (h : s.cfg.opramBytes < s.cmdPtr.toNat + 32) : s.fetchError = some ⟨.outOfRange, 0⟩ := by
  rw [State.fetchError, firstFailing_cons, if_neg fun hc => (Region.not_aligned_iff _ _).1 hc halign, firstFailing_cons,
    if_pos ((Region.not_inRange_iff _ _).2 ⟨Nat.succ_pos _, h⟩)]

/-! Every engine's turn answers a next state and takes no other turn off the agenda. -/

theorem exec_next (i : Instr) (s : State) : ∃ t, exec i s = .next t := by
  cases i <;> exact ⟨_, rfl⟩

theorem readyStep_next (s : State) : ∃ t, readyStep s = .next t := by
  unfold readyStep
  split
  · exact ⟨_, rfl⟩
  · split
    · exact ⟨_, rfl⟩
    · exact exec_next _ _

theorem engineStep_next (s : State) : ∃ t, engineStep s = .next t := by
  unfold engineStep
  split
  · exact ⟨_, rfl⟩
  · exact readyStep_next s
  · exact ⟨_, rfl⟩

theorem exec_agenda (h : exec i s = .next t) : t.agenda = s.agenda :=
  (congrArg State.agenda (exec_commandPart h) :)

theorem readyStep_agenda (h : readyStep s = .next t) : t.agenda = s.agenda := by
  rcases readyStep_cases s t h with ⟨e, -, rfl⟩ | ⟨-, e, -, rfl⟩ | ⟨-, i, -, hexec⟩
  · rfl
  · simp
  · simpa using exec_agenda hexec

theorem engineStep_agenda (h : engineStep s = .next t) : t.agenda = s.agenda := by
  rcases engineStep_cases s t h with ⟨-, rfl⟩ | ⟨-, hr⟩ | ⟨r, -, rfl⟩
  · rfl
  · exact readyStep_agenda hr
  · rfl

/-- A fetch of an unwritten byte leaves its mark, whatever the free bytes decode to (20_memory.md R86). -/
theorem readyStep_of_unwritten (hf : s.fetchError = none) (hw : s.regionWritten s.descriptorRegion = false)
    (h : readyStep s = .next t) : t.mfault.unwrittenRead = true := by
  have hmark : (s.markRead [s.descriptorRegion]).mfault.unwrittenRead = true :=
    State.markRead_unwrittenRead (by simp [hw])
  rcases readyStep_cases s t h with ⟨e, he, -⟩ | ⟨-, e, -, rfl⟩ | ⟨-, i, -, hexec⟩
  · cases hf.symm.trans he
  · exact hmark
  · exact exec_keeps_unwrittenRead hexec hmark

/-- Settles O8: the two checks in order, and `readyStep_of_unwritten` behind them. -/
theorem fetchChecksRaise : Obligations.FetchChecksRaise := by
  refine fun s rest hm hturn hp => ⟨fun h => step_of_fetchError hm hturn hp (State.fetchError_of_misaligned h),
    fun ha h => step_of_fetchError hm hturn hp (State.fetchError_of_outOfRange ha h), fun ha h hw => ?_⟩
  have hf : ({ s with agenda := rest } : State).fetchError = none := (State.fetchError_eq_none_iff _).2 ⟨ha, h⟩
  obtain ⟨t, ht⟩ := readyStep_next { s with agenda := rest }
  refine ⟨t, ?_, readyStep_of_unwritten hf hw ht, readyStep_agenda ht⟩
  rw [step_of_engineTurn s hm rest hturn, engineStep_of_ready (s := { s with agenda := rest }) hp, ht]

/-! Errors are precise. -/

/-- The part of the state that a turn which stops on an error leaves as it was: of the CSRs all but ERROR, BUSY and the
error registers (60_exceptions.md R222, R223). -/
def State.precisePart (s : State) : State :=
  { s.dataPart with lastW := s.lastW, scratch := Scratch.blank }

theorem State.precisePart_eq (hd : t.dataPart = s.dataPart) (hl : t.lastW = s.lastW) :
    t.precisePart = s.precisePart := by
  rw [State.precisePart, State.precisePart, hd, hl]

theorem State.StopsOnError.lastW_eq (h : s.StopsOnError t) : t.lastW = s.lastW := by
  obtain ⟨-, -, -, -, hlast⟩ := h
  exact hlast

theorem exec_stopsOnError (hs : s.error = false) (h : exec i s = .next t) (ht : t.error = true) :
    t.precisePart = s.precisePart ∧ s.StopsOnError t := by
  obtain ⟨-, rfl⟩ | ⟨-, rfl⟩ | ⟨o, -, -, -, hd⟩ := exec_cases h
  · exact absurd (hs.symm.trans ht) nofun
  · exact absurd (hs.symm.trans ht) nofun
  · obtain hstop | ⟨out, -, -, herror, -⟩ := hd.outcome
    · exact ⟨State.precisePart_eq (s := s.scrambleScratch) hd.kept hstop.lastW_eq, hstop⟩
    · exact absurd ((herror.trans hs).symm.trans ht) nofun

theorem State.precisePart_markRead (s : State) (rs : List Region) : (s.markRead rs).precisePart = s.precisePart :=
  State.precisePart_eq (s.dataPart_markRead rs) (s.markRead_lastW rs)

/-- A READY step that ends in an error: of the fetch check, of the decoder, or of the command. -/
theorem readyStep_stopsOnError (hs : s.error = false) (h : readyStep s = .next t) (ht : t.error = true) :
    t.precisePart = s.precisePart ∧ s.StopsOnError t := by
  rcases readyStep_cases s t h with ⟨e, he, rfl⟩ | ⟨-, e, -, rfl⟩ | ⟨-, i, -, hexec⟩
  · exact ⟨rfl, rfl, rfl, rfl, State.fetchError_code he, rfl⟩
  · exact ⟨s.precisePart_markRead _, rfl, rfl, by simp, decodeErrorReport_code e, by simp⟩
  · obtain ⟨hkept, hstop⟩ := exec_stopsOnError (by simpa using hs) hexec ht
    exact ⟨hkept.trans (s.precisePart_markRead _), by simpa [State.StopsOnError] using hstop⟩

/-- A busy engine's turn that sets ERROR is a READY step: a commit raises no error (40_sequencer.md R146). -/
theorem engineStep_stopsOnError (hb : s.busy = true) (hs : s.error = false) (h : engineStep s = .next t)
    (ht : t.error = true) : t.precisePart = s.precisePart ∧ s.StopsOnError t := by
  rcases engineStep_cases s t h with ⟨hp, -⟩ | ⟨-, hr⟩ | ⟨r, -, rfl⟩
  · exact absurd hb (by simp [hp])
  · exact readyStep_stopsOnError hs hr ht
  · exact absurd (hs.symm.trans ht) nofun

/-- Settles O15: `engineStep_stopsOnError`, field by field. -/
theorem errorsArePrecise : Obligations.ErrorsArePrecise := by
  intro s t rest hturn hb hs h ht
  rw [step_of_engineTurn s (unmarked_of_step s t h) rest hturn] at h
  obtain ⟨hk, hphase, -, hptr, hcode, -⟩ := engineStep_stopsOnError (s := { s with agenda := rest }) hb hs h ht
  exact ⟨(congrArg State.opram hk :), (congrArg State.cmdPtr hk :), (congrArg State.cmdCount hk :),
    (congrArg State.lastW hk :), (congrArg State.window hk :), (congrArg State.irqEn hk :), (congrArg State.done hk :),
    (congrArg State.cfg hk :), hptr, State.busy_idle t hphase, hcode, (congrArg State.agenda hk :)⟩

end Sys2Proof.Machine
end

section
/-! Runs of the engine left alone: the two steps of a data command, and the end of every run (40_sequencer.md R140,
R146, R147, 70_reset_and_hazards.md R270). -/

namespace Sys2Proof.Machine

variable {s t u : State} {i : Instr}

/-! The two steps of a data command. -/

/-- A commit of one output region writes its bytes there. -/
theorem State.commit_holds (s : State) (pc : Word) (base : Nat) (out : List Byte) :
    (s.commit ⟨pc, [⟨base, out⟩]⟩).Holds base out :=
  fun k hk => s.opram.read_writeBytes_inside base k out hk

theorem State.commit_read_outside (s : State) (pc : Word) {base x : Nat} {out : List Byte}
    (hx : ¬ (base ≤ x ∧ x < base + out.length)) :
    (s.commit ⟨pc, [⟨base, out⟩]⟩).opram.read x = s.opram.read x :=
  s.opram.read_writeBytes_outside base x out (by omega)

/-- Settles O48: the first step is the command, which goes INFLIGHT as it leaves the engine busy; the second is the
commit. -/
theorem dataCommandTakesTwoSteps : Obligations.DataCommandTakesTwoSteps := by
  intro s u later rest i o hm hturn hat hi ho hinputs hstep hbusy hturn'
  rw [step_of_decode_ok hm hturn hat hi] at hstep
  obtain ⟨hd, -⟩ := exec_dataCommand ho hstep
  obtain ⟨hidle, -⟩ | ⟨out, hlen, hphase, -⟩ := hd.outcome
  · exact absurd hbusy (by simp [hidle])
  · have hopram : u.opram = s.opram := (congrArg State.opram hd.kept :)
    have hcmdPtr : u.cmdPtr = s.cmdPtr := (congrArg State.cmdPtr hd.kept :)
    have hcmdCount : u.cmdCount = s.cmdCount := (congrArg State.cmdCount hd.kept :)
    have hmark : u.Unmarked := (hd.mfault hinputs).trans hm
    refine ⟨hopram, (congrArg State.agenda hd.kept :), out, _, hlen, hphase, step_of_inflight hmark hturn' hphase, rfl,
      rfl, by simp [hcmdPtr], by simp [hcmdCount], State.commit_holds _ _ _ _, fun x hx => ?_⟩
    rw [← hlen] at hx
    rw [State.commit_read_outside _ _ hx, ← hopram]

/-! The end of every run. -/

/-- How many descriptors OPRAM can hold from pc on. -/
def State.descriptorsLeft (s : State) : Nat := s.cfg.opramBytes / 32 - s.cmdPtr.toNat / 32

/-- How many steps the engine can still take: two for each descriptor from pc on, the first of them already taken in
phase INFLIGHT, and a last one for the fetch beyond OPRAM. -/
def State.stepsLeft (s : State) : Nat :=
  match s.phase with
  | .idle => 0
  | .ready => 2 * s.descriptorsLeft + 1
  | .inflight _ => 2 * s.descriptorsLeft

theorem State.stepsLeft_of_idle (h : s.phase = .idle) : s.stepsLeft = 0 := by
  rw [State.stepsLeft, h]

theorem State.stepsLeft_of_ready (h : s.phase = .ready) : s.stepsLeft = 2 * s.descriptorsLeft + 1 := by
  rw [State.stepsLeft, h]

theorem State.stepsLeft_of_inflight {r : Inflight} (h : s.phase = .inflight r) :
    s.stepsLeft = 2 * s.descriptorsLeft := by
  rw [State.stepsLeft, h]

theorem State.stepsLeft_le (s : State) : s.stepsLeft ≤ 2 * (s.cfg.opramBytes / 32) + 2 := by
  unfold State.stepsLeft State.descriptorsLeft
  split <;> omega

theorem State.descriptorsLeft_congr (hc : t.cfg = s.cfg) (hp : t.cmdPtr = s.cmdPtr) :
    t.descriptorsLeft = s.descriptorsLeft := by
  rw [State.descriptorsLeft, State.descriptorsLeft, hc, hp]

/-- pc does not wrap at a descriptor that can be fetched, as OPRAM is shorter than 2^32 bytes (00_scope.md R9). -/
theorem State.descriptorsLeft_advance (hv : s.cfg.Valid) (hf : s.fetchError = none) (hc : t.cfg = s.cfg)
    (hp : t.cmdPtr = s.cmdPtr + 32) : t.descriptorsLeft + 1 = s.descriptorsLeft := by
  obtain ⟨-, hend⟩ := (State.fetchError_eq_none_iff s).1 hf
  obtain ⟨-, hlog, -⟩ := hv
  have hbytes : s.cfg.opramBytes ≤ 2 ^ 31 := Nat.pow_le_pow_right (by decide) hlog
  have hnext : (s.cmdPtr + 32).toNat = s.cmdPtr.toNat + 32 := by bv_omega
  rw [State.descriptorsLeft, State.descriptorsLeft, hc, hp, hnext]
  omega

/-- A command stops the engine, retires, or goes INFLIGHT at the same pc. -/
theorem State.Executing.exec_stepsLeft (h : s.Executing) (hi : exec i s = .next t) : t.stepsLeft < s.stepsLeft := by
  have hcfg := exec_cfg hi
  rw [State.stepsLeft_of_ready h.ready]
  obtain ⟨-, rfl⟩ | ⟨-, rfl⟩ | ⟨o, -, -, -, hd⟩ := exec_cases hi
  · rw [State.stepsLeft_of_idle rfl]
    omega
  · have hleft := State.descriptorsLeft_advance h.inv.config h.fetchable hcfg s.scrambleScratch.retire_cmdPtr
    rw [State.stepsLeft_of_ready (s := s.scrambleScratch.retire) h.ready]
    omega
  · obtain ⟨hidle, -⟩ | ⟨out, -, hphase, -⟩ := hd.outcome
    · rw [State.stepsLeft_of_idle hidle]
      omega
    · have hcmdPtr : t.cmdPtr = s.cmdPtr := (congrArg State.cmdPtr hd.kept :)
      rw [State.stepsLeft_of_inflight hphase, State.descriptorsLeft_congr hcfg hcmdPtr]
      omega

theorem State.stepsLeft_markRead (s : State) (rs : List Region) : (s.markRead rs).stepsLeft = s.stepsLeft := by
  simp only [State.stepsLeft, State.descriptorsLeft, State.markRead_phase, State.markRead_cfg, State.markRead_cmdPtr]

theorem State.Inv.readyStep_stepsLeft (h : s.Inv) (hp : s.phase = .ready) (hs : Machine.readyStep s = .next t) :
    t.stepsLeft < s.stepsLeft := by
  have hpos : 0 < s.stepsLeft := by
    rw [State.stepsLeft_of_ready hp]
    exact Nat.succ_pos _
  rcases readyStep_cases s t hs with ⟨e, -, rfl⟩ | ⟨-, e, -, rfl⟩ | ⟨hf, i, -, hexec⟩
  · rwa [State.stepsLeft_of_idle rfl]
  · rwa [State.stepsLeft_of_idle rfl]
  · have hless := (State.Executing.markRead ⟨h, hp, hf⟩ _).exec_stepsLeft hexec
    rwa [s.stepsLeft_markRead] at hless

/-- Every turn of a busy engine brings the run nearer to its end. -/
theorem State.Inv.engineStep_stepsLeft (h : s.Inv) (hb : s.busy = true) (hs : Machine.engineStep s = .next t) :
    t.stepsLeft < s.stepsLeft := by
  rcases engineStep_cases s t hs with ⟨hp, -⟩ | ⟨hp, hr⟩ | ⟨r, hp, rfl⟩
  · exact absurd hb (by simp [hp])
  · exact h.readyStep_stepsLeft hp hr
  · obtain ⟨-, hf, -⟩ := h.inflight r hp
    have hleft := State.descriptorsLeft_advance h.config hf (s.commit_cfg r) (s.commit_cmdPtr r)
    rw [State.stepsLeft_of_inflight hp, State.stepsLeft_of_ready (s.commit_phase r)]
    omega

/-- The engine left alone steps to a legal state nearer to the end of its run. -/
theorem State.Inv.step_stepsLeft (h : s.Inv) (ha : s.agenda = []) (hm : s.Unmarked) (hb : s.busy = true) :
    ∃ u, step s = .next u ∧ u.Inv ∧ u.agenda = [] ∧ u.stepsLeft < s.stepsLeft := by
  obtain ⟨u, hu⟩ := engineStep_next s
  have hstep : step s = .next u := (step_of_empty s hm ha).trans hu
  exact ⟨u, hstep, stepKeepsTheStateLegal s u h hstep, (engineStep_agenda hu).trans ha, h.engineStep_stepsLeft hb hu⟩

/-- The engine left alone is idle or meets a model fault within `stepsLeft` steps. -/
theorem State.Inv.run_ends {s : State} (h : s.Inv) (ha : s.agenda = []) :
    ∃ k ≤ s.stepsLeft, ∃ t, runs k s t ∧ (t.busy = false ∨ ∃ f, step t = .fault f) := by
  by_cases hm : s.Unmarked
  · cases hb : s.busy with
    | false => exact ⟨0, Nat.zero_le _, s, rfl, .inl hb⟩
    | true =>
      obtain ⟨u, hstep, hinv, hagenda, hless⟩ := h.step_stepsLeft ha hm hb
      obtain ⟨k, hk, t, hrun, hend⟩ := hinv.run_ends hagenda
      exact ⟨k + 1, by omega, t, ⟨u, hstep, hrun⟩, hend⟩
  · exact ⟨0, Nat.zero_le _, s, rfl, .inr (step_of_marked s hm)⟩
termination_by s.stepsLeft

/-- Settles O46: `State.Inv.run_ends`, and `stepsLeft` is within the bound. -/
theorem everyRunEnds : Obligations.EveryRunEnds := by
  intro s h _ ha _
  obtain ⟨k, hk, hrun⟩ := h.run_ends ha
  exact ⟨k, hk.trans s.stepsLeft_le, hrun⟩

end Sys2Proof.Machine
end

section
/-! The codec on 384-bit values: their three flags and low 381 bits, the point with a given x and sign, Decode case by
case, and Encode as its inverse (41_codec.md R161 to R169). -/

namespace Sys2Proof.Machine

variable {cv : Curve} {c p x s y : Nat} {q : Point} {e : Error}

/-! Flags and low bits of a 384-bit value. -/

theorem bitSlice_bit (v i : Nat) : bitSlice v i i = (v.testBit i).toNat := by
  simp [bitSlice, Nat.toNat_testBit]

theorem bitSlice_bit_eq_one_iff (v i : Nat) : bitSlice v i i = 1 ↔ v.testBit i = true := by
  rw [bitSlice_bit, Bool.toNat_eq_one]

theorem bitSlice_bit_eq_zero_iff (v i : Nat) : bitSlice v i i = 0 ↔ v.testBit i = false := by
  rw [bitSlice_bit, Bool.toNat_eq_zero]

theorem bitSlice_low (v n : Nat) : bitSlice v n 0 = v % 2 ^ (n + 1) := by
  simp [bitSlice]

theorem two_pow_384_eq_flags : (2 : Nat) ^ 384 = 2 ^ 381 * 8 := by
  rw [show (8 : Nat) = 2 ^ 3 from rfl, ← pow_add]

theorem two_pow_381_pos : (0 : Nat) < 2 ^ 381 := pow_pos (by decide) 381

theorem eq_bits_of_lt_eight {f : Nat} (hf : f < 8) :
    f = 4 * (f.testBit 2).toNat + 2 * (f.testBit 1).toNat + (f.testBit 0).toNat := by
  interval_cases f <;> rfl

/-- A 384-bit value is its three flags and its low 381 bits (R161). -/
theorem eq_flags_of_lt (hc : c < 2 ^ 384) :
    c = 2 ^ 381 * (4 * (c.testBit 383).toNat + 2 * (c.testBit 382).toNat + (c.testBit 381).toNat) + c % 2 ^ 381 := by
  have hflags := eq_bits_of_lt_eight (Nat.div_lt_of_lt_mul (hc.trans_eq two_pow_384_eq_flags))
  simp only [Nat.testBit_div_two_pow, Nat.reduceAdd] at hflags
  rw [← hflags, Nat.div_add_mod]

/-- Bit 381 + k of a value is bit k of its flags. -/
theorem testBit_flags (f k : Nat) (hx : x < 2 ^ 381) : (2 ^ 381 * f + x).testBit (381 + k) = f.testBit k := by
  rw [Nat.testBit_two_pow_mul_add f hx, if_neg (by omega), Nat.add_sub_cancel_left]

theorem mod_flags (f : Nat) (hx : x < 2 ^ 381) : (2 ^ 381 * f + x) % 2 ^ 381 = x := by
  rw [Nat.mul_add_mod, Nat.mod_eq_of_lt hx]

theorem flags_lt {f : Nat} (hf : f < 8) (hx : x < 2 ^ 381) : 2 ^ 381 * f + x < 2 ^ 384 :=
  calc 2 ^ 381 * f + x
      < 2 ^ 381 * (f + 1) := Nat.add_lt_add_left hx _
    _ ≤ 2 ^ 381 * 8 := Nat.mul_le_mul_left _ hf
    _ = 2 ^ 384 := two_pow_384_eq_flags.symm

theorem encodePoint_inf_eq_flags (cv : Curve) : encodePoint cv .inf = 2 ^ 381 * 6 + 0 := by
  rw [encodePoint, pow_add 2 381 2, pow_add 2 381 1]
  generalize (2 : Nat) ^ 381 = n
  omega

theorem eq_encodePoint_inf (cv : Curve) (hc : c < 2 ^ 384) (h : c.testBit 383 = true) (hinf : c.testBit 382 = true)
    (hsign : c.testBit 381 = false) (hlow : c % 2 ^ 381 = 0) : c = encodePoint cv .inf := by
  rw [eq_flags_of_lt hc, h, hinf, hsign, hlow, encodePoint_inf_eq_flags, Bool.toNat_true, Bool.toNat_false]

theorem encodePoint_fin_eq_flags (cv : Curve) (x y : Nat) :
    encodePoint cv (.fin x y) = 2 ^ 381 * (4 + sgn cv.p y) + x := by
  rw [encodePoint, pow_add 2 381 2]
  generalize (2 : Nat) ^ 381 = n
  ring

/-! The point with a given x and sign. -/

/-- The root that Decode selects for the sign s is the one of that sign, where there is one (R163). -/
theorem selectRoot_eq [Fact p.Prime] (hodd : p % 2 = 1) (hc : c < p) (hy : y < p) (h : fpSqr p c = fpSqr p y) :
    selectRoot p c (sgn p y) = y := by
  unfold selectRoot
  obtain rfl | rfl := (fpSqr_eq_fpSqr_iff hy hc).1 h
  · rw [if_pos rfl]
  · by_cases h0 : y = 0
    · simp [h0, fpNeg]
    · have hneg : fpNeg p y = p - y := by rw [fpNeg_of_lt hy, if_neg h0]
      rw [if_neg, hneg, fpNeg_of_lt (by omega), if_neg (by omega)]
      · omega
      · rw [hneg]; exact (sgn_ne_sgn_sub hodd hy).symm

theorem selectRoot_lt (hc : c < p) : selectRoot p c s < p := by
  unfold selectRoot
  split
  · exact hc
  · exact fpNeg_lt c (by omega)

theorem fpSqr_fpNeg (hp : 0 < p) (c : Nat) : fpSqr p (fpNeg p c) = fpSqr p c := by
  have : NeZero p := ⟨by omega⟩
  rw [fpSqr_eq_iff_cast _ _ hp (fpSqr_lt c hp), cast_fpNeg, cast_fpSqr, neg_sq]

theorem fpSqr_selectRoot (hp : 0 < p) (c s : Nat) : fpSqr p (selectRoot p c s) = fpSqr p c := by
  unfold selectRoot
  split
  · rfl
  · exact fpSqr_fpNeg hp c

/-- What Decode answers once the flags and x < p are checked: the point with x and the sign s, or reason 4 (R161,
R163). -/
def liftX (cv : Curve) (x s : Nat) : Except Error Point :=
  let y := selectRoot cv.p (fpRoot cv.p (curveRhs cv x)) s
  if fpIsSquare cv.p (curveRhs cv x) = false ∨ sgn cv.p y ≠ s then .error ⟨.decodeError, 4⟩ else .ok (.fin x y)

theorem liftX_cases (hp : 0 < cv.p) (x s : Nat) :
    (∃ y < cv.p, onCurve cv x y = true ∧ sgn cv.p y = s ∧ liftX cv x s = .ok (.fin x y)) ∨
      liftX cv x s = .error ⟨.decodeError, 4⟩ := by
  unfold liftX
  dsimp only
  split
  · exact .inr rfl
  · rename_i h
    simp only [not_or, Bool.not_eq_false, not_not] at h
    obtain ⟨hsquare, hsgn⟩ := h
    refine .inl ⟨_, selectRoot_lt (powMod_lt _ _ hp), ?_, hsgn, rfl⟩
    rw [onCurve, fpSqr_selectRoot hp]
    exact hsquare

theorem liftX_eq_ok (hp : 0 < cv.p) (h : liftX cv x s = .ok q) :
    ∃ y < cv.p, onCurve cv x y = true ∧ sgn cv.p y = s ∧ q = .fin x y := by
  obtain ⟨y, hy, hon, hsgn, hok⟩ | herr := liftX_cases hp x s
  · exact ⟨y, hy, hon, hsgn, Except.ok.inj (h.symm.trans hok)⟩
  · cases h.symm.trans herr

theorem liftX_of_no_root (hp : 0 < cv.p) (h : ∀ y < cv.p, onCurve cv x y = true → sgn cv.p y ≠ s) :
    liftX cv x s = .error ⟨.decodeError, 4⟩ := by
  obtain ⟨y, hy, hon, hsgn, -⟩ | herr := liftX_cases hp x s
  · exact absurd hsgn (h y hy hon)
  · exact herr

/-- A point on the curve is the one that Decode finds from its x and its sign. -/
theorem liftX_of_onCurve [Fact cv.p.Prime] (h4 : cv.p % 4 = 3) (hy : y < cv.p) (hon : onCurve cv x y = true) :
    liftX cv x (sgn cv.p y) = .ok (.fin x y) := by
  have hp : 0 < cv.p := by omega
  have hrhs : fpSqr cv.p y = curveRhs cv x := by simpa [onCurve] using hon
  have hsquare : fpIsSquare cv.p (curveRhs cv x) = true := (fpIsSquare_iff h4 _ (fpAdd_lt _ _ hp)).2 ⟨y, hy, hrhs⟩
  have hroot : fpSqr cv.p (fpRoot cv.p (curveRhs cv x)) = fpSqr cv.p y := by
    rw [hrhs]
    simpa [fpIsSquare] using hsquare
  have hlt : fpRoot cv.p (curveRhs cv x) < cv.p := powMod_lt _ _ hp
  have hselect := selectRoot_eq (by omega) hlt hy hroot
  rw [liftX, hselect, if_neg (by simp [hsquare])]

/-! Decode, case by case in the order of its reasons (R161, R162). -/

/-- Decode in terms of the flags and the low bits. -/
theorem decodePoint_eq (cv : Curve) (c : Nat) : decodePoint cv c =
    if c.testBit 383 = false then .error ⟨.decodeError, 1⟩
    else if c.testBit 382 = true then
      if c.testBit 381 = true ∨ c % 2 ^ 381 ≠ 0 then .error ⟨.decodeError, 2⟩ else .ok .inf
    else if cv.p ≤ c % 2 ^ 381 then .error ⟨.decodeError, 3⟩
    else liftX cv (c % 2 ^ 381) (c.testBit 381).toNat := by
  simp only [decodePoint, bitSlice_bit_eq_one_iff, bitSlice_bit_eq_zero_iff, bitSlice_low, Nat.reduceAdd,
    -Nat.reducePow]
  rw [bitSlice_bit]
  rfl

theorem decodePoint_of_uncompressed (cv : Curve) (h : c.testBit 383 = false) :
    decodePoint cv c = .error ⟨.decodeError, 1⟩ := by
  rw [decodePoint_eq, if_pos h]

theorem decodePoint_of_bad_infinity (cv : Curve) (h : c.testBit 383 = true) (hinf : c.testBit 382 = true)
    (hbad : c.testBit 381 = true ∨ c % 2 ^ 381 ≠ 0) : decodePoint cv c = .error ⟨.decodeError, 2⟩ := by
  rw [decodePoint_eq, if_neg (by simp [h]), if_pos hinf, if_pos hbad]

theorem decodePoint_of_infinity (cv : Curve) (h : c.testBit 383 = true) (hinf : c.testBit 382 = true)
    (hsign : c.testBit 381 = false) (hlow : c % 2 ^ 381 = 0) : decodePoint cv c = .ok .inf := by
  rw [decodePoint_eq, if_neg (by simp [h]), if_pos hinf, if_neg (not_or.2 ⟨by simp [hsign], not_not.2 hlow⟩)]

theorem decodePoint_of_big (h : c.testBit 383 = true) (hinf : c.testBit 382 = false) (hx : cv.p ≤ c % 2 ^ 381) :
    decodePoint cv c = .error ⟨.decodeError, 3⟩ := by
  rw [decodePoint_eq, if_neg (by simp [h]), if_neg (by simp [hinf]), if_pos hx]

theorem decodePoint_of_canonical (h : c.testBit 383 = true) (hinf : c.testBit 382 = false)
    (hx : c % 2 ^ 381 < cv.p) : decodePoint cv c = liftX cv (c % 2 ^ 381) (c.testBit 381).toNat := by
  rw [decodePoint_eq, if_neg (by simp [h]), if_neg (by simp [hinf]), if_neg (Nat.not_le.2 hx)]

/-- Every value that Decode accepts is the infinity pattern or lifts from a canonical x. -/
theorem decodePoint_eq_ok_cases (h : decodePoint cv c = .ok q) :
    c.testBit 383 = true ∧
      ((c.testBit 382 = true ∧ c.testBit 381 = false ∧ c % 2 ^ 381 = 0 ∧ q = .inf) ∨
        (c.testBit 382 = false ∧ c % 2 ^ 381 < cv.p ∧ liftX cv (c % 2 ^ 381) (c.testBit 381).toNat = .ok q)) := by
  rw [decodePoint_eq] at h
  split_ifs at h with hcomp hinf hbad hx
  · cases h
    obtain ⟨hsign, hlow⟩ := not_or.1 hbad
    exact ⟨by simpa using hcomp, .inl ⟨hinf, by simpa using hsign, not_not.1 hlow, rfl⟩⟩
  · exact ⟨by simpa using hcomp, .inr ⟨by simpa using hinf, Nat.lt_of_not_le hx, h⟩⟩

/-- Every decoded point lies in E(F_p) (R164). -/
theorem pointOnCurve_of_decodePoint (hp : 0 < cv.p) (h : decodePoint cv c = .ok q) : pointOnCurve cv q := by
  obtain ⟨-, ⟨-, -, -, rfl⟩ | ⟨-, hx, hlift⟩⟩ := decodePoint_eq_ok_cases h
  · trivial
  · obtain ⟨y, hy, hon, -, rfl⟩ := liftX_eq_ok hp hlift
    exact ⟨hx, hy, hon⟩

/-- Encode undoes Decode (R168). -/
theorem encodePoint_of_decodePoint (hp : 0 < cv.p) (hc : c < 2 ^ 384) (h : decodePoint cv c = .ok q) :
    encodePoint cv q = c := by
  obtain ⟨hcomp, ⟨hinf, hsign, hlow, rfl⟩ | ⟨hinf, -, hlift⟩⟩ := decodePoint_eq_ok_cases h
  · exact (eq_encodePoint_inf cv hc hcomp hinf hsign hlow).symm
  · obtain ⟨y, -, -, hsgn, rfl⟩ := liftX_eq_ok hp hlift
    have hflags := eq_flags_of_lt hc
    rw [hcomp, hinf, ← hsgn] at hflags
    rw [encodePoint_fin_eq_flags]
    exact hflags.symm

theorem encodePoint_lt (hp : cv.p < 2 ^ 381) (hq : pointOnCurve cv q) : encodePoint cv q < 2 ^ 384 := by
  cases q with
  | inf =>
    rw [encodePoint_inf_eq_flags]
    exact flags_lt (by decide) two_pow_381_pos
  | fin x y =>
    obtain ⟨hx, -, -⟩ := hq
    have hsgn : sgn cv.p y = 1 ∨ sgn cv.p y = 0 := sgn_eq_one_or_zero y
    rw [encodePoint_fin_eq_flags]
    exact flags_lt (by omega) (hx.trans hp)

/-- The flags of the encoding of a finite point: compressed, not infinity, the sign (R167). -/
theorem testBit_fin_flags (h : s = 1 ∨ s = 0) :
    (4 + s).testBit 2 = true ∧ (4 + s).testBit 1 = false ∧ ((4 + s).testBit 0).toNat = s := by
  obtain rfl | rfl := h <;> decide

theorem decodePoint_encodePoint_inf (cv : Curve) : decodePoint cv (encodePoint cv .inf) = .ok .inf := by
  have hlow : (0 : Nat) < 2 ^ 381 := two_pow_381_pos
  rw [encodePoint_inf_eq_flags]
  exact decodePoint_of_infinity cv (testBit_flags 6 2 hlow) (testBit_flags 6 1 hlow) (testBit_flags 6 0 hlow)
    (mod_flags 6 hlow)

/-- Decode undoes Encode (R168): the flags of the encoding select `liftX`, which finds the point again. -/
theorem decodePoint_encodePoint [Fact cv.p.Prime] (h4 : cv.p % 4 = 3) (hp : cv.p < 2 ^ 381) (hq : pointOnCurve cv q) :
    decodePoint cv (encodePoint cv q) = .ok q := by
  cases q with
  | inf => exact decodePoint_encodePoint_inf cv
  | fin x y =>
    obtain ⟨hx, hy, hon⟩ := hq
    have hlow : x < 2 ^ 381 := hx.trans hp
    obtain ⟨hcomp, hinf, hsign⟩ := testBit_fin_flags (sgn_eq_one_or_zero (p := cv.p) y)
    have hmod := mod_flags (4 + sgn cv.p y) hlow
    rw [encodePoint_fin_eq_flags, decodePoint_of_canonical ((testBit_flags _ 2 hlow).trans hcomp)
      ((testBit_flags _ 1 hlow).trans hinf) (hmod.trans_lt hx), hmod, testBit_flags _ 0 hlow, hsign,
      liftX_of_onCurve h4 hy hon]

/-- Settles O23: Decode and Encode undo each other. -/
theorem codecIsABijection : Obligations.CodecIsABijection := by
  intro cv hprime h4 hp
  have : Fact cv.p.Prime := ⟨hprime⟩
  refine ⟨fun q hq => ⟨encodePoint_lt hp hq, decodePoint_encodePoint h4 hp hq⟩,
    fun c q hc h => encodePoint_of_decodePoint hprime.pos hc h, fun c e q hc he h h' => ?_⟩
  rw [← encodePoint_of_decodePoint hprime.pos hc h, encodePoint_of_decodePoint hprime.pos he h']

/-- Settles O20: `pointOnCurve_of_decodePoint`. -/
theorem decodedPointsAreOnCurve : Obligations.DecodedPointsAreOnCurve :=
  fun _ _ _ hp h => pointOnCurve_of_decodePoint hp h

/-- Settles O19: the cases of Decode one by one, the last two by `liftX`. -/
theorem decodeReasonsInOrder : Obligations.DecodeReasonsInOrder := by
  intro cv c hprime h4 _ _
  have : Fact cv.p.Prime := ⟨hprime⟩
  refine ⟨decodePoint_of_uncompressed cv, decodePoint_of_bad_infinity cv, decodePoint_of_infinity cv,
    decodePoint_of_big, fun hcomp hinf hx hnone => ?_, fun y hy hcomp hinf hx hon hsgn => ?_⟩
  · rw [decodePoint_of_canonical hcomp hinf hx, liftX_of_no_root hprime.pos hnone]
  · rw [decodePoint_of_canonical hcomp hinf hx, ← hsgn, liftX_of_onCurve h4 hy hon]

/-! The infinity pattern (R169). -/

@[simp] theorem beInt_zeroBytes (k : Nat) : beInt (zeroBytes k) = 0 := by
  rw [beInt, zeroBytes, List.reverse_replicate]
  induction k with
  | zero => rfl
  | succ k ih => rw [List.replicate_succ, leInt_cons, ih]; rfl

theorem beInt_injective {bs cs : List Byte} (hl : bs.length = cs.length) (h : beInt bs = beInt cs) : bs = cs := by
  rw [← beBytes_beInt bs, ← beBytes_beInt cs, hl, h]

/-- The bytes c0 00 .. 00 are Encode(O). -/
theorem beInt_infinityPattern (cv : Curve) : beInt (0xc0 :: zeroBytes 47) = encodePoint cv .inf := by
  have hbytes : beInt (0xc0 :: zeroBytes 47) = 192 * 256 ^ 47 := by
    rw [← List.singleton_append, beInt_append, beInt_zeroBytes, length_zeroBytes]
    rfl
  have hpow : (256 : Nat) ^ 47 * 32 = 2 ^ 381 := by
    rw [show (256 : Nat) = 2 ^ 8 from rfl, ← pow_mul, show (32 : Nat) = 2 ^ 5 from rfl, ← pow_add]
  rw [hbytes, encodePoint_inf_eq_flags, ← hpow]
  omega

/-- Only the infinity pattern has the infinity flag and decodes. -/
theorem decodePoint_of_infinity_flag (cv : Curve) (hc : c < 2 ^ 384) (hinf : c.testBit 382 = true)
    (hne : c ≠ encodePoint cv .inf) :
    decodePoint cv c = .error ⟨.decodeError, 1⟩ ∨ decodePoint cv c = .error ⟨.decodeError, 2⟩ := by
  cases hcomp : c.testBit 383 with
  | false => exact .inl (decodePoint_of_uncompressed cv hcomp)
  | true =>
    refine .inr (decodePoint_of_bad_infinity cv hcomp hinf ?_)
    by_contra hgood
    obtain ⟨hsign, hlow⟩ := not_or.1 hgood
    rw [Bool.not_eq_true] at hsign
    rw [not_not] at hlow
    exact hne (eq_encodePoint_inf cv hc hcomp hinf hsign hlow)

/-- Settles O24: the pattern is Encode(O) (`beInt_infinityPattern`), and every other buffer with the infinity flag is
rejected by `decodePoint_of_infinity_flag`. -/
theorem infinityPattern : Obligations.InfinityPattern := by
  intro cv
  have hpattern := beInt_infinityPattern cv
  refine ⟨?_, ?_, fun buf hlen hinf hne => ?_⟩
  · rw [← hpattern]
    exact beBytes_beInt (0xc0 :: zeroBytes 47)
  · rw [hpattern]
    exact decodePoint_encodePoint_inf cv
  · refine decodePoint_of_infinity_flag cv ?_ hinf fun hc => hne (beInt_injective hlen (hc.trans hpattern.symm))
    have hlt := beInt_lt buf
    rwa [hlen, ← two_pow_384] at hlt

end Sys2Proof.Machine
end

section
/-! DECOMPRESS and COMPRESS: the record in, the result or the error of the codec out; SCALAR_MUL rejects a bad record as
COMPRESS does (41_codec.md R160, R166, 42_scalar_mul.md R180). -/

namespace Sys2Proof.Machine

variable {s : State} {i : Instr} {o : Operands} {d a b : Nat} {rec out reserved : List Byte} {q : Point} {e : Error}

/-! A data command behind its checks, on an operand A whose bytes are known and that alone decides the result. -/

section Frame

variable {compute : List Byte → List Byte → Except Error (List Byte)}

theorem exec_launch_of_holds (ho : commandOperands i = some o)
    (hexec : exec i s = .next (s.scrambleScratch.runCommand o id compute))
    (hpass : AllPass (commandChecks s.cfg s.cfg.opramBytes i)) (hw : s.InputsWritten o) (hlen : rec.length = o.a.len)
    (hrec : s.Holds o.a.base rec) (hout : ∀ scalars, compute rec scalars = .ok out) :
    exec i s = .next (s.scrambleScratch.launch o.d.base out) := by
  have hread := s.scrambleScratch.readRegion_of_holds s.scrambleScratch.draws o.a.base o.a.len rec hlen hrec
  exact hexec.trans (congrArg _ (s.scrambleScratch.runCommand_launch o id compute out (operandError_of_allPass ho hpass)
    hw (by rw [hread, hout])))

theorem exec_reject_of_holds (ho : commandOperands i = some o)
    (hexec : exec i s = .next (s.scrambleScratch.runCommand o id compute))
    (hpass : AllPass (commandChecks s.cfg s.cfg.opramBytes i)) (hw : s.InputsWritten o) (hlen : rec.length = o.a.len)
    (hrec : s.Holds o.a.base rec) (hout : ∀ scalars, compute rec scalars = .error e) :
    exec i s = .next (s.scrambleScratch.raiseError e) := by
  have hread := s.scrambleScratch.readRegion_of_holds s.scrambleScratch.draws o.a.base o.a.len rec hlen hrec
  exact hexec.trans (congrArg _ (s.scrambleScratch.runCommand_reject o id compute e (operandError_of_allPass ho hpass)
    hw (by rw [hread, hout])))

end Frame

/-- A command with one input region that OPRAM holds reads written bytes only. -/
theorem State.inputsWritten_of_holds (hb : o.b = none) (hlen : rec.length = o.a.len) (hrec : s.Holds o.a.base rec) :
    s.InputsWritten o := by
  simp [State.InputsWritten, Operands.inputs, hb, s.regionWritten_of_holds o.a.base o.a.len rec hlen hrec]

/-! DECOMPRESS. -/

theorem decompressBytes_eq (cv : Curve) (hlen : rec.length = 48) :
    decompressBytes cv rec = (decodePoint cv (beInt rec)).map affBytes := by
  rw [decompressBytes, compressedValue, byteSlice_self rec 48 hlen]

/-- Settles O17: the command launches `decompressBytes`, the record of the decoded point. -/
theorem decompressComputesItsRecord : Obligations.DecompressComputesItsRecord := by
  intro s d a buf q hpass hlen hbuf hq
  have hout : decompressBytes s.cfg.curve buf = .ok (affBytes q) := by rw [decompressBytes_eq _ hlen, hq]; rfl
  exact exec_launch_of_holds rfl rfl hpass (State.inputsWritten_of_holds rfl hlen hbuf) hlen hbuf fun _ => hout

/-- Settles O18: the command raises the error of `decodePoint`. -/
theorem decompressRaisesDecodeError : Obligations.DecompressRaisesDecodeError := by
  intro s d a buf e hpass hlen hbuf he
  have hout : decompressBytes s.cfg.curve buf = .error e := by rw [decompressBytes_eq _ hlen, he]; rfl
  exact exec_reject_of_holds rfl rfl hpass (State.inputsWritten_of_holds rfl hlen hbuf) hlen hbuf fun _ => hout

/-! The affine record of COMPRESS and SCALAR_MUL. -/

theorem length_affineRecord (x y : Nat) (inf : Byte) (h : reserved.length = 31) :
    (affineRecord x y inf reserved).length = 128 := by
  simp [affineRecord, h]

/-- Behind its checks, COMPRESS of a record that reads as a point goes INFLIGHT with the bytes of its encoding. -/
theorem exec_compress_of_readAffine (hpass : AllPass (commandChecks s.cfg s.cfg.opramBytes (.compress d a)))
    (hlen : rec.length = 128) (hrec : s.Holds a rec) (hq : readAffine s.cfg.curve 0 rec = .ok q) :
    exec (.compress d a) s =
      .next (s.scrambleScratch.launch d (beBytes 48 (encodePoint s.cfg.curve q))) := by
  have hout : compressBytes s.cfg.curve rec = .ok (beBytes 48 (encodePoint s.cfg.curve q)) := by
    rw [compressBytes, hq]; rfl
  exact exec_launch_of_holds rfl rfl hpass (State.inputsWritten_of_holds rfl hlen hrec) hlen hrec fun _ => hout

/-- Settles O21: `exec_compress_of_readAffine` on the two kinds of valid records. -/
theorem compressComputesItsBytes : Obligations.CompressComputesItsBytes := by
  intro s d a x y inf reserved hpass hres hrec hx hy
  have hlen := length_affineRecord x y inf hres
  refine ⟨?_, ?_⟩
  · rintro rfl
    have hexec := exec_compress_of_readAffine hpass hlen hrec (readAffine_affineRecord_one _ 0 x y reserved)
    rw [encodePoint] at hexec
    exact hexec
  · rintro rfl hxp hyp hon
    have hread := readAffine_affineRecord_zero s.cfg.curve 0 reserved hx hy hxp hyp
    rw [if_pos hon] at hread
    have hexec := exec_compress_of_readAffine hpass hlen hrec hread
    rw [encodePoint] at hexec
    exact hexec

/-- Behind their checks, COMPRESS and SCALAR_MUL of a written scalar report the error of their affine record. -/
theorem exec_of_bad_affine (hi : i = .compress d a ∨ (i = .scalarMul d a b ∧ s.regionWritten ⟨b, 32⟩ = true))
    (hpass : AllPass (commandChecks s.cfg s.cfg.opramBytes i)) (hlen : rec.length = 128) (hrec : s.Holds a rec)
    (he : readAffine s.cfg.curve 0 rec = .error e) : exec i s = .next (s.scrambleScratch.raiseError e) := by
  obtain rfl | ⟨rfl, hscalar⟩ := hi
  · have hout : compressBytes s.cfg.curve rec = .error e := by rw [compressBytes, he]; rfl
    exact exec_reject_of_holds rfl rfl hpass (State.inputsWritten_of_holds rfl hlen hrec) hlen hrec fun _ => hout
  · have hout (scalar : List Byte) : scalarMulBytes s.cfg.curve rec scalar = .error e := by
      rw [scalarMulBytes, he]; rfl
    have hrecord : s.regionWritten ⟨a, 128⟩ = true := s.regionWritten_of_holds a 128 rec hlen hrec
    have hinputs : s.InputsWritten (scalarMulOperands d a b) := by
      simp [State.InputsWritten, Operands.inputs, scalarMulOperands, hrecord, hscalar]
    exact exec_reject_of_holds rfl rfl hpass hinputs hlen hrec hout

/-- Settles O22: `exec_of_bad_affine` on the three kinds of bad records. -/
theorem badAffineOperandIsRejected : Obligations.BadAffineOperandIsRejected := by
  intro s i d a b x y inf reserved hi hpass hres hrec hx hy
  have hlen := length_affineRecord x y inf hres
  refine ⟨fun h0 h1 => ?_, ?_, ?_⟩
  · exact exec_of_bad_affine hi hpass hlen hrec (readAffine_affineRecord_bad_inf _ 0 x y reserved h0 h1)
  · rintro rfl hbig
    exact exec_of_bad_affine hi hpass hlen hrec (readAffine_affineRecord_big _ 0 reserved hx hy hbig)
  · rintro rfl hxp hyp hoff
    refine exec_of_bad_affine hi hpass hlen hrec ?_
    rw [readAffine_affineRecord_zero _ 0 reserved hx hy hxp hyp, hoff]
    rfl

end Sys2Proof.Machine
end

section
/-! SCALAR_MUL: the laws of multiples; the windowed and the bitwise multiplier, both the repeated addition of R26 by the
bits they scan, by Horner's rule on Mathlib's curve; the command itself (42_scalar_mul.md R180 to R185). -/

namespace Sys2Proof.Machine

variable {cv : Curve} {q t acc : Point} {q' t' acc' : (weierstrass cv).Point} {k : Nat}

/-! The scanned integer and its digits. -/

theorem scan_eq {bs : List Byte} (hlen : bs.length = 32) : scan bs = leInt bs % 2 ^ 255 := by
  rw [scan, byteSlice_self bs 32 hlen]

theorem scan_leBytes (hk : k < 2 ^ 256) : scan (leBytes 32 k) = k % 2 ^ 255 := by
  have hbytes : k < 256 ^ 32 := hk.trans_eq (by norm_num)
  rw [scan_eq (length_leBytes 32 k), leInt_leBytes, Nat.mod_eq_of_lt hbytes]

/-- The window of w bits at position j is digit j to base 2^w. -/
theorem bitSlice_window (k j : Nat) {w : Nat} (hw : 0 < w) :
    bitSlice k (w * j + w - 1) (w * j) = k / (2 ^ w) ^ j % 2 ^ w := by
  have hwidth : w * j + w - 1 + 1 - w * j = w := by omega
  rw [bitSlice, hwidth, pow_mul]

/-- Horner's rule, most significant digit first: base b times the accumulator x plus digit j of k, then the digits below
j, amount to x and the digits up to j. -/
theorem horner_nsmul {A : Type} [AddCommMonoid A] (b k j : Nat) (x y : A) :
    b ^ j • (b • x + (k / b ^ j % b) • y) + (k % b ^ j) • y = b ^ (j + 1) • x + (k % b ^ (j + 1)) • y := by
  rw [nsmul_add, ← mul_nsmul', ← mul_nsmul', ← pow_succ, add_assoc, ← add_nsmul, Nat.mod_pow_succ,
    Nat.add_comm (k % b ^ j)]

/-! The laws of multiples (R26). -/

@[simp] theorem pointMul_zero (cv : Curve) (q : Point) : pointMul cv 0 q = .inf := rfl

@[simp] theorem pointMul_one (cv : Curve) (q : Point) : pointMul cv 1 q = q := rfl

@[simp] theorem pointMul_inf (cv : Curve) (k : Nat) : pointMul cv k .inf = .inf := by
  induction k with
  | zero => rfl
  | succ k ih => rw [pointMul, ih, pointAdd_inf_right]

section Multipliers

variable [Fact cv.p.Prime]

theorem pointMul_add (h : cv.Elliptic) (hq : pointOnCurve cv q) (j k : Nat) :
    pointMul cv (j + k) q = pointAdd cv (pointMul cv j q) (pointMul cv k q) := by
  obtain ⟨q', hq'⟩ := Stands.of_onCurve h hq
  have hsum := (hq'.mul h j).add h (hq'.mul h k)
  rw [← add_nsmul] at hsum
  exact (hq'.mul h (j + k)).injective hsum

/-- Multiples of a point that n brings to O depend on the factor modulo n only. -/
theorem pointMul_mod (h : cv.Elliptic) (hq : pointOnCurve cv q) {n : Nat} (hn : pointMul cv n q = .inf) (k : Nat) :
    pointMul cv (k % n) q = pointMul cv k q := by
  obtain ⟨q', hq'⟩ := Stands.of_onCurve h hq
  have hzero : n • q' = 0 := (hq'.mul h n).unique (hn ▸ .zero)
  have hmul := hq'.mul h k
  rw [nsmul_eq_mod_nsmul k hzero] at hmul
  exact (hq'.mul h (k % n)).injective hmul

/-! The windowed multiplier (R182). -/

/-- Entry i of a table of multiples is i additions of the point to the first entry. -/
theorem Stands.multiplesFrom_getD (h : cv.Elliptic) (hq : Stands cv q q') (ht : Stands cv t t') {n i : Nat}
    (hi : i < n) : Stands cv ((multiplesFrom cv q n t).getD i .inf) (t' + i • q') := by
  induction n generalizing t t' i with
  | zero => omega
  | succ n ih =>
    cases i with
    | zero => rw [zero_nsmul, add_zero]; exact ht
    | succ i =>
      rw [succ_nsmul', ← add_assoc]
      exact ih (ht.add h hq) (by omega)

theorem Stands.smulTable_getD (h : cv.Elliptic) (hq : Stands cv q q') {i : Nat} (hi : i < 2 ^ Config.smulW) :
    Stands cv ((smulTable cv q).getD i .inf) (i • q') := by
  have hentry := hq.multiplesFrom_getD h .zero hi
  rwa [zero_add] at hentry

theorem Stands.smulWindows (h : cv.Elliptic) (hq : Stands cv q q') (hacc : Stands cv acc acc') (k j : Nat) :
    Stands cv (smulWindows cv (smulTable cv q) k j acc)
      ((2 ^ Config.smulW) ^ j • acc' + (k % (2 ^ Config.smulW) ^ j) • q') := by
  induction j generalizing acc acc' with
  | zero => rw [pow_zero, one_nsmul, Nat.mod_one, zero_nsmul, add_zero]; exact hacc
  | succ j ih =>
    have hdigit : Stands cv ((smulTable cv q).getD
        (bitSlice k (Config.smulW * j + Config.smulW - 1) (Config.smulW * j)) .inf)
        ((k / (2 ^ Config.smulW) ^ j % 2 ^ Config.smulW) • q') := by
      rw [bitSlice_window k j (by decide)]
      exact hq.smulTable_getD h (Nat.mod_lt _ (by decide))
    have hrest := ih ((hacc.dblTimes h Config.smulW).add h hdigit)
    rw [horner_nsmul] at hrest
    exact hrest

/-- The 64 windows scan bits 255 to 0. -/
theorem scalarMul_eq_pointMul (h : cv.Elliptic) (hq : pointOnCurve cv q) (k : Nat) :
    scalarMul cv k q = pointMul cv (k % 2 ^ 256) q := by
  obtain ⟨q', hq'⟩ := Stands.of_onCurve h hq
  have hsum := hq'.smulWindows h .zero k 64
  rw [nsmul_zero, zero_add, ← pow_mul] at hsum
  exact hsum.injective (hq'.mul h _)

theorem scalarMul_of_lt (h : cv.Elliptic) (hq : pointOnCurve cv q) (hk : k < 2 ^ 256) :
    scalarMul cv k q = pointMul cv k q := by
  rw [scalarMul_eq_pointMul h hq, Nat.mod_eq_of_lt hk]

/-! The bitwise multiplier (R183). -/

/-- One turn of the loop doubles the accumulator and adds the point as often as the bit says, once or not at all. -/
theorem Stands.doubleAndAdd_turn (h : cv.Elliptic) (hq : Stands cv q q') (hacc : Stands cv acc acc') (k i : Nat) :
    Stands cv (if bitSlice k i i = 1 then pointAdd cv (pointDbl cv acc) q else pointDbl cv acc)
      (2 • acc' + (k / 2 ^ i % 2) • q') := by
  have hdbl : Stands cv (pointDbl cv acc) (2 • acc') := by rw [two_nsmul]; exact hacc.add h hacc
  have hbit : bitSlice k i i = k / 2 ^ i % 2 := by simp [bitSlice]
  rw [hbit]
  rcases Nat.mod_two_eq_zero_or_one (k / 2 ^ i) with h0 | h1
  · rw [h0, if_neg (by decide), zero_nsmul, add_zero]
    exact hdbl
  · rw [h1, if_pos rfl, one_nsmul]
    exact hdbl.add h hq

theorem Stands.doubleAndAdd (h : cv.Elliptic) (hq : Stands cv q q') (hacc : Stands cv acc acc') (k i : Nat) :
    Stands cv (doubleAndAdd cv k q i acc) (2 ^ i • acc' + (k % 2 ^ i) • q') := by
  induction i generalizing acc acc' with
  | zero => rw [pow_zero, one_nsmul, Nat.mod_one, zero_nsmul, add_zero]; exact hacc
  | succ i ih =>
    have hrest := ih (hq.doubleAndAdd_turn h hacc k i)
    rw [horner_nsmul] at hrest
    exact hrest

theorem doubleAndAdd_eq_pointMul (h : cv.Elliptic) (hq : pointOnCurve cv q) (k i : Nat) :
    doubleAndAdd cv k q i .inf = pointMul cv (k % 2 ^ i) q := by
  obtain ⟨q', hq'⟩ := Stands.of_onCurve h hq
  have hsum := hq'.doubleAndAdd h .zero k i
  rw [nsmul_zero, zero_add] at hsum
  exact hsum.injective (hq'.mul h _)

end Multipliers

/-! The command. -/

/-- Behind its checks, SCALAR_MUL of a record that reads as a point, by a scalar that OPRAM holds, goes INFLIGHT with
the record of the windowed multiple. -/
theorem exec_scalarMul_of_readAffine {s : State} {d a b : Nat} {rec scalar : List Byte}
    (hpass : AllPass (commandChecks s.cfg s.cfg.opramBytes (.scalarMul d a b))) (hlen : rec.length = 128)
    (hrec : s.Holds a rec) (hq : readAffine s.cfg.curve 0 rec = .ok q) (hlen' : scalar.length = 32)
    (hscalar : s.Holds b scalar) :
    exec (.scalarMul d a b) s =
      .next (s.scrambleScratch.launch d (affBytes (scalarMul s.cfg.curve (scan scalar) q))) := by
  have hinputs : s.InputsWritten (scalarMulOperands d a b) := by
    simp [State.InputsWritten, Operands.inputs, scalarMulOperands, s.regionWritten_of_holds a 128 rec hlen hrec,
      s.regionWritten_of_holds b 32 scalar hlen' hscalar]
  have hreadRec (n : Nat) : s.scrambleScratch.readRegion n ⟨a, 128⟩ = rec :=
    s.scrambleScratch.readRegion_of_holds n a 128 rec hlen hrec
  have hreadScalar (n : Nat) : s.scrambleScratch.readRegion n ⟨b, 32⟩ = scalar :=
    s.scrambleScratch.readRegion_of_holds n b 32 scalar hlen' hscalar
  have hout : scalarMulBytes s.cfg.curve rec scalar = .ok (affBytes (scalarMul s.cfg.curve (scan scalar) q)) := by
    rw [scalarMulBytes, hq]; rfl
  refine congrArg _ (s.scrambleScratch.runCommand_launch (scalarMulOperands d a b) id (scalarMulBytes s.cfg.curve) _
    (operandError_of_allPass rfl hpass) hinputs ?_)
  rw [scalarMulOperands, Option.getD_some, hreadRec, hreadScalar, hout]

/-- Settles O29: `exec_scalarMul_of_readAffine` on the 32 bytes of the scalar. -/
theorem scalarMulComputesItsRecord : Obligations.ScalarMulComputesItsRecord := by
  intro s d a b k q buf hpass hlen hrec hq hk hscalar
  have hexec := exec_scalarMul_of_readAffine hpass hlen hrec hq (length_leBytes 32 k) hscalar
  rw [scan_leBytes hk] at hexec
  exact hexec

/-- Settles O30: the scanned value has 255 bits, so the 64 windows leave none of it out. -/
theorem windowedMultiplierIsTheMultiple : Obligations.WindowedMultiplierIsTheMultiple := by
  intro cv q bs h hq hlen
  have : Fact cv.p.Prime := ⟨h.prime⟩
  have hlt : leInt bs % 2 ^ 255 < 2 ^ 256 := (Nat.mod_lt _ (by decide)).trans (by decide)
  rw [scan_eq hlen, scalarMul_of_lt h hq hlt]

/-- Settles O31: both multipliers are the repeated addition by the bits they scan. -/
theorem bitwiseMultiplierAgrees : Obligations.BitwiseMultiplierAgrees := by
  intro cv q k h hq hk
  have : Fact cv.p.Prime := ⟨h.prime⟩
  rw [doubleAndAdd_eq_pointMul h hq, Nat.mod_eq_of_lt hk, scalarMul_of_lt h hq (hk.trans (by decide))]

/-- Settles O32: the laws of multiples, for the scalars that the 64 windows hold. -/
theorem scalarMulCornerCases : Obligations.ScalarMulCornerCases := by
  intro cv q j k h hq
  have : Fact cv.p.Prime := ⟨h.prime⟩
  have hmul {n : Nat} (hn : n ≤ 2 ^ 255) : scalarMul cv n q = pointMul cv n q :=
    scalarMul_of_lt h hq (hn.trans_lt (by decide))
  refine ⟨?zero, ?one, ?inf, ?add, fun hpos hr hq0 => ⟨?order, ?orderSucc, ?addMod⟩⟩
  case zero => rw [hmul (Nat.zero_le _), pointMul_zero]
  case one => rw [hmul Nat.one_le_two_pow, pointMul_one]
  case inf => rw [scalarMul_eq_pointMul h trivial, pointMul_inf]
  case add =>
    intro hjk
    rw [hmul (by omega), hmul (by omega), hmul hjk.le, pointMul_add h hq]
  case order => rw [hmul hr.le, hq0]
  case orderSucc => rw [hmul hr, pointMul, hq0, pointAdd_inf_left]
  case addMod =>
    intro hj hk
    have hlt : (j + k) % cv.r < 2 ^ 255 := (Nat.mod_lt _ hpos).trans hr
    rw [hmul hj.le, hmul hk.le, hmul hlt.le, pointMul_mod h hq hq0, pointMul_add h hq]

end Sys2Proof.Machine
end

section
/-! BATCH_NORMALIZE: the Jacobian array field by field, the shared inversion and the inverses it hands back, the command
itself (20_memory.md R93, 43_batch_normalize.md R190 to R194). -/

namespace Sys2Proof.Machine

/-! The shared inversion (R191, R192). -/

theorem fpMul_comm (p a b : Nat) : fpMul p a b = fpMul p b a := by rw [fpMul, fpMul, Nat.mul_comm]

section Inversion

variable {p : Nat} [Fact p.Prime]

theorem fpInv_fpMul (h2 : 2 < p) (a b : Nat) : fpInv p (fpMul p a b) = fpMul p (fpInv p a) (fpInv p b) := by
  have hp : 0 < p := by omega
  rw [← cast_inj_of_lt (fpInv_lt _ hp) (fpMul_lt _ _ hp)]
  simp [cast_fpInv _ h2, mul_comm]

/-- Times a factor, the inverse of a product is the inverse of the other factor. -/
theorem fpMul_fpInv_fpMul_left (h2 : 2 < p) {a : Nat} (b : Nat) (ha : (a : ZMod p) ≠ 0) :
    fpMul p (fpInv p (fpMul p a b)) a = fpInv p b := by
  have hp : 0 < p := by omega
  rw [← cast_inj_of_lt (fpMul_lt _ _ hp) (fpInv_lt _ hp)]
  simp only [cast_fpMul, cast_fpInv _ h2]
  rw [mul_inv_rev, inv_mul_cancel_right₀ ha]

theorem fpMul_fpInv_fpMul_right (h2 : 2 < p) (a : Nat) {b : Nat} (hb : (b : ZMod p) ≠ 0) :
    fpMul p (fpInv p (fpMul p a b)) b = fpInv p a := by
  rw [fpMul_comm p a b, fpMul_fpInv_fpMul_left h2 a hb]

/-- The way up answers the inverse of each factor, and the inverse of the running product the list began with. -/
theorem shareInversion_eq (h2 : 2 < p) {acc : Nat} {zs : List Nat} (hacc : (acc : ZMod p) ≠ 0)
    (hzs : ∀ z ∈ zs, (z : ZMod p) ≠ 0) : shareInversion p acc zs = (zs.map (fpInv p), fpInv p acc) := by
  induction zs generalizing acc with
  | nil => rfl
  | cons z zs ih =>
    obtain ⟨hz, hzs⟩ := List.forall_mem_cons.1 hzs
    have hprod : (fpMul p acc z : ZMod p) ≠ 0 := by rw [cast_fpMul]; exact mul_ne_zero hacc hz
    rw [shareInversion, ih hprod hzs, fpMul_fpInv_fpMul_left h2 z hacc, fpMul_fpInv_fpMul_right h2 acc hz,
      List.map_cons]

theorem batchInverses_eq (h2 : 2 < p) {zs : List Nat} (hzs : ∀ z ∈ zs, (z : ZMod p) ≠ 0) :
    batchInverses p zs = zs.map (fpInv p) := by
  cases zs with
  | nil => rfl
  | cons z zs =>
    obtain ⟨hz, hzs⟩ := List.forall_mem_cons.1 hzs
    rw [batchInverses, shareInversion_eq h2 hz hzs, List.map_cons]

/-- With the inverse of its own Z a record gets its own affine form: inverting commutes with z^2 and z^3. -/
theorem affineFromInverse_fpInv {cv : Curve} [Fact cv.p.Prime] (h2 : 2 < cv.p) {j : Jacobian} (hz : j.z ≠ 0) :
    affineFromInverse cv.p j (fpInv cv.p j.z) = toAffine cv j.x j.y j.z := by
  have hsqr : fpInv cv.p (fpSqr cv.p j.z) = fpSqr cv.p (fpInv cv.p j.z) := fpInv_fpMul h2 j.z j.z
  rw [toAffine, if_neg hz, fpInv_fpMul h2, hsqr, affineFromInverse]

/-- The inverses of the nonzero Z in order reach the records they belong to. -/
theorem placeInverses_fpInv {cv : Curve} [Fact cv.p.Prime] (h2 : 2 < cv.p) (js : List Jacobian) :
    placeInverses cv.p js (((js.map (·.z)).filter (fun z => z != 0)).map (fpInv cv.p)) =
      js.map (fun j => toAffine cv j.x j.y j.z) := by
  induction js with
  | nil => rfl
  | cons j js ih =>
    by_cases hz : j.z = 0
    · simp [placeInverses, hz, ih, toAffine]
    · simp [placeInverses, hz, ih, affineFromInverse_fpInv h2 hz]

end Inversion

/-- Settles O35: the inverses by `batchInverses_eq`, since a nonzero Z below p is a unit; their places by
`placeInverses_fpInv`. -/
theorem sharedInversionNormalizesEachRecord : Obligations.SharedInversionNormalizesEachRecord := by
  intro cv js hprime h2 hlt
  have : Fact cv.p.Prime := ⟨hprime⟩
  have hunits : ∀ z ∈ (js.map (fun j => j.z)).filter (fun z : Nat => z != 0), (z : ZMod cv.p) ≠ 0 := by
    intro z hz
    obtain ⟨hmem, hne⟩ := List.mem_filter.1 hz
    obtain ⟨j, hj, rfl⟩ := List.mem_map.1 hmem
    rw [Ne, cast_eq_zero_of_lt (hlt j hj)]
    simpa using hne
  rw [sharedInversion, batchInverses_eq h2 hunits, placeInverses_fpInv h2]

/-! The Jacobian record (20_memory.md R93). -/

section Record

variable {j : Jacobian}

@[simp] theorem length_jacobianBytes (j : Jacobian) : (jacobianBytes j).length = 144 := by simp [jacobianBytes]

theorem jacobianCoord_x (hx : j.x < 2 ^ 384) : jacobianCoord (jacobianBytes j) 0 = j.x := by
  have hfield : byteSlice (jacobianBytes j) (48 * 0) 48 = beBytes 48 j.x := by
    rw [jacobianBytes, List.append_assoc, byteSlice_append_left _ _ _ (length_beBytes 48 j.x)]
  rw [jacobianCoord, hfield, beInt_beBytes_of_lt 48 j.x (hx.trans_eq two_pow_384)]

theorem jacobianCoord_y (hy : j.y < 2 ^ 384) : jacobianCoord (jacobianBytes j) 1 = j.y := by
  have hfield : byteSlice (jacobianBytes j) (48 * 1) 48 = beBytes 48 j.y := by
    rw [jacobianBytes, List.append_assoc, byteSlice_append_right _ _ _ _ (by simp), length_beBytes]
    exact byteSlice_append_left _ _ _ (length_beBytes 48 j.y)
  rw [jacobianCoord, hfield, beInt_beBytes_of_lt 48 j.y (hy.trans_eq two_pow_384)]

theorem jacobianCoord_z (hz : j.z < 2 ^ 384) : jacobianCoord (jacobianBytes j) 2 = j.z := by
  have hfield : byteSlice (jacobianBytes j) (48 * 2) 48 = beBytes 48 j.z := by
    rw [jacobianBytes, byteSlice_append_right _ _ _ _ (by simp), List.length_append, length_beBytes, length_beBytes]
    exact byteSlice_self _ _ (length_beBytes 48 j.z)
  rw [jacobianCoord, hfield, beInt_beBytes_of_lt 48 j.z (hz.trans_eq two_pow_384)]

/-- A record reads as its triple exactly when that is canonical. -/
theorem readJacobian_jacobianBytes (p i : Nat) (hj : j.x < 2 ^ 384 ∧ j.y < 2 ^ 384 ∧ j.z < 2 ^ 384) :
    readJacobian p i (jacobianBytes j) =
      if j.x < p ∧ j.y < p ∧ j.z < p then .ok j else .error ⟨.notCanonical, i⟩ := by
  obtain ⟨hx, hy, hz⟩ := hj
  rw [readJacobian, jacobianCoord_x hx, jacobianCoord_y hy, jacobianCoord_z hz]

end Record

/-! The Jacobian array (R190). -/

/-- An array whose records all read as the elements of a list reads as that list. -/
theorem readElements_of_ok {α : Type} {recs : List (List Byte)} {size : Nat} {xs : List α}
    {read : Nat → List Byte → Except Error α} (hsize : ∀ rec ∈ recs, rec.length = size)
    (hlen : xs.length = recs.length)
    (hread : ∀ i (hi : i < recs.length) (hx : i < xs.length), read i recs[i] = .ok xs[i]) :
    readElements recs.length size recs.flatten read = .ok xs := by
  refine (collect_eq_ok_iff _ _).2 (List.ext_getElem (by simp [hlen]) fun i hi hx => ?_)
  have hi' : i < recs.length := by simpa using hi
  simpa [element_flatten hsize hi'] using hread i hi' (hi'.trans_eq hlen.symm)

section Array

variable {p k : Nat} {js : List Jacobian}

theorem length_of_mem_jacobianRecords (js : List Jacobian) : ∀ rec ∈ js.map jacobianBytes, rec.length = 144 := by
  simp

theorem length_jacobianArray (js : List Jacobian) : (js.map jacobianBytes).flatten.length = 144 * js.length := by
  rw [length_flatten_of_forall (length_of_mem_jacobianRecords js), List.length_map]

theorem readJacobians_of_canonical (hp : p < 2 ^ 384) (hjs : ∀ j ∈ js, j.x < p ∧ j.y < p ∧ j.z < p) :
    readJacobians p js.length (js.map jacobianBytes).flatten = .ok js := by
  have hread : readElements (js.map jacobianBytes).length 144 (js.map jacobianBytes).flatten (readJacobian p) =
      .ok js := by
    refine readElements_of_ok (length_of_mem_jacobianRecords js) (by simp) fun i _ hi => ?_
    obtain ⟨hx, hy, hz⟩ := hjs js[i] (List.getElem_mem hi)
    rw [List.getElem_map, readJacobian_jacobianBytes p i ⟨hx.trans hp, hy.trans hp, hz.trans hp⟩,
      if_pos ⟨hx, hy, hz⟩]
  rwa [List.length_map] at hread

theorem readJacobians_of_first_noncanonical (hk : k < js.length)
    (hfits : ∀ j ∈ js, j.x < 2 ^ 384 ∧ j.y < 2 ^ 384 ∧ j.z < 2 ^ 384)
    (hbefore : ∀ l (_ : l < k), js[l].x < p ∧ js[l].y < p ∧ js[l].z < p)
    (hbad : ¬ (js[k].x < p ∧ js[k].y < p ∧ js[k].z < p)) :
    readJacobians p js.length (js.map jacobianBytes).flatten = .error ⟨.notCanonical, k⟩ := by
  have hread (l : Nat) (hl : l < js.length) : readJacobian p l (jacobianBytes js[l]) =
      if js[l].x < p ∧ js[l].y < p ∧ js[l].z < p then .ok js[l] else .error ⟨.notCanonical, l⟩ :=
    readJacobian_jacobianBytes p l (hfits js[l] (List.getElem_mem hl))
  have herror : readElements (js.map jacobianBytes).length 144 (js.map jacobianBytes).flatten (readJacobian p) =
      .error ⟨.notCanonical, k⟩ := by
    refine readElements_of_first_error (length_of_mem_jacobianRecords js) (fun l hlk _ => ?_) (by simpa using hk) ?_
    · exact ⟨js[l], by rw [List.getElem_map, hread l (hlk.trans hk), if_pos (hbefore l hlk)]⟩
    · rw [List.getElem_map, hread k hk, if_neg hbad]
  rwa [List.length_map] at herror

end Array

/-! The command. -/

/-- Settles O33: the command launches `batchBytes`, the records of the shared inversion. -/
theorem batchNormalizeComputesItsArray : Obligations.BatchNormalizeComputesItsArray := by
  intro s d a js hpass hp harray hjs
  have hlen := length_jacobianArray js
  have hout : batchBytes s.cfg.curve js.length (js.map jacobianBytes).flatten =
      .ok ((sharedInversion s.cfg.curve.p js).map affBytes).flatten := by
    rw [batchBytes, readJacobians_of_canonical hp hjs]; rfl
  exact exec_launch_of_holds rfl rfl hpass (State.inputsWritten_of_holds rfl hlen harray) hlen harray fun _ => hout

/-- Settles O34: the command raises the error of its first record that is not canonical. -/
theorem batchNormalizeRejectsLowestIndex : Obligations.BatchNormalizeRejectsLowestIndex := by
  intro s d a k js hk hpass harray hfits hbefore hbad
  have hlen := length_jacobianArray js
  have hout : batchBytes s.cfg.curve js.length (js.map jacobianBytes).flatten = .error ⟨.notCanonical, k⟩ := by
    rw [batchBytes, readJacobians_of_first_noncanonical hk hfits hbefore (by omega)]; rfl
  exact exec_reject_of_holds rfl rfl hpass (State.inputsWritten_of_holds rfl hlen harray) hlen harray fun _ => hout

end Sys2Proof.Machine
end

section
/-! MSM's window width and digits: the effective window case by case, the digits as those to base 2^w
(00_scope.md R12, 44_msm.md R203, R204). -/

namespace Sys2Proof.Machine

/-! The effective window (R203) and W_AUTO (R12), case by case. -/

theorem wAuto_of_lt (wmax : Nat) {n : Nat} (h : n < 16) : wAuto wmax n = 1 := if_pos h

theorem wAuto_of_log2 (wmax : Nat) {n l : Nat} (hl : 4 ≤ l) (hlo : 2 ^ l ≤ n) (hhi : n < 2 ^ (l + 1)) :
    wAuto wmax n = min wmax (l - 2) := by
  have hlarge : 2 ^ 4 ≤ n := (Nat.pow_le_pow_right (by decide) hl).trans hlo
  have hlog : n.log2 = l := (Nat.log2_eq_iff (by omega)).2 ⟨hlo, hhi⟩
  rw [wAuto, if_neg (by omega), hlog]

theorem wAuto_pos {wmax : Nat} (hpos : 1 ≤ wmax) (n : Nat) : 1 ≤ wAuto wmax n := by
  by_cases h : n < 16
  · exact (wAuto_of_lt wmax h).ge
  · have hn : n ≠ 0 := by omega
    have hlog : 4 ≤ n.log2 := (Nat.le_log2 hn).2 (by omega)
    rw [wAuto, if_neg h]
    omega

theorem effectiveWindow_of_win (wmax cfg n : Nat) {win : Nat} (h : win ≠ 0) : effectiveWindow wmax win cfg n = win :=
  if_pos h

theorem effectiveWindow_of_cfg (wmax n : Nat) {cfg : Nat} (h : cfg ≠ 0) : effectiveWindow wmax 0 cfg n = cfg :=
  if_pos h

theorem effectiveWindow_auto (wmax n : Nat) : effectiveWindow wmax 0 0 n = wAuto wmax n := rfl

theorem effectiveWindow_pos {wmax : Nat} (hpos : 1 ≤ wmax) (win cfg n : Nat) : 1 ≤ effectiveWindow wmax win cfg n := by
  obtain rfl | hwin := Nat.eq_zero_or_pos win
  · obtain rfl | hcfg := Nat.eq_zero_or_pos cfg
    · exact wAuto_pos hpos n
    · rwa [effectiveWindow_of_cfg wmax n hcfg.ne']
  · rwa [effectiveWindow_of_win wmax cfg n hwin.ne']

/-- Settles O39: the range by `effectiveWindow_pos` and `effectiveWindow_le`, then the cases. -/
theorem effectiveWindowIsInRange : Obligations.EffectiveWindowIsInRange := by
  intro s n win ⟨_, _, hpos, _⟩ ⟨hwindow, _⟩ hwin
  have hzero (h : s.window = 0) : s.window.toNat = 0 := by rw [h]; rfl
  have hauto (h0 : win = 0) (hw : s.window = 0) : s.msmWindow n win = wAuto s.cfg.wmax n := by
    rw [State.msmWindow, h0, hzero hw, effectiveWindow_auto]
  refine ⟨effectiveWindow_pos hpos win _ n, effectiveWindow_le n hpos hwin hwindow, effectiveWindow_of_win _ _ n,
    ?cfg, fun h0 hw hn => ?small, fun h0 hw l hl hlo hhi => ?large⟩
  case cfg =>
    rintro rfl hw
    exact effectiveWindow_of_cfg _ n fun h => hw (BitVec.eq_of_toNat_eq h)
  case small => rw [hauto h0 hw, wAuto_of_lt _ hn]
  case large => rw [hauto h0 hw, wAuto_of_log2 _ hl hlo hhi]

/-! The digits of a scan value (R204). -/

theorem digitPositions_mul_ge {w : Nat} (hw : 1 ≤ w) : 255 ≤ digitPositions w * w := by
  have hround : 255 + w - 1 < (255 + w - 1) / w * w + w := Nat.lt_div_mul_add hw
  rw [digitPositions]
  omega

theorem lt_of_digitPositions {w : Nat} (hw : 1 ≤ w) : (digitPositions w - 1) * w < 255 := by
  have hround : (255 + w - 1) / w * w ≤ 255 + w - 1 := Nat.div_mul_le_self _ _
  rw [digitPositions, Nat.sub_one_mul]
  omega

theorem digit_lt (k w j : Nat) : digit k w j < 2 ^ w := Nat.mod_lt _ (Nat.two_pow_pos w)

/-- Digit j to base 2^w. -/
theorem digit_eq (k w j : Nat) : digit k w j = k / (2 ^ w) ^ j % 2 ^ w := by rw [digit, ← pow_mul, Nat.mul_comm j w]

/-- What is left of a value at and above position j is its digit there and 2^w times what is left above it. -/
theorem div_two_pow_eq_digit (k w j : Nat) :
    k / 2 ^ (j * w) = 2 ^ w * (k / 2 ^ ((j + 1) * w)) + digit k w j := by
  rw [Nat.succ_mul, pow_add, ← Nat.div_div_eq_div_mul, digit, Nat.div_add_mod]

/-- A digit has no bit beyond the top of the value. -/
theorem digit_lt_of_lt {k n : Nat} (hk : k < 2 ^ n) {w j : Nat} (hj : j * w ≤ n) : digit k w j < 2 ^ (n - j * w) := by
  refine (Nat.mod_le _ _).trans_lt (Nat.div_lt_of_lt_mul ?_)
  rwa [← pow_add, Nat.add_sub_cancel' hj]

/-- The n lowest digits recompose the value modulo 2^(n w). -/
theorem sum_digits (k w n : Nat) :
    ((List.range n).map (fun j => digit k w j * 2 ^ (j * w))).sum = k % 2 ^ (n * w) := by
  induction n with
  | zero => simp [Nat.mod_one]
  | succ n ih =>
    rw [List.sum_range_succ, ih, Nat.mul_comm n w, Nat.mul_comm n.succ w, pow_mul, pow_mul, Nat.mod_pow_succ,
      digit_eq, Nat.mul_comm (k / (2 ^ w) ^ n % 2 ^ w)]

theorem lt_two_pow_digitPositions {k w : Nat} (hw : 1 ≤ w) (hk : k < 2 ^ 255) : k < 2 ^ (digitPositions w * w) :=
  hk.trans_le (Nat.pow_le_pow_right (by decide) (digitPositions_mul_ge hw))

/-- Settles O40: `sum_digits` over positions that cover all 255 bits. -/
theorem digitsRecomposeTheScalar : Obligations.DigitsRecomposeTheScalar := by
  intro k w hw hk
  have htop := lt_of_digitPositions hw
  refine ⟨digitPositions_mul_ge hw, htop, fun j => ⟨?_, digit_lt k w j⟩, digit_lt_of_lt hk htop.le, ?_⟩
  · rw [digit, Nat.shiftRight_eq_div_pow]
  · rw [sum_digits, Nat.mod_eq_of_lt (lt_two_pow_digitPositions hw hk)]

end Sys2Proof.Machine
end

section
/-! MSM: the bucket sum of a digit position, the loop over the positions by what it has scanned so far, the command
itself (44_msm.md R200 to R208). -/

namespace Sys2Proof.Machine

variable {cv : Curve} {q : Point} {items : List (Point × Nat)} {buckets : List Point}

/-- The sum of the multiples u(k_i) * P_i: `msmSum` (R202) of a part u of each number. -/
def msmSumOf (cv : Curve) (u : Nat → Nat) (items : List (Point × Nat)) : Point :=
  msmSum cv (items.map (fun x => (x.1, u x.2)))

@[simp] theorem msmSumOf_nil (cv : Curve) (u : Nat → Nat) : msmSumOf cv u [] = .inf := rfl

theorem msmSumOf_cons (cv : Curve) (u : Nat → Nat) (x : Point × Nat) (items : List (Point × Nat)) :
    msmSumOf cv u (x :: items) = pointAdd cv (pointMul cv (u x.2) x.1) (msmSumOf cv u items) := rfl

theorem msmSumOf_id (cv : Curve) (items : List (Point × Nat)) : msmSumOf cv (fun k => k) items = msmSum cv items := by
  simp [msmSumOf]

theorem msmSumOf_of_zero {u : Nat → Nat} (hu : ∀ x ∈ items, u x.2 = 0) : msmSumOf cv u items = .inf := by
  induction items with
  | nil => rfl
  | cons x items ih =>
    obtain ⟨hx, hitems⟩ := List.forall_mem_cons.1 hu
    rw [msmSumOf_cons, hx, pointMul_zero, pointAdd_inf_left, ih hitems]

section Buckets

variable [Fact cv.p.Prime]

theorem pointMul_onCurve (h : cv.Elliptic) (hq : pointOnCurve cv q) (k : Nat) : pointOnCurve cv (pointMul cv k q) := by
  obtain ⟨_, hq'⟩ := Stands.of_onCurve h hq
  exact (hq'.mul h k).onCurve h

theorem msmSumOf_onCurve (h : cv.Elliptic) (u : Nat → Nat) (hitems : ∀ x ∈ items, pointOnCurve cv x.1) :
    pointOnCurve cv (msmSumOf cv u items) := by
  induction items with
  | nil => trivial
  | cons x items ih =>
    obtain ⟨hx, hitems⟩ := List.forall_mem_cons.1 hitems
    exact pointAdd_onCurve h (pointMul_onCurve h hx _) (ih hitems)

/-! One digit position: the buckets and their weighted suffix sum (R205). -/

theorem suffixSum_onCurve (h : cv.Elliptic) (hb : ∀ b ∈ buckets, pointOnCurve cv b) :
    pointOnCurve cv (suffixSum cv buckets).1 ∧ pointOnCurve cv (suffixSum cv buckets).2 := by
  induction buckets with
  | nil => exact ⟨trivial, trivial⟩
  | cons b buckets ih =>
    obtain ⟨hb, hbuckets⟩ := List.forall_mem_cons.1 hb
    obtain ⟨hrun, hwsum⟩ := ih hbuckets
    have hrun' := pointAdd_onCurve h hrun hb
    exact ⟨hrun', pointAdd_onCurve h hwsum hrun'⟩

theorem suffixSum_empty (cv : Curve) (n : Nat) : suffixSum cv (List.replicate n .inf) = (.inf, .inf) := by
  induction n with
  | zero => rfl
  | succ n ih => rw [List.replicate_succ, suffixSum, ih]; rfl

/-- Buckets stay on the curve when a point of it is added into one. -/
theorem modify_onCurve (h : cv.Elliptic) (hq : pointOnCurve cv q) (hb : ∀ b ∈ buckets, pointOnCurve cv b) (d : Nat) :
    ∀ b ∈ buckets.modify d (fun t => pointAdd cv t q), pointOnCurve cv b := by
  induction buckets generalizing d with
  | nil => simp
  | cons b buckets ih =>
    obtain ⟨hb, hbuckets⟩ := List.forall_mem_cons.1 hb
    cases d with
    | zero => exact List.forall_mem_cons.2 ⟨pointAdd_onCurve h hb hq, hbuckets⟩
    | succ d => exact List.forall_mem_cons.2 ⟨hb, ih hbuckets d⟩

/-- A point in bucket d + 1 counts once in RUN and d + 1 times in WSUM. -/
theorem suffixSum_modify (h : cv.Elliptic) (hq : pointOnCurve cv q) (hb : ∀ b ∈ buckets, pointOnCurve cv b) {d : Nat}
    (hd : d < buckets.length) :
    suffixSum cv (buckets.modify d (fun t => pointAdd cv t q)) =
      (pointAdd cv (suffixSum cv buckets).1 q, pointAdd cv (suffixSum cv buckets).2 (pointMul cv (d + 1) q)) := by
  induction buckets generalizing d with
  | nil => cases hd
  | cons b buckets ih =>
    obtain ⟨hb, hbuckets⟩ := List.forall_mem_cons.1 hb
    obtain ⟨hrun, hwsum⟩ := suffixSum_onCurve h hbuckets
    obtain ⟨q', hq'⟩ := Stands.of_onCurve h hq
    obtain ⟨b', hb'⟩ := Stands.of_onCurve h hb
    obtain ⟨run', hrun'⟩ := Stands.of_onCurve h hrun
    obtain ⟨wsum', hwsum'⟩ := Stands.of_onCurve h hwsum
    have hrunb' := hrun'.add h hb'
    have hmul' := hq'.mul h (d + 1)
    cases d with
    | zero =>
      rw [List.modify_zero_cons, suffixSum, suffixSum]
      have hrunbq' := hrun'.add h (hb'.add h hq')
      rw [← add_assoc] at hrunbq'
      refine Prod.ext (hrunbq'.injective (hrunb'.add h hq')) ?_
      have hsum' := hwsum'.add h hrunbq'
      rw [← add_assoc, ← one_nsmul q'] at hsum'
      exact hsum'.injective ((hwsum'.add h hrunb').add h hmul')
    | succ d =>
      rw [List.modify_succ_cons, suffixSum, suffixSum, ih hbuckets (Nat.lt_of_succ_lt_succ hd)]
      have hrunqb' := (hrun'.add h hq').add h hb'
      rw [add_right_comm] at hrunqb'
      refine Prod.ext (hrunqb'.injective (hrunb'.add h hq')) ?_
      have hsum' := (hwsum'.add h (hq'.mul h (d + 1))).add h hrunqb'
      rw [add_add_add_comm, ← succ_nsmul] at hsum'
      exact hsum'.injective ((hwsum'.add h hrunb').add h hmul')

/-- Accumulation adds each point to WSUM as often as its digit says, a zero digit not at all (R207). -/
theorem suffixSum_accumulate (h : cv.Elliptic) (w j : Nat) (hitems : ∀ x ∈ items, pointOnCurve cv x.1)
    (hb : ∀ b ∈ buckets, pointOnCurve cv b) (hlen : buckets.length = 2 ^ w - 1) :
    (suffixSum cv (accumulate cv w j items buckets)).2 =
      pointAdd cv (suffixSum cv buckets).2 (msmSumOf cv (fun k => digit k w j) items) := by
  induction items generalizing buckets with
  | nil => rw [accumulate, msmSumOf_nil, pointAdd_inf_right]
  | cons x items ih =>
    obtain ⟨q, k⟩ := x
    obtain ⟨hq, hitems⟩ := List.forall_mem_cons.1 hitems
    rw [accumulate, msmSumOf_cons]
    by_cases hzero : digit k w j = 0
    · rw [if_pos hzero, hzero, pointMul_zero, pointAdd_inf_left, ih hitems hb hlen]
    · have hd : digit k w j - 1 < buckets.length := by
        have := digit_lt k w j
        omega
      have hsucc : digit k w j - 1 + 1 = digit k w j := by omega
      rw [if_neg hzero, ih hitems (modify_onCurve h hq hb _) (by rw [List.length_modify, hlen]),
        suffixSum_modify h hq hb hd, hsucc]
      exact pointAdd_assoc h (suffixSum_onCurve h hb).2 (pointMul_onCurve h hq _) (msmSumOf_onCurve h _ hitems)

/-- WSUM of a position is the sum of its digits' multiples. -/
theorem positionSum_eq (h : cv.Elliptic) (w j : Nat) (hitems : ∀ x ∈ items, pointOnCurve cv x.1) :
    positionSum cv w j items = msmSumOf cv (fun k => digit k w j) items := by
  have hempty : ∀ b ∈ List.replicate (2 ^ w - 1) Point.inf, pointOnCurve cv b := by
    intro b hb
    rw [List.eq_of_mem_replicate hb]
    trivial
  rw [positionSum, suffixSum_accumulate h w j hitems hempty List.length_replicate, suffixSum_empty, pointAdd_inf_left]

/-! The loop over the positions (R205). -/

/-- w doublings of one sum of multiples, plus another, item by item. -/
theorem pointDblTimes_msmSumOf_add (h : cv.Elliptic) (w : Nat) (u v : Nat → Nat)
    (hitems : ∀ x ∈ items, pointOnCurve cv x.1) :
    pointAdd cv (pointDblTimes cv w (msmSumOf cv u items)) (msmSumOf cv v items) =
      msmSumOf cv (fun k => 2 ^ w * u k + v k) items := by
  induction items with
  | nil => exact ((Stands.zero.dblTimes h w).add h .zero).injective (by rw [nsmul_zero, add_zero]; exact .zero)
  | cons x items ih =>
    obtain ⟨q, k⟩ := x
    obtain ⟨hq, hitems⟩ := List.forall_mem_cons.1 hitems
    obtain ⟨q', hq'⟩ := Stands.of_onCurve h hq
    obtain ⟨s', hs'⟩ := Stands.of_onCurve h (msmSumOf_onCurve h u hitems)
    obtain ⟨t', ht'⟩ := Stands.of_onCurve h (msmSumOf_onCurve h v hitems)
    have hleft := (((hq'.mul h (u k)).add h hs').dblTimes h w).add h ((hq'.mul h (v k)).add h ht')
    rw [nsmul_add, add_add_add_comm, ← mul_nsmul', ← add_nsmul] at hleft
    rw [msmSumOf_cons, msmSumOf_cons, msmSumOf_cons, ← ih hitems]
    exact hleft.injective ((hq'.mul h _).add h ((hs'.dblTimes h w).add h ht'))

/-- The loop from position j down, on the sum of the multiples by what the numbers hold above it, completes the sum. -/
theorem bucketPositions_eq (h : cv.Elliptic) (w j : Nat) (hitems : ∀ x ∈ items, pointOnCurve cv x.1) :
    bucketPositions cv w items j (msmSumOf cv (fun k => k / 2 ^ (j * w)) items) = msmSum cv items := by
  induction j with
  | zero => simp [bucketPositions, msmSumOf_id]
  | succ j ih =>
    rw [bucketPositions, positionSum_eq h w j hitems, pointDblTimes_msmSumOf_add h w _ _ hitems]
    simp only [← div_two_pow_eq_digit]
    exact ih

end Buckets

/-- Settles O38: above the top position the numbers hold nothing, so the loop of `bucketPositions_eq` begins at O. -/
theorem bucketSumIsTheSumOfMultiples : Obligations.BucketSumIsTheSumOfMultiples := by
  intro cv w items h hw hitems
  have : Fact cv.p.Prime := ⟨h.prime⟩
  have hstart : msmSumOf cv (fun k => k / 2 ^ (digitPositions w * w)) items = .inf :=
    msmSumOf_of_zero fun x hx => Nat.div_eq_of_lt (lt_two_pow_digitPositions hw (hitems x hx).2)
  have hloop := bucketPositions_eq h w (digitPositions w) fun x hx => (hitems x hx).1
  rwa [hstart] at hloop

/-! The command. -/

theorem readScalars_leBytes {ks : List Nat} (hks : ∀ k ∈ ks, k < 2 ^ 256) :
    readScalars ks.length (ks.map (leBytes 32)).flatten = ks.map (fun k => k % 2 ^ 255) := by
  have hsize : ∀ rec ∈ ks.map (leBytes 32), rec.length = 32 := by simp
  refine List.ext_getElem (by simp [readScalars]) fun i hi hi' => ?_
  have hk : i < ks.length := by simpa using hi'
  simp [readScalars, element_flatten hsize (i := i) (by simpa using hk), scan_leBytes (hks _ (List.getElem_mem hk))]

/-- Behind its checks, MSM of points that read as `qs` and of scalars that OPRAM holds goes INFLIGHT with the record of
the bucket sum and writes MSM_LAST_W. -/
theorem exec_msm_of_readPoints {s : State} {d a b n win : Nat} {points scalars : List Byte} {qs : List Point}
    (hpass : AllPass (commandChecks s.cfg s.cfg.opramBytes (.msm d a b n n win))) (hlen : points.length = 128 * n)
    (hpoints : s.Holds a points) (hqs : readPoints s.cfg.curve n points = .ok qs) (hlen' : scalars.length = 32 * n)
    (hscalars : s.Holds b scalars) :
    exec (.msm d a b n n win) s =
      .next (({ s.scrambleScratch with lastW := BitVec.ofNat 4 (s.msmWindow n win) } : State).launch d
        (affBytes (bucketMsm s.cfg.curve (s.msmWindow n win) (qs.zip (readScalars n scalars))))) := by
  have hinputs : s.scrambleScratch.InputsWritten (msmOperands d a b n n) := by
    have hpointsWritten := s.scrambleScratch.regionWritten_of_holds a _ points hlen hpoints
    have hscalarsWritten := s.scrambleScratch.regionWritten_of_holds b _ scalars hlen' hscalars
    simp [State.InputsWritten, Operands.inputs, msmOperands, hpointsWritten, hscalarsWritten]
  have hreadPoints (k : Nat) : s.scrambleScratch.readRegion k ⟨a, 128 * n⟩ = points :=
    s.scrambleScratch.readRegion_of_holds k a _ points hlen hpoints
  have hreadScalars (k : Nat) : s.scrambleScratch.readRegion k ⟨b, 32 * n⟩ = scalars :=
    s.scrambleScratch.readRegion_of_holds k b _ scalars hlen' hscalars
  rw [exec_msm_of_msmError (msmError_of_allPass hpass)]
  refine congrArg _ (State.runCommand_launch _ _ _ _ _ (operandError_of_allPass rfl hpass) hinputs ?_)
  rw [msmOperands, Option.getD_some, hreadPoints, hreadScalars, msmBytes, hqs]
  rfl

/-- Settles O36: `exec_msm_of_readPoints`, the points by `readElements_of_ok`, the scalars by `readScalars_leBytes`. -/
theorem msmComputesItsRecord : Obligations.MsmComputesItsRecord := by
  intro s d a b win recs qs ks hrecs hks hpass hsize hpoints hread hscalars hlt
  have hqs : readPoints s.cfg.curve qs.length recs.flatten = .ok qs := by
    rw [← hrecs]
    exact readElements_of_ok hsize hrecs.symm hread
  have hlen : recs.flatten.length = 128 * qs.length := by rw [length_flatten_of_forall hsize, hrecs]
  have hlen' : (ks.map (leBytes 32)).flatten.length = 32 * qs.length := by
    rw [length_flatten_of_forall (size := 32) (by simp), List.length_map, hks]
  have hexec := exec_msm_of_readPoints hpass hlen hpoints hqs hlen' hscalars
  rw [← hks, readScalars_leBytes hlt, hks] at hexec
  exact hexec

end Sys2Proof.Machine
end

section
/-! The effect of an error as one update of the state (60_exceptions.md R222). -/

namespace Sys2Proof.Machine

/-- Settles O9: the model defines `State.raiseError` as this very update; the fields the update does not name, among
them pc, CMD_COUNT, MSM_LAST_W, MSM_WINDOW_CFG and OPRAM, keep their values. -/
theorem raiseErrorEffect : Obligations.RaiseErrorEffect :=
  fun _ _ => rfl

end Sys2Proof.Machine
end

section
/-! The two resets as turns: the reset input, and a CTRL write with SOFT_RESET, which aborts the command in flight
(70_reset_and_hazards.md R250 to R253, 10_state.md R47, R49). -/

namespace Sys2Proof.Machine

variable {s : State} {rest : List Turn} {v : Word} {off a : Nat}

/-! The bytes of an abort. -/

/-- A block write makes no written byte unwritten, and every byte of its block is written after it. -/
theorem Memory.isSome_read_writeBytes {m : Memory} {a x : Nat} {bs : List Byte}
    (h : (a ≤ x ∧ x < a + bs.length) ∨ (m.read x).isSome) : ((m.writeBytes a bs).read x).isSome := by
  rw [Memory.read_writeBytes]
  split
  case isTrue => rfl
  case isFalse houtside => exact h.resolve_left houtside

/-- Every byte of an output region is written after the write of the outputs, whatever the regions after it hold. -/
theorem Memory.isSome_read_writeOutputs {m : Memory} {os : List Output} {x : Nat}
    (h : (∃ o ∈ os, o.base ≤ x ∧ x < o.base + o.bytes.length) ∨ (m.read x).isSome) :
    ((m.writeOutputs os).read x).isSome := by
  induction os generalizing m with
  | nil => simpa using h
  | cons o os ih =>
    obtain ⟨o', ho', hx⟩ | hx := h
    · obtain rfl | hlater := List.mem_cons.1 ho'
      · exact ih (.inr (Memory.isSome_read_writeBytes (.inl hx)))
      · exact ih (.inl ⟨o', hlater, hx⟩)
    · exact ih (.inr (Memory.isSome_read_writeBytes (.inr hx)))

@[simp] theorem Output.base_scrambled (k : Nat) (o : Output) : (o.scrambled k).base = o.base := rfl

@[simp] theorem Output.length_bytes_scrambled (k : Nat) (o : Output) :
    (o.scrambled k).bytes.length = o.bytes.length := by
  simp [Output.scrambled]

/-- An abort leaves every byte outside the output regions in flight as it was (70_reset_and_hazards.md R253). -/
theorem State.read_abortedOpram_of_outside
    (h : ∀ o ∈ s.inflightOutputs, ¬ (o.base ≤ a ∧ a < o.base + o.bytes.length)) :
    s.abortedOpram.read a = s.opram.read a :=
  s.opram.read_writeOutputs_of_outside (by simpa using h)

/-- An abort leaves every byte of an output region in flight written, with any value (70_reset_and_hazards.md R253). -/
theorem State.isSome_read_abortedOpram
    (h : ∃ o ∈ s.inflightOutputs, o.base ≤ a ∧ a < o.base + o.bytes.length) : (s.abortedOpram.read a).isSome :=
  Memory.isSome_read_writeOutputs (.inl (by simpa using h))

/-! The registers. -/

/-- IRQ_EN shows in CTRL only (10_state.md R47). -/
theorem State.csrRead_with_irqEn (s : State) (b : Bool) (h : off ≠ 0x00C) :
    ({ s with irqEn := b } : State).csrRead off = s.csrRead off := by
  rcases csrAt_cases off with ⟨r, rfl⟩ | hr
  · rw [State.csrRead_offset, State.csrRead_offset]
    cases r with
    | ctrl => exact absurd rfl h
    | id | version | caps | status | cmdPtr | cmdCount | errCode | errPtr | errInfo | msmWindowCfg | msmLastW => rfl
  · rw [State.csrRead_of_reserved _ hr, State.csrRead_of_reserved _ hr]

theorem State.powerOn_csrValue (s : State) (r : Csr) : s.powerOn.csrValue r = s.softReset.csrValue r := by
  cases r <;> rfl

/-- The two resets leave every register with the same value (70_reset_and_hazards.md R250, R252). -/
theorem State.powerOn_csrRead (s : State) (off : Nat) : s.powerOn.csrRead off = s.softReset.csrRead off := by
  rcases csrAt_cases off with ⟨r, rfl⟩ | hr
  · rw [State.csrRead_offset, State.csrRead_offset, State.powerOn_csrValue]
  · rw [State.csrRead_of_reserved _ hr, State.csrRead_of_reserved _ hr]

/-! The turns. -/

/-- The reset input acts whatever the engine does (70_reset_and_hazards.md R251). -/
theorem step_of_powerOn (hm : s.Unmarked) (ha : s.agenda = .powerOn :: rest) :
    step s = .next ({ s with agenda := rest } : State).powerOn := by
  rw [step_of_unmarked s hm, ha]
  rfl

/-- A CTRL write with SOFT_RESET is a soft reset, after which IRQ_EN is the written bit; its START bit is ignored
(10_state.md R47, R49). -/
theorem step_of_softReset (hm : s.Unmarked) (hv : v.getLsbD 1 = true)
    (ha : s.agenda = .host (.csrWrite .b4 0x00C v) :: rest) :
    step s = .next { ({ s with agenda := rest } : State).softReset with irqEn := v.getLsbD 2 } :=
  (step_of_csrWriteTo .ctrl hm ha).trans (congrArg _ (State.writeCtrl_of_softReset _ hv))

/-- Settles O51: the turn is `State.softReset`, the bytes of OPRAM after it are those of `State.abortedOpram`. -/
theorem softResetAborts : Obligations.SoftResetAborts := by
  intro s rest v hm hv ha
  refine ⟨_, step_of_softReset hm hv ha, rfl, rfl, State.irq_of_clear rfl rfl, rfl, rfl, fun off hcaps hctrl => ?_,
    fun a h => State.read_abortedOpram_of_outside h, fun a h => State.isSome_read_abortedOpram h⟩
  rw [State.csrRead_with_irqEn _ _ hctrl, State.softReset_csrRead _ hcaps]

/-- Settles O50: the turn is `State.powerOn`, whose registers are those of a soft reset. -/
theorem powerOnResetsEverything : Obligations.PowerOnResetsEverything := by
  intro s rest hm ha
  refine ⟨_, step_of_powerOn hm ha, fun off hcaps => ?_, rfl, State.irq_of_clear rfl rfl, rfl, rfl, fun _ => rfl, rfl⟩
  rw [State.powerOn_csrRead, State.softReset_csrRead _ hcaps]

end Sys2Proof.Machine
end
